-- ==== Sys2Proof/Word.lean ====
section
/-! DEFINITION. The word types of the engine and their plainest readings (spec/00_scope.md R8, R9, R10). -/

namespace Sys2Proof

/-- A memory byte: the spec's `u8` (R9). -/
abbrev Byte := BitVec 8

/-- A register, a command word, a descriptor field: the spec's `u32` (R9). -/
abbrev Word := BitVec 32

/-- A binary32 value, held as its bit pattern (R10); `f32bits` is the identity. -/
abbrev F32 := BitVec 32

/-- `s32(v)`: a word read as two's complement (R9). -/
def s32 (v : Word) : Int := v.toInt

/-- `{b3, b2, b1, b0}`: four bytes joined, the first argument the least significant (R8, R51). -/
def wordOfBytes (b0 b1 b2 b3 : Byte) : Word := b3 ++ b2 ++ b1 ++ b0

/-- Byte `k` of a word, byte 0 the least significant (R51). -/
def byteOfWord (w : Word) (k : Nat) : Byte := w.extractLsb' (8 * k) 8

end Sys2Proof
end

