-- ==== Sys2Proof/Machine/Float32.lean ====
section
/-! DEFINITION. IEEE 754 binary32 on bit patterns: each operation computes the exact result and rounds it
once to nearest, ties to even (spec/00_scope.md R10, R11). Every finite binary32 is a whole number of units
of 2^-149, so exact results are integers or quotients of integers in that unit. -/

namespace Sys2Proof.Machine

/-- The magnitude bits of infinity. -/
def infMag : Nat := 0x7F800000

/-- The one NaN the operations produce; a NaN's bits are not observable (notes/assumptions/4.md). -/
def f32NaN : F32 := 0x7FC00000#32

/-- Exponent and fraction bits, as one number: for values of one sign it grows with the value. -/
def f32Mag (x : F32) : Nat := x.toNat % 0x80000000

/-- The sign bit (R10). -/
def f32Neg (x : F32) : Bool := 0x80000000 ≤ x.toNat

def f32IsNaN (x : F32) : Bool := infMag < f32Mag x

def f32IsInf (x : F32) : Bool := f32Mag x == infMag

def f32IsFinite (x : F32) : Bool := f32Mag x < infMag

/-- A value from its sign and its magnitude bits. -/
def f32Pack (neg : Bool) (mag : Nat) : F32 := BitVec.ofNat 32 ((if neg then 0x80000000 else 0) + mag)

/-- 2^149: one, in units of 2^-149. -/
def unitsOfOne : Nat := 2 ^ 149

/-- The magnitude, in units of 2^-149, of finite magnitude bits: bias 127, 23 fraction bits, subnormals when
the exponent field is 0 (R10). -/
def magUnits (mag : Nat) : Nat :=
  if mag < 2 ^ 23 then mag else (2 ^ 23 + mag % 2 ^ 23) * 2 ^ (mag / 2 ^ 23 - 1)

/-- `num / den` rounded to the nearest integer, a tie to the even one. -/
def divNearestEven (num den : Nat) : Nat :=
  let n := num / den
  let r := num % den
  if den < 2 * r || (2 * r == den && n % 2 == 1) then n + 1 else n

/-- How many low bits of an integer part `q` do not fit the 24 bits of a significand. -/
def excessBits (q : Nat) : Nat := if q < 2 ^ 24 then 0 else Nat.log2 q - 23

/-- The magnitude bits of the binary32 nearest the magnitude `num / den` units, ties to even; infinity when
the rounded value does not fit. -/
def roundUnits (num den : Nat) : Nat :=
  let k := excessBits (num / den)
  min (k * 2 ^ 23 + divNearestEven num (den * 2 ^ k)) infMag

/-- A finite value as a signed number of units of 2^-149. -/
def f32Units (x : F32) : Int :=
  if f32Neg x then -(magUnits (f32Mag x) : Int) else (magUnits (f32Mag x) : Int)

/-- Rounds a signed number of units; an exact 0 gives +0. -/
def f32OfUnits (n : Int) : F32 := f32Pack (n < 0) (roundUnits n.natAbs 1)

/-- `fadd(a, b)` (R10). -/
def fadd (a b : F32) : F32 :=
  if f32IsNaN a || f32IsNaN b then f32NaN
  else if f32IsInf a then (if f32IsInf b && f32Neg a != f32Neg b then f32NaN else a)
  else if f32IsInf b then b
  else if f32Units a + f32Units b == 0 then f32Pack (f32Neg a && f32Neg b) 0
  else f32OfUnits (f32Units a + f32Units b)

/-- The value with its sign changed. -/
def fneg (a : F32) : F32 := f32Pack (!f32Neg a) (f32Mag a)

/-- `fsub(a, b)` (R10). -/
def fsub (a b : F32) : F32 := fadd a (fneg b)

/-- `fmul(a, b)` (R10). -/
def fmul (a b : F32) : F32 :=
  if f32IsNaN a || f32IsNaN b then f32NaN
  else if f32IsInf a || f32IsInf b then
    (if f32Mag a == 0 || f32Mag b == 0 then f32NaN else f32Pack (f32Neg a != f32Neg b) infMag)
  else f32Pack (f32Neg a != f32Neg b) (roundUnits (magUnits (f32Mag a) * magUnits (f32Mag b)) unitsOfOne)

/-- `fdiv(a, b)` (R10). -/
def fdiv (a b : F32) : F32 :=
  if f32IsNaN a || f32IsNaN b then f32NaN
  else if f32IsInf a then (if f32IsInf b then f32NaN else f32Pack (f32Neg a != f32Neg b) infMag)
  else if f32IsInf b then f32Pack (f32Neg a != f32Neg b) 0
  else if f32Mag b == 0 then
    (if f32Mag a == 0 then f32NaN else f32Pack (f32Neg a != f32Neg b) infMag)
  else f32Pack (f32Neg a != f32Neg b) (roundUnits (magUnits (f32Mag a) * unitsOfOne) (magUnits (f32Mag b)))

/-- `i2f(n)` (R11). -/
def i2f (n : Int) : F32 := f32OfUnits (n * unitsOfOne)

/-- Order of values that are not NaN, infinities included; +0 and -0 compare equal. -/
def f32Key (x : F32) : Int := if f32Neg x then -(f32Mag x : Int) else (f32Mag x : Int)

/-- `a > b` on binary32 values; false when either is a NaN. -/
def fgt (a b : F32) : Bool := !f32IsNaN a && !f32IsNaN b && decide (f32Key b < f32Key a)

/-- A value that is finite and greater than 0, as R69 of spec/20_memory.md asks of every scale. -/
def f32FinitePositive (x : F32) : Bool := !f32Neg x && decide (0 < f32Mag x) && f32IsFinite x

end Sys2Proof.Machine
end

