-- ==== Sys2Proof/Syntax.lean ====
section
/-! DEFINITION. The six commands of JRA-CMD v1, one constructor per row of spec/opcode_table.json
(spec/30_encoding.md R81, R82, R83). -/

namespace Sys2Proof

/-- The operands of the two convolution commands (R82), with the two flags of `W0` (R81). -/
structure ConvOperands where
  /-- `RELU6`, `W0[8]`. -/
  relu6   : Bool
  /-- `HAS_BIAS`, `W0[9]`. -/
  hasBias : Bool
  /-- `IN`, `W1`: address of the input descriptor. -/
  input   : Word
  /-- `OUT`, `W2`: address of the output descriptor. -/
  output  : Word
  /-- `LAYER`, `W3`: position of the layer's record in the metadata table. -/
  layer   : Word
  /-- `W_SCALE`, `W4`: the weight scale, a binary32 bit pattern. -/
  wScale  : F32
  /-- `W_ZP`, `W5`: the weight zero-point, an i32 in two's complement. -/
  wZp     : Word
  /-- `BIAS`, `W6`: address of the bias array, an operand only when `HAS_BIAS = 1`. -/
  bias    : Word
deriving DecidableEq, Repr

/-- The operands of `LDMETA` (R82). -/
structure MetaOperands where
  /-- `META_ADDR`, `W1`. -/
  metaAddr : Word
  /-- `META_LEN`, `W2`, in bytes. -/
  metaLen  : Word
  /-- `BLOB_ADDR`, `W3`. -/
  blobAddr : Word
  /-- `BLOB_LEN`, `W4`, in bytes. -/
  blobLen  : Word
deriving DecidableEq, Repr

/-- The operands of `GAP` and `SOFTMAX` (R82): the two descriptor addresses `W1`, `W2`. -/
structure TensorOperands where
  input  : Word
  output : Word
deriving DecidableEq, Repr

/-- A command (R83). -/
inductive Instr where
  /-- `END` -/
  | endPass
  /-- `LDMETA` -/
  | ldmeta (m : MetaOperands)
  /-- `DWCONV`, with or without `.RELU6` and a bias -/
  | dwconv (c : ConvOperands)
  /-- `PWCONV`, with or without `.RELU6` and a bias -/
  | pwconv (c : ConvOperands)
  /-- `GAP` -/
  | gap (t : TensorOperands)
  /-- `SOFTMAX` -/
  | softmax (t : TensorOperands)
deriving DecidableEq, Repr

/-- The mnemonic of an instruction's row in spec/opcode_table.json. -/
def Instr.mnemonic : Instr → String
  | .endPass => "END"
  | .ldmeta _ => "LDMETA"
  | .dwconv _ => "DWCONV"
  | .pwconv _ => "PWCONV"
  | .gap _ => "GAP"
  | .softmax _ => "SOFTMAX"

end Sys2Proof
end

