-- ==== Sys2Proof/WellFormed.lean ====
section
/-! DEFINITION. Which instructions are the reading of some encoding (spec/30_encoding.md R82, R88). -/

namespace Sys2Proof

/-- Without `HAS_BIAS` the word `W6` is no operand, so the instruction carries none: it holds 0, as the
assembler writes it (R82, R88). -/
def ConvOperands.wellFormed (c : ConvOperands) : Bool := c.hasBias || c.bias == 0#32

/-- Every other operand may hold any 32-bit value: ranges of `W_SCALE` and `W_ZP` are no matter of the
encoding (spec/20_memory.md R69 makes them a precondition of execution). -/
def Instr.wellFormed : Instr → Bool
  | .endPass => true
  | .ldmeta _ => true
  | .dwconv c => c.wellFormed
  | .pwconv c => c.wellFormed
  | .gap _ => true
  | .softmax _ => true

end Sys2Proof
end

