-- ==== Sys2Proof/Decode.lean ====
section
/-! DEFINITION. The decoder, total on any bytes, and the encoder of a command (spec/30_encoding.md R80 to
R88). -/

namespace Sys2Proof

/-- Why 32 bytes are no command. The engine answers each with `IllegalCommand` (R86). -/
inductive DecodeError where
  /-- fewer than 32 bytes (R80) -/
  | truncated
  /-- `W0[7:0]` in 0x06 to 0xFF (R86) -/
  | unassignedOpcode
  /-- `W0[31:10]` not 0 (R86) -/
  | reservedBits
  /-- `RELU6` or `HAS_BIAS` set on a command without that flag (R86) -/
  | flagNotAllowed
deriving DecidableEq, Repr

/-- The eight words of a command (R80). -/
structure CommandWords where
  w0 : Word
  w1 : Word
  w2 : Word
  w3 : Word
  w4 : Word
  w5 : Word
  w6 : Word
  w7 : Word
deriving DecidableEq, Repr

/-- A row of the decoding table (R84). -/
structure OpcodeRow where
  mnemonic : String
  pattern  : Word
  mask     : Word
deriving DecidableEq, Repr

/-- The decoding table of R84. -/
def opcodeTable : List OpcodeRow :=
  [⟨"END", 0x00000000#32, 0xFFFFFFFF#32⟩, ⟨"LDMETA", 0x00000001#32, 0xFFFFFFFF#32⟩,
   ⟨"DWCONV", 0x00000002#32, 0xFFFFFCFF#32⟩, ⟨"PWCONV", 0x00000003#32, 0xFFFFFCFF#32⟩,
   ⟨"GAP", 0x00000004#32, 0xFFFFFFFF#32⟩, ⟨"SOFTMAX", 0x00000005#32, 0xFFFFFFFF#32⟩]

/-- A first word is selected by a row when `w0 & mask = match` (R84). -/
def OpcodeRow.selects (r : OpcodeRow) (w0 : Word) : Bool := w0 &&& r.mask == r.pattern

/-- `OPCODE`, `W0[7:0]` (R81). -/
def opcodeField (w0 : Word) : Nat := (w0.extractLsb' 0 8).toNat

/-- `RELU6`, `W0[8]` (R81). -/
def relu6Field (w0 : Word) : Bool := w0.getLsbD 8

/-- `HAS_BIAS`, `W0[9]` (R81). -/
def hasBiasField (w0 : Word) : Bool := w0.getLsbD 9

/-- `W0[31:10]` (R81). -/
def reservedField (w0 : Word) : Nat := (w0.extractLsb' 10 22).toNat

/-- A command without flags: its flag bits must be 0 (R86). -/
def decodeUnflagged (w0 : Word) (i : Instr) : Except DecodeError Instr :=
  if relu6Field w0 || hasBiasField w0 then .error .flagNotAllowed else .ok i

/-- The operands of a convolution (R82, R85). `W6` is an operand only with `HAS_BIAS`. -/
def decodeConv (c : CommandWords) : ConvOperands :=
  { relu6 := relu6Field c.w0, hasBias := hasBiasField c.w0, input := c.w1, output := c.w2, layer := c.w3,
    wScale := c.w4, wZp := c.w5, bias := if hasBiasField c.w0 then c.w6 else 0#32 }

/-- The command of eight words (R83, R84, R86). -/
def decodeWords (c : CommandWords) : Except DecodeError Instr :=
  if reservedField c.w0 != 0 then .error .reservedBits
  else match opcodeField c.w0 with
    | 0 => decodeUnflagged c.w0 .endPass
    | 1 => decodeUnflagged c.w0 (.ldmeta ⟨c.w1, c.w2, c.w3, c.w4⟩)
    | 2 => .ok (.dwconv (decodeConv c))
    | 3 => .ok (.pwconv (decodeConv c))
    | 4 => decodeUnflagged c.w0 (.gap ⟨c.w1, c.w2⟩)
    | 5 => decodeUnflagged c.w0 (.softmax ⟨c.w1, c.w2⟩)
    | _ => .error .unassignedOpcode

/-- Word `Wk` of a command's bytes: the little-endian word at byte offset `4k` (R80, R51). -/
def commandWord (bs : List Byte) (k : Nat) : Word :=
  wordOfBytes (bs.getD (4 * k) 0) (bs.getD (4 * k + 1) 0) (bs.getD (4 * k + 2) 0) (bs.getD (4 * k + 3) 0)

/-- The eight words of a command's bytes (R80). -/
def commandWords (bs : List Byte) : CommandWords :=
  { w0 := commandWord bs 0, w1 := commandWord bs 1, w2 := commandWord bs 2, w3 := commandWord bs 3,
    w4 := commandWord bs 4, w5 := commandWord bs 5, w6 := commandWord bs 6, w7 := commandWord bs 7 }

/-- The command of 32 bytes, in memory order (R80, R84). -/
def decodeBytes (bs : List Byte) : Except DecodeError Instr :=
  if bs.length < 32 then .error .truncated else decodeWords (commandWords bs)

/-! ### The encoder, from the same tables (R81 to R85, R88) -/

/-- The first word: opcode, then the two flags (R81). -/
def encodeFirst (opcode : Word) (relu6 hasBias : Bool) : Word :=
  opcode ||| (if relu6 then 0x100#32 else 0#32) ||| (if hasBias then 0x200#32 else 0#32)

/-- The words of a convolution with the given opcode (R82). -/
def encodeConv (opcode : Word) (c : ConvOperands) : CommandWords :=
  ⟨encodeFirst opcode c.relu6 c.hasBias, c.input, c.output, c.layer, c.wScale, c.wZp, c.bias, 0⟩

/-- The words of an instruction; words it does not use are 0 (R82, R88). -/
def encode : Instr → CommandWords
  | .endPass => ⟨0, 0, 0, 0, 0, 0, 0, 0⟩
  | .ldmeta m => ⟨1, m.metaAddr, m.metaLen, m.blobAddr, m.blobLen, 0, 0, 0⟩
  | .dwconv c => encodeConv 2 c
  | .pwconv c => encodeConv 3 c
  | .gap t => ⟨4, t.input, t.output, 0, 0, 0, 0, 0⟩
  | .softmax t => ⟨5, t.input, t.output, 0, 0, 0, 0, 0⟩

/-- The four bytes of a word, least significant first (R51). -/
def bytesOfWord (w : Word) : List Byte :=
  [byteOfWord w 0, byteOfWord w 1, byteOfWord w 2, byteOfWord w 3]

/-- The words of a command in order. -/
def CommandWords.toList (c : CommandWords) : List Word := [c.w0, c.w1, c.w2, c.w3, c.w4, c.w5, c.w6, c.w7]

/-- The 32 bytes of a command in memory order (R80). -/
def commandBytes (c : CommandWords) : List Byte := c.toList.flatMap bytesOfWord

/-- The 32 bytes of an instruction in memory order (R80, R88). -/
def encodeBytes (i : Instr) : List Byte := commandBytes (encode i)

/-- The 32 bytes of a command whose bits are the number `w`, as spec/opcode_table.json numbers them: bit 0
is the least significant bit of `W0`, and `W1` follows at bit 32. Bits from `nbits` up are 0. -/
def tableBytes (nbits w : Nat) : List Byte :=
  (List.range 32).map fun k => BitVec.ofNat 8 (w % 2 ^ nbits / 2 ^ (8 * k))

/-- The instruction the decoder reads from a row's bits, numbered as spec/opcode_table.json numbers them. -/
def decodeTableWord (nbits w : Nat) : Option Instr :=
  match decodeBytes (tableBytes nbits w) with
  | .ok i => some i
  | .error _ => none

end Sys2Proof
end

