-- ==== Sys2Proof/Config.lean ====
section
/-! DEFINITION. What an implementation of the engine fixes, and the free values of the spec
(spec/00_scope.md R6, R16; spec/10_state.md R33). The memory size, a parameter too, is carried in State
(notes/assumptions/1.md). -/

namespace Sys2Proof

/-- `SOFTMAX_CMAX`, the largest channel count SOFTMAX accepts (R6, spec/45_softmax.md R191). -/
def Config.softmaxCMax : Nat := 2048

/-- The least `MEM_BYTES` an engine may have (R6). -/
def Config.memBytesMin : Nat := 64

/-- The greatest `MEM_BYTES` an engine may have, 2^31 (R6). -/
def Config.memBytesMax : Nat := 2147483648

/-- The memory size of `State.reset`. DESIGN CHOICE (notes/assumptions/1.md): the spec leaves it open. -/
def Config.resetMemBytes : Nat := 2147483648

/-- FREE VALUE. The bits an implementation proposes for `exp32` at the negative argument whose magnitude
bits are given. `exp32` (Machine/Exponential.lean) keeps it inside the bounds of R16
(notes/assumptions/3.md). -/
opaque Config.expBits : Nat → Nat

/-- FREE VALUE. `exp32` at an argument R16 says nothing of: a NaN or a value above 0
(notes/assumptions/3.md). -/
opaque Config.expOutside : F32 → F32

end Sys2Proof
end

