-- ==== Sys2Proof/Machine/State.lean ====
section
/-! DEFINITION. The state of the engine and its host, the errors of the engine, the reasons a step can stop,
and the state after reset (spec/10_state.md, spec/60_exceptions.md R250). -/

namespace Sys2Proof.Machine

/-- The five errors of the engine (R250). They are no stops of the model: each is TAKEN, as a next state, by
the one error entry `raise` (Machine/Ops.lean). -/
inductive EngineError where
  /-- code 1 (R252) -/
  | invalidDimensions
  /-- code 2 (R253) -/
  | unsupportedBitWidth
  /-- code 3 (R254) -/
  | channelLimitExceeded
  /-- code 4 (R255) -/
  | metadataMalformed
  /-- code 5 (R256) -/
  | illegalCommand
deriving DecidableEq, Repr

/-- The model's machine-stopping faults. The engine itself has none: it completes a command, raises one of
five errors, or the spec refuses the case (spec/93_implementation_defined.md, end of section 1). -/
inductive Fault where
  /-- Raised by `lookup`, when the registry registers point at a record or a weight region outside `M`. The
  spec derives that this cannot happen after any `LDMETA` (spec/46_registry_ldmeta.md R209) and applies no
  read outside memory (spec/00_scope.md R13); the step invariant excludes it. Safe: it only stops. -/
  | outsideMemory
deriving DecidableEq, Repr

/-- The cases the spec calls REFUSE: it gives them no meaning and a model must not compute a value for them
(spec/00_scope.md R15, spec/93_implementation_defined.md). Each only stops the run, so each is safe. -/
inductive Refusal where
  /-- Raised by a command of `exec` that has no meaning in the model. Safe: it only stops. -/
  | notModelled (mnemonic : String)
  /-- U1. Raised by a command that passes its checks and reads a `scale` or `W_SCALE` that is not finite and
  above 0 (spec/20_memory.md R69). Safe. -/
  | illegalScale
  /-- U2. Raised by a command that passes its checks and reads a `zero_point` or `W_ZP` outside 0 to 255
  (spec/20_memory.md R69). Safe. -/
  | illegalZeroPoint
  /-- U3. Raised by `requantize` on a NaN quotient (spec/40_quant_primitives.md R112). Safe. -/
  | nanToRequantize
  /-- U4. Raised by a command whose output data overlaps anything it reads (spec/20_memory.md R68). Safe. -/
  | regionOverlap
  /-- U5. Raised by a convolution when the exact sum of an output element is outside i32
  (spec/43_pwconv.md R165). Safe. -/
  | accumulatorOverflow
  /-- U7. Raised by a host move that reads or writes `M` while BUSY (spec/20_memory.md R64). Safe. -/
  | hostMemoryAccessWhileBusy
  /-- U10. Raised by a host register access that is not 32 bits wide (spec/10_state.md R29). Safe. -/
  | hostRegisterAccessWidth
  /-- Raised by a host move at an address that is no byte of `M` (spec/10_state.md R32; the spec gives the
  host's own access no meaning there, notes/assumptions/11.md). Safe. -/
  | hostAccessOutsideMemory
deriving DecidableEq, Repr

/-- Why a command does not complete. -/
inductive Stop where
  /-- an error of the engine: it is taken, as a next state -/
  | error (e : EngineError)
  /-- a fault of the model -/
  | fault (f : Fault)
  /-- a case the spec refuses -/
  | refuse (r : Refusal)
deriving DecidableEq, Repr

/-- One move of the host or of the platform (spec/47_sequencing_host.md R234,
spec/70_reset_and_hazards.md R280, R283). `width` is the access width in bytes. -/
inductive HostMove where
  /-- do nothing while the engine takes one turn: one command of a running pass (R225). It is what puts the
  moves after it behind a command: DESIGN CHOICE, notes/assumptions/7.md -/
  | wait
  /-- write a register of the window (spec/10_state.md R24) -/
  | writeReg (width : Nat) (offset : Word) (value : Word)
  /-- read a register of the window -/
  | readReg (width : Nat) (offset : Word)
  /-- write one byte of `M` -/
  | writeByte (addr : Word) (value : Byte)
  /-- read one byte of `M` -/
  | readByte (addr : Word)
  /-- hardware reset; `contents` is what `M` holds after it, which the spec leaves open (R280), so it is
  data of the move (notes/assumptions/14.md) -/
  | hardwareReset (contents : List Host.Cell)
deriving DecidableEq, Repr

/-- The state: the registers of spec/10_state.md R24, the memory `M` (R32), and three fields of the model's
own. `CTRL` holds no value (R25) and has no field. -/
structure State where
  /-- `MEM_BYTES`, the size of `M`: a parameter (R33), carried as data no step writes (notes/assumptions/1.md) -/
  memBytes  : Nat
  /-- `M`: the bytes that are not 0, by rising address (notes/assumptions/2.md) -/
  mem       : List Host.Cell
  /-- `STATUS` (R26) -/
  status    : Word
  /-- `CMD_PTR` (R22) -/
  cmdPtr    : Word
  /-- `ERR_CODE` (R27) -/
  errCode   : Word
  /-- `ERR_PC` (R27) -/
  errPc     : Word
  /-- `META_BASE` (R28) -/
  metaBase  : Word
  /-- `META_COUNT` (R28) -/
  metaCount : Word
  /-- `BLOB_BASE` (R28) -/
  blobBase  : Word
  /-- `BLOB_LEN` (R28) -/
  blobLen   : Word
  /-- the host's coming moves, oldest first (notes/assumptions/7.md) -/
  hostMoves : List HostMove
  /-- the word the host's last read returned (notes/assumptions/7.md) -/
  hostRead  : Word
deriving DecidableEq, Repr

/-- The machine right after hardware reset (R34, R280): every register 0. The memory size, the memory's
contents and the model's own fields are DESIGN CHOICES (notes/assumptions/1.md, 2.md, 7.md). -/
def State.reset : State :=
  { memBytes := Config.resetMemBytes, mem := [], status := 0, cmdPtr := 0, errCode := 0, errPc := 0,
    metaBase := 0, metaCount := 0, blobBase := 0, blobLen := 0, hostMoves := [], hostRead := 0 }

end Sys2Proof.Machine
end

