-- ==== Sys2Proof/Machine/Flags.lean ====
section
/-! DEFINITION. The only flags of the engine, the three bits of `STATUS` (spec/10_state.md R23, R26). There
are no arithmetic flags. -/

namespace Sys2Proof.Machine

/-- `STATUS.BUSY`, bit 0. -/
def busyBit : Word := 1#32

/-- `STATUS.DONE`, bit 1. -/
def doneBit : Word := 2#32

/-- `STATUS.ERR`, bit 2. -/
def errBit : Word := 4#32

/-- `<- 1` of the bits of `b`. -/
def setBits (w b : Word) : Word := w ||| b

/-- `<- 0` of the bits of `b`. -/
def clearBits (w b : Word) : Word := w &&& ~~~b

/-- `STATUS.BUSY = 1`: a pass is running. -/
def State.busy (s : State) : Bool := s.status.getLsbD 0

/-- `STATUS.DONE = 1`: the last pass ended at an `END`. -/
def State.done (s : State) : Bool := s.status.getLsbD 1

/-- `STATUS.ERR = 1`: the last pass ended at a command that raised an error. -/
def State.err (s : State) : Bool := s.status.getLsbD 2

/-- What `START` does to `STATUS`: DONE <- 0, ERR <- 0, BUSY <- 1 (spec/47_sequencing_host.md R227). -/
def startStatus (w : Word) : Word := setBits (clearBits (clearBits w doneBit) errBit) busyBit

/-- What `END` does to `STATUS`: BUSY <- 0, DONE <- 1 (R226). -/
def endStatus (w : Word) : Word := setBits (clearBits w busyBit) doneBit

/-- What error entry does to `STATUS`: ERR <- 1, BUSY <- 0 (spec/60_exceptions.md R258). -/
def errorStatus (w : Word) : Word := clearBits (setBits w errBit) busyBit

end Sys2Proof.Machine
end

