-- ==== Sys2Proof/Machine/Ops.lean ====
section
/-! DEFINITION. The named operations over memory and registers: reading and writing `M`, the range test, error
entry, the advance of the command pointer, and how a command's result becomes an outcome
(spec/00_scope.md R13, R14; spec/20_memory.md R51, R56; spec/60_exceptions.md R258). -/

namespace Sys2Proof.Machine

/-! ### Memory -/

/-- What a byte of memory that is not listed reads as: DESIGN CHOICE (notes/assumptions/2.md); the spec leaves
memory that nobody has written open. -/
def unlistedByte : Byte := 0#8

/-- `M[a]` (R13). -/
def readByte : List Host.Cell → Nat → Byte
  | [], _ => unlistedByte
  | c :: rest, a => if a < c.1 then unlistedByte else if a == c.1 then c.2 else readByte rest a

/-- The list of a memory with the byte at `a` put in front, unless it is what an unlisted byte reads as. -/
def consByte (a : Nat) (v : Byte) (rest : List Host.Cell) : List Host.Cell :=
  if v == unlistedByte then rest else (a, v) :: rest

/-- `MemWrite(a, 1, v)` (R13), keeping the canonical form. -/
def writeByte : List Host.Cell → Nat → Byte → List Host.Cell
  | [], a, v => consByte a v []
  | c :: rest, a, v =>
    if a < c.1 then consByte a v (c :: rest)
    else if a == c.1 then consByte a v rest
    else c :: writeByte rest a v

/-- Byte writes at consecutive addresses from `a`. -/
def writeBytes : List Host.Cell → Nat → List Byte → List Host.Cell
  | mem, _, [] => mem
  | mem, a, v :: vs => writeBytes (writeByte mem a v) (a + 1) vs

/-- The `n` bytes from `a`. -/
def readBytes (mem : List Host.Cell) (a n : Nat) : List Byte := (List.range n).map fun k => readByte mem (a + k)

/-- `MemRead(a, 4)`: the little-endian word at `a` (R13, R51). -/
def readWord (mem : List Host.Cell) (a : Nat) : Word :=
  wordOfBytes (readByte mem a) (readByte mem (a + 1)) (readByte mem (a + 2)) (readByte mem (a + 3))

/-- `InRange(addr, n)` on unbounded integers (R56). -/
def State.inRange (s : State) (addr n : Nat) : Bool := decide (addr + n ≤ s.memBytes)

/-- The memory of a list of cells in any order; cells outside `M` are no bytes of it. -/
def memoryOf (size : Nat) (cells : List Host.Cell) : List Host.Cell :=
  cells.foldl (fun mem c => if c.1 < size then writeByte mem c.1 c.2 else mem) []

/-- The canonical form from address `lo` on: addresses strictly rising and below `size`, and no entry equal
to what an unlisted address reads as. -/
def wfFrom (size : Nat) : Nat → List Host.Cell → Bool
  | _, [] => true
  | lo, c :: rest => decide (lo ≤ c.1) && decide (c.1 < size) && c.2 != unlistedByte && wfFrom size (c.1 + 1) rest

/-- The canonical form of a memory of `size` bytes. -/
def Memory.wf (size : Nat) (mem : List Host.Cell) : Bool := wfFrom size 0 mem

/-! ### Registers -/

/-- The code of an error, the value of `ERR_CODE` (R250). -/
def errorCode : EngineError → Word
  | .invalidDimensions => 1
  | .unsupportedBitWidth => 2
  | .channelLimitExceeded => 3
  | .metadataMalformed => 4
  | .illegalCommand => 5

/-- Error entry, `raise E` at the command `CMD_PTR` holds (R258): `ERR_CODE`, `ERR_PC` and two bits of
`STATUS` are written, nothing else. There is no return from an error: the host starts a pass again or resets
(R260; `State.start`, `State.softReset`). -/
def raise (e : EngineError) (s : State) : State :=
  { s with errCode := errorCode e, errPc := s.cmdPtr, status := errorStatus s.status }

/-- `pc <- pc + 32`: a command that is not `END` completes (spec/10_state.md R22). -/
def State.advance (s : State) : State := { s with cmdPtr := s.cmdPtr + 32#32 }

/-- Output data stored from address `a` on, the only bytes a command writes (spec/10_state.md R32). -/
def State.store (s : State) (a : Nat) (bytes : List Byte) : State := { s with mem := writeBytes s.mem a bytes }

/-- `START` (spec/47_sequencing_host.md R227); `CMD_PTR` and the registry keep their values. -/
def State.start (s : State) : State := { s with status := startStatus s.status, errCode := 0, errPc := 0 }

/-- Every register at its reset value, `M` untouched: the soft reset (spec/70_reset_and_hazards.md R281). -/
def State.softReset (s : State) : State :=
  { s with status := 0, cmdPtr := 0, errCode := 0, errPc := 0, metaBase := 0, metaCount := 0, blobBase := 0,
           blobLen := 0 }

/-! ### Checks and outcomes -/

/-- `require cond else raise e` (R14). -/
def require (cond : Bool) (e : EngineError) : Except Stop Unit :=
  if cond then .ok () else .error (.error e)

/-- A precondition the engine does not check: its breach is REFUSE (spec/20_memory.md R69). -/
def precondition (cond : Bool) (r : Refusal) : Except Stop Unit :=
  if cond then .ok () else .error (.refuse r)

/-- The guard before a read whose range no error rule tests (notes/assumptions/10.md). -/
def State.insideMemory (s : State) (addr n : Nat) : Except Stop Unit :=
  if s.inRange addr n then .ok () else .error (.fault .outsideMemory)

/-- A command's result as an outcome from the state it began in: an error is TAKEN, so that nothing the
command did before it remains (R14, R251). -/
def State.conclude (s : State) (r : Except Stop State) : Host.Outcome State Fault Refusal :=
  match r with
  | .ok t => .next t
  | .error (.error e) => .next (raise e s)
  | .error (.fault f) => .fault f
  | .error (.refuse r) => .refused r

/-- The results of a list of computations, or the first stop among them. -/
def collect {α : Type} (f : α → Except Stop Byte) : List α → Except Stop (List Byte)
  | [] => .ok []
  | a :: rest =>
    match f a with
    | .error e => .error e
    | .ok b =>
      match collect f rest with
      | .error e => .error e
      | .ok bs => .ok (b :: bs)

/-! ### Placing a command for the next step -/

/-- The address the next step fetches at: `CMD_PTR`, or 0 when no command fits in memory there. -/
def State.fetchAddress (s : State) : Word := if s.inRange s.cmdPtr.toNat 32 then s.cmdPtr else 0

/-- What the host does so that the very next step runs the command of 32 bytes (notes/assumptions/9.md): the
bytes stored where the step fetches, a pass started unless one is running, no host move before it. -/
def State.placeCommand (s : State) (bytes : List Byte) : State :=
  let t := if s.busy then s else s.start
  { t with mem := writeBytes s.mem s.fetchAddress.toNat bytes, cmdPtr := s.fetchAddress, hostMoves := [] }

end Sys2Proof.Machine
end

