-- ==== Sys2Proof/Machine/Operands.lean ====
section
/-! DEFINITION. The operands a command reaches through memory: tensor descriptors, tensor samples, metadata
records, weights and biases; the unchecked preconditions on them; and the overlap rule
(spec/20_memory.md R57 to R63, R68, R69; spec/46_registry_ldmeta.md R209). -/

namespace Sys2Proof.Machine

/-! ### Tensors -/

/-- A tensor descriptor that passed its checks (R57). -/
structure TensorDesc where
  height   : Nat
  width    : Nat
  channels : Nat
  data     : Nat
  scale    : F32
  zp       : Int
deriving DecidableEq, Repr

/-- `H·W·C`, the bytes of a tensor's data (R58). -/
def TensorDesc.size (d : TensorDesc) : Nat := d.height * d.width * d.channels

/-- The fields of the descriptor at `d`, the dimensions as naturals (R57). -/
def descFields (mem : List Host.Cell) (d : Nat) : TensorDesc :=
  { height := (s32 (readWord mem d)).toNat, width := (s32 (readWord mem (d + 4))).toNat,
    channels := (s32 (readWord mem (d + 8))).toNat, data := (readWord mem (d + 12)).toNat,
    scale := readWord mem (d + 16), zp := s32 (readWord mem (d + 20)) }

/-- `H > 0 and W > 0 and C > 0` on the descriptor at `d` (R57). -/
def descPositive (mem : List Host.Cell) (d : Nat) : Bool :=
  decide (0 < s32 (readWord mem d)) && decide (0 < s32 (readWord mem (d + 4))) &&
    decide (0 < s32 (readWord mem (d + 8)))

/-- `ReadDesc(d)` (R57). -/
def readDesc (s : State) (d : Word) : Except Stop TensorDesc := do
  require (s.inRange d.toNat 24) .invalidDimensions
  require (descPositive s.mem d.toNat) .invalidDimensions
  require (s.inRange (descFields s.mem d.toNat).data (descFields s.mem d.toNat).size) .invalidDimensions
  pure (descFields s.mem d.toNat)

/-- The address of sample `T[y,x,c]` (R58). -/
def TensorDesc.sampleAddr (d : TensorDesc) (y x c : Nat) : Nat := d.data + (y * d.width + x) * d.channels + c

/-- Sample `T[y,x,c]` (R58). -/
def sample (mem : List Host.Cell) (d : TensorDesc) (y x c : Nat) : Byte := readByte mem (d.sampleAddr y x c)

/-! ### Records -/

/-- A metadata record (R59). -/
structure LayerRecord where
  layerId    : Int
  bitWidth   : Int
  byteOffset : Int
  byteLength : Int
deriving DecidableEq, Repr

/-- The record at address `r` (R59). -/
def readRecord (mem : List Host.Cell) (r : Nat) : LayerRecord :=
  { layerId := s32 (readWord mem r), bitWidth := s32 (readWord mem (r + 4)),
    byteOffset := s32 (readWord mem (r + 8)), byteLength := s32 (readWord mem (r + 12)) }

/-- `off ≥ 0 and len ≥ 0 and off + len ≤ blobLen` (R207, R209). -/
def LayerRecord.fits (r : LayerRecord) (blobLen : Nat) : Bool :=
  decide (0 ≤ r.byteOffset) && decide (0 ≤ r.byteLength) && decide (r.byteOffset + r.byteLength ≤ blobLen)

/-- What `Lookup` returns (R209). -/
structure LayerView where
  wbase : Nat
  wlen  : Nat
  bits  : Nat
deriving DecidableEq, Repr

/-- The address of the record at a position (R59). -/
def State.recordAddr (s : State) (pos : Word) : Nat := s.metaBase.toNat + 16 * pos.toNat

/-- The view of the weights a record describes (R209). -/
def State.viewOf (s : State) (r : LayerRecord) : LayerView :=
  { wbase := s.blobBase.toNat + r.byteOffset.toNat, wlen := r.byteLength.toNat, bits := r.bitWidth.toNat }

/-- `Lookup(pos)` (R209). The two guards are on ranges R209 derives to be in memory
(notes/assumptions/10.md). -/
def lookup (s : State) (pos : Word) : Except Stop LayerView := do
  require (decide (pos.toNat < s.metaCount.toNat)) .metadataMalformed
  s.insideMemory (s.recordAddr pos) 16
  require ((readRecord s.mem (s.recordAddr pos)).fits s.blobLen.toNat) .metadataMalformed
  require (decide (1 ≤ (readRecord s.mem (s.recordAddr pos)).bitWidth) &&
    decide ((readRecord s.mem (s.recordAddr pos)).bitWidth ≤ 8)) .unsupportedBitWidth
  s.insideMemory (s.viewOf (readRecord s.mem (s.recordAddr pos))).wbase
    (s.viewOf (readRecord s.mem (s.recordAddr pos))).wlen
  pure (s.viewOf (readRecord s.mem (s.recordAddr pos)))

/-! ### Weights and biases -/

/-- The depthwise weight of channel `c` at tap index `t = 3(ky+1) + (kx+1)` (R61). -/
def dwWeight (mem : List Host.Cell) (v : LayerView) (c t : Nat) : Byte := readByte mem (v.wbase + 9 * c + t)

/-- The pointwise weight of output channel `co` for input channel `ci` (R62). -/
def pwWeight (mem : List Host.Cell) (v : LayerView) (cin co ci : Nat) : Byte :=
  readByte mem (v.wbase + co * cin + ci)

/-- The bias of channel `c` (R63). -/
def biasOf (mem : List Host.Cell) (bias : Word) (c : Nat) : Int := s32 (readWord mem (bias.toNat + 4 * c))

/-! ### Unchecked preconditions -/

/-- `zero_point` or `W_ZP` in 0 to 255 (R69). -/
def legalZp (zp : Int) : Bool := decide (0 ≤ zp) && decide (zp ≤ 255)

/-- The parameters of one tensor or of the weights are legal, or the command is refused (R69). -/
def legalParams (scale : F32) (zp : Int) : Except Stop Unit := do
  precondition (f32FinitePositive scale) .illegalScale
  precondition (legalZp zp) .illegalZeroPoint

/-- A range of bytes `[base, base + len)`. -/
structure Region where
  base : Nat
  len  : Nat
deriving DecidableEq, Repr

/-- Two ranges share no byte. -/
def Region.disjoint (a b : Region) : Bool := decide (a.base + a.len ≤ b.base) || decide (b.base + b.len ≤ a.base)

/-- The data of a tensor (R58). -/
def TensorDesc.region (d : TensorDesc) : Region := ⟨d.data, d.size⟩

/-- The write set of a command is disjoint from each range of its read set, or the command is refused
(R68). -/
def noOverlap (write : Region) (reads : List Region) : Except Stop Unit :=
  precondition (reads.all (write.disjoint ·)) .regionOverlap

/-- The ranges every tensor command reads: its own 32 bytes and its two descriptors. -/
def State.commonReads (s : State) (input output : Word) : List Region :=
  [⟨s.cmdPtr.toNat, 32⟩, ⟨input.toNat, 24⟩, ⟨output.toNat, 24⟩]

end Sys2Proof.Machine
end

