-- ==== Sys2Proof/Machine/Quant.lean ====
section
/-! DEFINITION. The affine quantization primitives and the ReLU6 clamp (spec/40_quant_primitives.md R110 to
R114, spec/42_dwconv.md R148). -/

namespace Sys2Proof.Machine

/-- `clamp(v, lo, hi)` (spec/00_scope.md R12). -/
def clamp (v lo hi : Int) : Int := if v < lo then lo else if hi < v then hi else v

/-- `dequantize(q, scale, zero_point)` (R110). -/
def dequantize (q : Byte) (scale : F32) (zp : Int) : F32 := fmul scale (i2f ((q.toNat : Int) - zp))

/-- `floor(|t| + 1/2)` of a finite magnitude, exactly (R111). -/
def roundMag (mag : Nat) : Nat := (2 * magUnits mag + unitsOfOne) / (2 * unitsOfOne)

/-- `rnd(t)` of a finite value: to the nearest integer, a tie away from zero (R111). -/
def rnd (t : F32) : Int := if f32Neg t then -(roundMag (f32Mag t) : Int) else (roundMag (f32Mag t) : Int)

/-- The code of a quotient `t = real / scale` (R112): saturating, and REFUSE on a NaN. -/
def codeOfQuotient (t : F32) (zp : Int) : Except Stop Int :=
  if f32IsNaN t then .error (.refuse .nanToRequantize)
  else if f32IsInf t then .ok (if f32Neg t then 0 else 255)
  else .ok (clamp (zp + rnd t) 0 255)

/-- `requantize(real, scale, zero_point)`, a code in 0 to 255 (R112). -/
def requantize (real scale : F32) (zp : Int) : Except Stop Int := codeOfQuotient (fdiv real scale) zp

/-- A code in 0 to 255 as the byte stored (R114). -/
def byteOfCode (q : Int) : Byte := BitVec.ofNat 8 q.toNat

/-- 6.0 (spec/42_dwconv.md R148). -/
def f32Six : F32 := 0x40C00000#32

/-- The ceiling `hi` of the ReLU6 clamp (R148); `none` is +infinity. -/
def relu6Ceiling (scale : F32) (zp : Int) : Option Int :=
  if f32IsInf (fdiv f32Six scale) then none else some (zp + rnd (fdiv f32Six scale))

/-- `max(zp, min(q, hi))` (R148). -/
def relu6Clamp (q : Int) (scale : F32) (zp : Int) : Int :=
  match relu6Ceiling scale zp with
  | none => max zp q
  | some hi => max zp (min q hi)

/-- A code requantized, clamped when `relu6` is set, as the byte stored (R147, R148). -/
def outputCode (relu6 : Bool) (real scale : F32) (zp : Int) : Except Stop Byte :=
  match requantize real scale zp with
  | .error e => .error e
  | .ok q => .ok (byteOfCode (if relu6 then relu6Clamp q scale zp else q))

end Sys2Proof.Machine
end

