-- ==== Sys2Proof/Machine/Convolution.lean ====
section
/-! DEFINITION. The bit-serial multiply-accumulate and the two convolution commands `DWCONV` and `PWCONV`
(spec/41_bitserial_mac.md, spec/42_dwconv.md, spec/43_pwconv.md). -/

namespace Sys2Proof.Machine

/-! ### The multiply-accumulate unit -/

/-- The loop of R131 over the low `bits` bits of a weight: bit `i` adds `activation << i`. -/
def macLoop (activation : Nat) (weight : Byte) : Nat → Nat
  | 0 => 0
  | i + 1 => macLoop activation weight i + (if weight.getLsbD i then activation * 2 ^ i else 0)

/-- `mac(activation, weight_bits, bits, w_zp)` (R131). -/
def mac (activation weight : Byte) (bits : Nat) (wZp : Int) : Int :=
  (macLoop activation.toNat weight bits : Int) - wZp * (activation.toNat : Int)

/-! ### What both convolutions share -/

/-- The exact sum of an output element as the 32-bit accumulator holds it; outside i32 the command is refused
(spec/43_pwconv.md R165). -/
def accumulator (acc : Int) : Except Stop Int := do
  precondition (decide (-2147483648 ≤ acc) && decide (acc ≤ 2147483647)) .accumulatorOverflow
  pure acc

/-- The combined scale `s` (R146, R166). -/
def combinedScale (din : TensorDesc) (c : ConvOperands) : F32 := fmul din.scale c.wScale

/-- `bias_term` of output channel `ch` (R146, R166). -/
def biasTerm (mem : List Host.Cell) (c : ConvOperands) (scale : F32) (ch : Nat) : F32 :=
  if c.hasBias then fmul (i2f (biasOf mem c.bias ch)) scale else 0#32

/-- The real-domain sum of an element with integer term `acc` (R146, R166). Where the combined scale overflows to
infinity and a term's integer is 0, the product is IEEE 754's NaN (R10) and the command is refused by R112, though
R152 says of `acc = 0` without bias that the sum is +0: DEDUCED, notes/assumptions/20.md. -/
def convReal (mem : List Host.Cell) (c : ConvOperands) (din : TensorDesc) (ch : Nat) (acc : Int) : F32 :=
  fadd (biasTerm mem c (combinedScale din c) ch) (fmul (i2f acc) (combinedScale din c))

/-- The byte stored for an element of output channel `ch` with integer term `acc` (R146 to R148, R166). -/
def convByte (mem : List Host.Cell) (c : ConvOperands) (din dout : TensorDesc) (ch : Nat) (acc : Int) :
    Except Stop Byte := do
  let a ← accumulator acc
  outputCode c.relu6 (convReal mem c din ch a) dout.scale dout.zp

/-- The operands of a convolution that passed its checks. -/
structure ConvPlan where
  view : LayerView
  din  : TensorDesc
  dout : TensorDesc
deriving DecidableEq, Repr

/-- The unchecked preconditions of a convolution that reads `wlen` weight bytes (R142, R162; the footprint of
R150, R169). -/
def convPreconditions (s : State) (c : ConvOperands) (p : ConvPlan) (wlen : Nat) : Except Stop Unit := do
  legalParams p.din.scale p.din.zp
  legalParams p.dout.scale p.dout.zp
  legalParams c.wScale (s32 c.wZp)
  noOverlap p.dout.region
    (s.commonReads c.input c.output ++ [⟨s.recordAddr c.layer, 16⟩, p.din.region, ⟨p.view.wbase, wlen⟩] ++
      (if c.hasBias then [⟨c.bias.toNat, 4 * p.dout.channels⟩] else []))

/-- The bytes of an output tensor in memory order, each from its position (y, x, c) (R58). -/
def tensorBytes (d : TensorDesc) (f : Nat → Nat → Nat → Except Stop Byte) : Except Stop (List Byte) :=
  collect (fun k => f (k / (d.width * d.channels)) (k / d.channels % d.width) (k % d.channels))
    (List.range d.size)

/-! ### DWCONV -/

/-- The checks of R141, in its order. -/
def dwChecks (s : State) (c : ConvOperands) : Except Stop ConvPlan := do
  let v ← lookup s c.layer
  let din ← readDesc s c.input
  let dout ← readDesc s c.output
  require (dout.height == din.height && dout.width == din.width && dout.channels == din.channels)
    .invalidDimensions
  require (decide (9 * din.channels ≤ v.wlen)) .invalidDimensions
  require (!c.hasBias || s.inRange c.bias.toNat (4 * din.channels)) .invalidDimensions
  pure { view := v, din := din, dout := dout }

/-- What tap `t = 3(ky+1) + (kx+1)` adds to the sum at (y, x, ch): nothing outside the tensor (R144, R145). -/
def dwTap (mem : List Host.Cell) (c : ConvOperands) (p : ConvPlan) (y x ch t : Nat) : Int :=
  let iy : Int := (y : Int) + (t / 3 : Nat) - 1
  let ix : Int := (x : Int) + (t % 3 : Nat) - 1
  if 0 ≤ iy ∧ iy < p.din.height ∧ 0 ≤ ix ∧ ix < p.din.width then
    mac (sample mem p.din iy.toNat ix.toNat ch) (dwWeight mem p.view ch t) p.view.bits (s32 c.wZp)
  else 0

/-- `acc(y,x,c)` (R145). -/
def dwAcc (mem : List Host.Cell) (c : ConvOperands) (p : ConvPlan) (y x ch : Nat) : Int :=
  ((List.range 9).map (dwTap mem c p y x ch)).sum

/-- The bytes `DWCONV` stores (R149), all from the memory before it (spec/20_memory.md R68). -/
def dwBytes (mem : List Host.Cell) (c : ConvOperands) (p : ConvPlan) : Except Stop (List Byte) :=
  tensorBytes p.dout fun y x ch => convByte mem c p.din p.dout ch (dwAcc mem c p y x ch)

/-- The state after a `DWCONV`, or why it does not complete (R141, R142, R149). -/
def dwResult (s : State) (c : ConvOperands) : Except Stop State := do
  let p ← dwChecks s c
  convPreconditions s c p (9 * p.din.channels)
  let bytes ← dwBytes s.mem c p
  pure (s.store p.dout.data bytes).advance

/-- `DWCONV` (spec/42_dwconv.md). -/
def execDwconv (c : ConvOperands) (s : State) : Host.Outcome State Fault Refusal := s.conclude (dwResult s c)

/-! ### PWCONV -/

/-- The checks of R161, in its order. -/
def pwChecks (s : State) (c : ConvOperands) : Except Stop ConvPlan := do
  let v ← lookup s c.layer
  let din ← readDesc s c.input
  let dout ← readDesc s c.output
  require (dout.height == din.height && dout.width == din.width) .invalidDimensions
  require (decide (dout.channels * din.channels ≤ v.wlen)) .invalidDimensions
  require (!c.hasBias || s.inRange c.bias.toNat (4 * dout.channels)) .invalidDimensions
  pure { view := v, din := din, dout := dout }

/-- What input channel `ci` adds to the sum at (y, x, co) (R164). -/
def pwTerm (mem : List Host.Cell) (c : ConvOperands) (p : ConvPlan) (y x co ci : Nat) : Int :=
  mac (sample mem p.din y x ci) (pwWeight mem p.view p.din.channels co ci) p.view.bits (s32 c.wZp)

/-- `acc(y,x,co)` (R164). -/
def pwAcc (mem : List Host.Cell) (c : ConvOperands) (p : ConvPlan) (y x co : Nat) : Int :=
  ((List.range p.din.channels).map (pwTerm mem c p y x co)).sum

/-- The bytes `PWCONV` stores (R168), all from the memory before it. -/
def pwBytes (mem : List Host.Cell) (c : ConvOperands) (p : ConvPlan) : Except Stop (List Byte) :=
  tensorBytes p.dout fun y x co => convByte mem c p.din p.dout co (pwAcc mem c p y x co)

/-- The state after a `PWCONV`, or why it does not complete (R161, R162, R168). -/
def pwResult (s : State) (c : ConvOperands) : Except Stop State := do
  let p ← pwChecks s c
  convPreconditions s c p (p.dout.channels * p.din.channels)
  let bytes ← pwBytes s.mem c p
  pure (s.store p.dout.data bytes).advance

/-- `PWCONV` (spec/43_pwconv.md). -/
def execPwconv (c : ConvOperands) (s : State) : Host.Outcome State Fault Refusal := s.conclude (pwResult s c)

end Sys2Proof.Machine
end

