-- ==== Sys2Proof/Machine/Pool.lean ====
section
/-! DEFINITION. The global average pool command `GAP` (spec/44_gap.md). -/

namespace Sys2Proof.Machine

/-- The operands of a command on two tensors that passed its checks. -/
structure TensorPlan where
  din  : TensorDesc
  dout : TensorDesc
deriving DecidableEq, Repr

/-- The checks of R176, in its order. -/
def gapChecks (s : State) (t : TensorOperands) : Except Stop TensorPlan := do
  let din ← readDesc s t.input
  let dout ← readDesc s t.output
  require (dout.height == 1 && dout.width == 1 && dout.channels == din.channels) .invalidDimensions
  pure { din := din, dout := dout }

/-- The input data as a range of the read set: none when the average is in place, the one overlap allowed
(R182, spec/20_memory.md R68). -/
def gapDataReads (p : TensorPlan) : List Region :=
  if p.dout.data == p.din.data then [] else [p.din.region]

/-- The unchecked preconditions of R177. -/
def gapPreconditions (s : State) (t : TensorOperands) (p : TensorPlan) : Except Stop Unit := do
  legalParams p.din.scale p.din.zp
  legalParams p.dout.scale p.dout.zp
  noOverlap p.dout.region (s.commonReads t.input t.output ++ gapDataReads p)

/-- The binary32 running sum of channel `c` from +0: position `k` is row `k / W`, column `k mod W`, so rows
ascend and columns ascend inside a row (R178). -/
def gapSum (mem : List Host.Cell) (d : TensorDesc) (c : Nat) : F32 :=
  (List.range (d.height * d.width)).foldl
    (fun sum k => fadd sum (dequantize (sample mem d (k / d.width) (k % d.width) c) d.scale d.zp)) 0#32

/-- The mean of channel `c` (R178). -/
def gapMean (mem : List Host.Cell) (d : TensorDesc) (c : Nat) : F32 :=
  fdiv (gapSum mem d c) (i2f ((d.height * d.width : Nat) : Int))

/-- The bytes `GAP` stores (R178), all from the memory before it (R182). -/
def gapBytes (mem : List Host.Cell) (p : TensorPlan) : Except Stop (List Byte) :=
  collect (fun c => outputCode false (gapMean mem p.din c) p.dout.scale p.dout.zp)
    (List.range p.din.channels)

/-- The state after a `GAP`, or why it does not complete (R176 to R178). -/
def gapResult (s : State) (t : TensorOperands) : Except Stop State := do
  let p ← gapChecks s t
  gapPreconditions s t p
  let bytes ← gapBytes s.mem p
  pure (s.store p.dout.data bytes).advance

/-- `GAP` (spec/44_gap.md). -/
def execGap (t : TensorOperands) (s : State) : Host.Outcome State Fault Refusal := s.conclude (gapResult s t)

end Sys2Proof.Machine
end

