-- ==== Sys2Proof/Machine/Registry.lean ====
section
/-! DEFINITION. The registry load command `LDMETA` (spec/46_registry_ldmeta.md R206 to R208, R210). `Lookup`
stands with the operands. -/

namespace Sys2Proof.Machine

/-- The loop of R207 over `n` records from address `r`: each region fits the blob, and each id is above the
one before it. -/
def checkRecords (mem : List Host.Cell) (blobLen : Nat) : Nat → Nat → Option Int → Except Stop Unit
  | 0, _, _ => .ok ()
  | n + 1, r, prev => do
    require ((readRecord mem r).fits blobLen) .metadataMalformed
    require (prev.all (· < (readRecord mem r).layerId)) .metadataMalformed
    checkRecords mem blobLen n (r + 16) (some (readRecord mem r).layerId)

/-- The checks of R207, in its order. -/
def ldmetaChecks (s : State) (m : MetaOperands) : Except Stop Unit := do
  require (m.metaLen.toNat % 16 == 0) .metadataMalformed
  require (s.inRange m.metaAddr.toNat m.metaLen.toNat) .metadataMalformed
  require (s.inRange m.blobAddr.toNat m.blobLen.toNat) .invalidDimensions
  checkRecords s.mem m.blobLen.toNat (m.metaLen.toNat / 16) m.metaAddr.toNat none

/-- The four registry registers, latched together (R208). -/
def State.latchRegistry (s : State) (m : MetaOperands) : State :=
  { s with metaBase := m.metaAddr, metaCount := BitVec.ofNat 32 (m.metaLen.toNat / 16),
           blobBase := m.blobAddr, blobLen := m.blobLen }

/-- The state after an `LDMETA`, or why it does not complete (R207, R208). -/
def ldmetaResult (s : State) (m : MetaOperands) : Except Stop State := do
  ldmetaChecks s m
  pure (s.latchRegistry m).advance

/-- `LDMETA` (spec/46_registry_ldmeta.md). -/
def execLdmeta (m : MetaOperands) (s : State) : Host.Outcome State Fault Refusal :=
  s.conclude (ldmetaResult s m)

end Sys2Proof.Machine
end

