-- ==== Sys2Proof/Machine/Sequencing.lean ====
section
/-! DEFINITION. The `END` command and the fetch of a command (spec/47_sequencing_host.md R225, R226). -/

namespace Sys2Proof.Machine

/-- `END` (R226): the pass is over, `CMD_PTR` stays at the `END`. -/
def execEndPass (s : State) : Host.Outcome State Fault Refusal := .next { s with status := endStatus s.status }

/-- The command in memory at `CMD_PTR`, as memory is now (R225, spec/20_memory.md R67): `none` when it does not
lie in memory or does not decode. -/
def State.fetched (s : State) : Option Instr :=
  if s.inRange s.cmdPtr.toNat 32 then
    match decodeBytes (readBytes s.mem s.cmdPtr.toNat 32) with
    | .ok i => some i
    | .error _ => none
  else none

/-- One engine step (R225), given what executing a command does: `IllegalCommand` when nothing can be fetched
(spec/60_exceptions.md R256). -/
def engineStep (run : Instr → State → Host.Outcome State Fault Refusal) (s : State) :
    Host.Outcome State Fault Refusal :=
  match s.fetched with
  | none => .next (raise .illegalCommand s)
  | some i => run i s

/-- The engine's turn: one engine step while BUSY (R225), nothing while idle (spec/60_exceptions.md R270;
notes/assumptions/8.md). -/
def engineTurn (run : Instr → State → Host.Outcome State Fault Refusal) (s : State) :
    Host.Outcome State Fault Refusal :=
  if s.busy then engineStep run s else .next s

end Sys2Proof.Machine
end

