-- ==== Sys2Proof/Machine/Exponential.lean ====
section
/-! DEFINITION. The engine's exponential, an OPEN parameter (spec/00_scope.md R16): a free function that has
exactly the four properties the rules assume of it (notes/assumptions/3.md). -/

namespace Sys2Proof.Machine

/-- 1.0 -/
def f32One : F32 := 0x3F800000#32

/-- The magnitude bits of 1.0. -/
def oneMag : Nat := 0x3F800000

/-- A non-increasing function on the numbers `lo` to `hi` with value `top` at `lo` and `bottom` at `hi`: the
value proposed for the midpoint is brought between `bottom` and `top`, and the half that holds `m` is filled
the same way. It is `proposed` itself where `proposed` is non-increasing and within the bounds. -/
def monotoneFill (proposed : Nat → Nat) : Nat → Nat → Nat → Nat → Nat → Nat → Nat
  | 0, lo, _, top, bottom, m => if m ≤ lo then top else bottom
  | fuel + 1, lo, hi, top, bottom, m =>
    if m ≤ lo then top
    else if hi ≤ m then bottom
    else if m ≤ (lo + hi) / 2 then
      monotoneFill proposed fuel lo ((lo + hi) / 2) top (max bottom (min top (proposed ((lo + hi) / 2)))) m
    else
      monotoneFill proposed fuel ((lo + hi) / 2) hi (max bottom (min top (proposed ((lo + hi) / 2)))) bottom m

/-- The exponential an implementation has when it proposes `proposed` for the negative arguments and
`outside` for those R16 says nothing of: 1.0 at both zeros, +0 at -infinity, between them non-increasing in
the magnitude of the argument (R16 a to d). -/
def exp32Of (proposed : Nat → Nat) (outside : F32 → F32) (x : F32) : F32 :=
  if f32Mag x == 0 then f32One
  else if f32Neg x && decide (f32Mag x ≤ infMag) then
    f32Pack false (monotoneFill proposed 32 0 infMag oneMag 0 (f32Mag x))
  else outside x

/-- `exp32(x)` (R16), with the free values of Config. -/
def exp32 (x : F32) : F32 := exp32Of Config.expBits Config.expOutside x

end Sys2Proof.Machine
end

