-- ==== Sys2Proof/Machine/Softmax.lean ====
section
/-! DEFINITION. The softmax command `SOFTMAX` (spec/45_softmax.md). -/

namespace Sys2Proof.Machine

/-- The checks of R191, in its order. -/
def softmaxChecks (s : State) (t : TensorOperands) : Except Stop TensorPlan := do
  let din ← readDesc s t.input
  let dout ← readDesc s t.output
  require (din.height == 1 && din.width == 1) .invalidDimensions
  require (dout.height == 1 && dout.width == 1 && dout.channels == din.channels) .invalidDimensions
  require (decide (din.channels ≤ Config.softmaxCMax)) .channelLimitExceeded
  pure { din := din, dout := dout }

/-- The unchecked preconditions of R192. -/
def softmaxPreconditions (s : State) (t : TensorOperands) (p : TensorPlan) : Except Stop Unit := do
  legalParams p.din.scale p.din.zp
  legalParams p.dout.scale p.dout.zp
  noOverlap p.dout.region (s.commonReads t.input t.output ++ [p.din.region])

/-- Step 1: the dequantized inputs (R193). -/
def softmaxInputs (mem : List Host.Cell) (d : TensorDesc) : List F32 :=
  (List.range d.channels).map fun i => dequantize (sample mem d 0 0 i) d.scale d.zp

/-- Step 2: the maximum, the first of equal values (R194, R197). -/
def softmaxMax (xs : List F32) : F32 := xs.tail.foldl (fun m x => if fgt x m then x else m) (xs.headD 0#32)

/-- Step 3: the exponentials of the differences to the maximum `m` (R195). -/
def softmaxExps (exp : F32 → F32) (m : F32) (xs : List F32) : List F32 := xs.map fun x => exp (fsub x m)

/-- Step 4: their binary32 running sum from +0 in ascending order (R196). -/
def softmaxSum (es : List F32) : F32 := es.foldl fadd 0#32

/-- Steps 4 and 5: each exponential divided by the sum `total`, requantized (R196, R197). -/
def softmaxDivide (es : List F32) (total scale : F32) (zp : Int) : Except Stop (List Byte) :=
  collect (fun e => outputCode false (fdiv e total) scale zp) es

/-- Steps 4 and 5 on the exponentials. -/
def softmaxNormalise (es : List F32) (scale : F32) (zp : Int) : Except Stop (List Byte) :=
  softmaxDivide es (softmaxSum es) scale zp

/-- Steps 2 to 5 on the dequantized inputs, with the exponential given: the bytes stored (R197). -/
def softmaxCodes (exp : F32 → F32) (xs : List F32) (scale : F32) (zp : Int) : Except Stop (List Byte) :=
  softmaxNormalise (softmaxExps exp (softmaxMax xs) xs) scale zp

/-- The bytes `SOFTMAX` stores (R197), all from the memory before it. -/
def softmaxBytes (mem : List Host.Cell) (p : TensorPlan) : Except Stop (List Byte) :=
  softmaxCodes exp32 (softmaxInputs mem p.din) p.dout.scale p.dout.zp

/-- The state after a `SOFTMAX`, or why it does not complete (R191, R192, R197). -/
def softmaxResult (s : State) (t : TensorOperands) : Except Stop State := do
  let p ← softmaxChecks s t
  softmaxPreconditions s t p
  let bytes ← softmaxBytes s.mem p
  pure (s.store p.dout.data bytes).advance

/-- `SOFTMAX` (spec/45_softmax.md). -/
def execSoftmax (t : TensorOperands) (s : State) : Host.Outcome State Fault Refusal :=
  s.conclude (softmaxResult s t)

end Sys2Proof.Machine
end

