-- ==== Sys2Proof/Machine/Dispatch.lean ====
section
/-! DEFINITION. The meaning of every command, one arm per constructor of `Instr`
(spec/47_sequencing_host.md R225). -/

namespace Sys2Proof.Machine

def exec (i : Instr) (s : State) : Host.Outcome State Fault Refusal :=
  match i with
  | .endPass => Sys2Proof.Machine.execEndPass s
  | .ldmeta m => Sys2Proof.Machine.execLdmeta m s
  | .dwconv c => Sys2Proof.Machine.execDwconv c s
  | .pwconv c => Sys2Proof.Machine.execPwconv c s
  | .gap t => Sys2Proof.Machine.execGap t s
  | .softmax t => Sys2Proof.Machine.execSoftmax t s

end Sys2Proof.Machine
end

