-- ==== Sys2Proof/Machine/HostPort.lean ====
section
/-! DEFINITION. The host's side: the register window, memory access, resets
(spec/10_state.md R24 to R29; spec/20_memory.md R64; spec/47_sequencing_host.md R227, R234;
spec/70_reset_and_hazards.md R280, R281). -/

namespace Sys2Proof.Machine

/-- A read of the register window: the current value; `CTRL` and offsets not listed read as 0 (R24, R29). -/
def State.readRegister (s : State) (offset : Word) : Word :=
  match offset.toNat with
  | 0x04 => s.status
  | 0x08 => s.cmdPtr
  | 0x0C => s.errCode
  | 0x10 => s.errPc
  | 0x14 => s.metaBase
  | 0x18 => s.metaCount
  | 0x1C => s.blobBase
  | 0x20 => s.blobLen
  | _ => 0

/-- A write to `CTRL` (R25): `SRESET`, bit 1, before `START`, bit 0; ignored while BUSY. -/
def State.writeCtrl (s : State) (value : Word) : State :=
  if s.busy then s
  else if value.getLsbD 1 then s.softReset
  else if value.getLsbD 0 then s.start
  else s

/-- A write to the register window: `CTRL`; `CMD_PTR` unless BUSY; every other register is read-only and
offsets not listed ignore writes (R24, R29). -/
def State.writeRegister (s : State) (offset value : Word) : State :=
  match offset.toNat with
  | 0x00 => s.writeCtrl value
  | 0x08 => if s.busy then s else { s with cmdPtr := value }
  | _ => s

/-- What stops a host access to the byte at `addr` of `M`, if anything does (R64, R234). -/
def State.hostMemoryStop (s : State) (addr : Word) : Option Refusal :=
  if s.busy then some .hostMemoryAccessWhileBusy
  else if s.inRange addr.toNat 1 then none
  else some .hostAccessOutsideMemory

/-- Hardware reset (R280): every register 0, `M` left with the contents the move carries; at any time, so while
BUSY too. R262 of spec/60_exceptions.md says "the resets are honoured only when BUSY = 0"; it is read as the soft
reset's condition, as D18 has it: DEDUCED, notes/assumptions/14.md. -/
def State.hardwareReset (s : State) (contents : List Host.Cell) : State :=
  { s.softReset with mem := memoryOf s.memBytes contents }

/-- A move of the host or the platform, given what the engine's turn does. Register accesses are 32 bits wide
(R29). -/
def hostMove (turn : State → Host.Outcome State Fault Refusal) (m : HostMove) (s : State) :
    Host.Outcome State Fault Refusal :=
  match m with
  | .wait => turn s
  | .writeReg width offset value =>
    if width == 4 then .next (s.writeRegister offset value) else .refused .hostRegisterAccessWidth
  | .readReg width offset =>
    if width == 4 then .next { s with hostRead := s.readRegister offset } else .refused .hostRegisterAccessWidth
  | .writeByte addr value =>
    match s.hostMemoryStop addr with
    | some r => .refused r
    | none => .next { s with mem := writeByte s.mem addr.toNat value }
  | .readByte addr =>
    match s.hostMemoryStop addr with
    | some r => .refused r
    | none => .next { s with hostRead := (readByte s.mem addr.toNat).setWidth 32 }
  | .hardwareReset contents => .next (s.hardwareReset contents)

end Sys2Proof.Machine
end

