-- ==== Sys2Proof/Machine/Step.lean ====
section
/-! DEFINITION. One step of the machine: the host's next move if it has one (a `wait` is the engine's turn), else
the engine's turn: one command while BUSY, nothing while idle (spec/20_memory.md R64,
spec/47_sequencing_host.md R225, spec/60_exceptions.md R270; notes/assumptions/7.md, 8.md). -/

namespace Sys2Proof.Machine

/-- One step: at most one host move, at most one command. Where the moves stand among the commands is what the list
of moves says, by its `wait`s: DESIGN CHOICE, notes/assumptions/7.md. -/
def step (s : State) : Host.Outcome State Fault Refusal :=
  match s.hostMoves with
  | m :: rest => hostMove (engineTurn exec) m { s with hostMoves := rest }
  | [] => engineTurn exec s

/-- `s` with the instruction of a row's bits placed so that the very next step runs it
(notes/assumptions/9.md). -/
def State.withFetchWord (s : State) (nbits w : Nat) : State := s.placeCommand (tableBytes nbits w)

end Sys2Proof.Machine
end

