-- ==== Sys2Proof/Machine/Ranking.lean ====
section
/-! DEFINITION. What the host makes of a finished pass: the probability vector and its ranking, a host
procedure and no function of the engine (spec/47_sequencing_host.md R232, R233). -/

namespace Sys2Proof.Machine

/-- The dequantized probability vector of the softmax output tensor `d` (R232). -/
def probabilities (s : State) (d : TensorDesc) : List F32 :=
  (List.range d.channels).map fun i => dequantize (sample s.mem d 0 0 i) d.scale d.zp

/-- A pair put into a ranking after every pair that is not smaller. -/
def rankInsert (p : F32 × Nat) : List (F32 × Nat) → List (F32 × Nat)
  | [] => [p]
  | q :: rest => if fgt p.1 q.1 then p :: q :: rest else q :: rankInsert p rest

/-- The pairs of probability and class index by descending probability, equal ones by ascending index
(R233). -/
def ranking (probs : List F32) : List (F32 × Nat) :=
  probs.zipIdx.foldl (fun acc p => rankInsert p acc) []

end Sys2Proof.Machine
end

