-- ==== Sys2Proof/Safety.lean ====
section
/-! DEFINITION. The invariant of the machine and what a safe step is, in the terms the statements use. -/

namespace Sys2Proof.Machine

/-- `MEM_BYTES` is a size the spec allows (spec/00_scope.md R6). -/
abbrev State.sizeLegal (s : State) : Prop :=
  Config.memBytesMin ≤ s.memBytes ∧ s.memBytes ≤ Config.memBytesMax

/-- `STATUS` holds one of the four combinations that occur (spec/10_state.md R26). -/
abbrev State.statusLegal (s : State) : Prop :=
  s.status = 0 ∨ s.status = busyBit ∨ s.status = doneBit ∨ s.status = errBit

/-- `ERR_CODE` is one of the codes 1 to 5 in the ERROR state; it and `ERR_PC` are 0 in every other
(spec/10_state.md R27, spec/60_exceptions.md R250). -/
abbrev State.errorLegal (s : State) : Prop :=
  if s.status = errBit then 1 ≤ s.errCode.toNat ∧ s.errCode.toNat ≤ 5 else s.errCode = 0 ∧ s.errPc = 0

/-- The registry's table and blob lie in memory (spec/46_registry_ldmeta.md R209). -/
abbrev State.registryInMemory (s : State) : Prop :=
  s.metaBase.toNat + 16 * s.metaCount.toNat ≤ s.memBytes ∧ s.blobBase.toNat + s.blobLen.toNat ≤ s.memBytes

/-- The invariant every step keeps. -/
abbrev State.Inv (s : State) : Prop :=
  s.sizeLegal ∧ Memory.wf s.memBytes s.mem = true ∧ s.statusLegal ∧ s.errorLegal ∧ s.registryInMemory

/-- An outcome that is no fault of the model. -/
def noFault (o : Host.Outcome State Fault Refusal) : Prop := ∀ f, o ≠ .fault f

/-- The model's own fields (not the spec's state) are the same. -/
abbrev State.sameOwn (s t : State) : Prop :=
  t.memBytes = s.memBytes ∧ t.hostMoves = s.hostMoves ∧ t.hostRead = s.hostRead

/-- `META_BASE`, `META_COUNT`, `BLOB_BASE` and `BLOB_LEN` are the same. -/
abbrev State.sameRegistry (s t : State) : Prop :=
  t.metaBase = s.metaBase ∧ t.metaCount = s.metaCount ∧ t.blobBase = s.blobBase ∧ t.blobLen = s.blobLen

/-- `STATUS`, `ERR_CODE` and `ERR_PC` are the same. -/
abbrev State.sameFlags (s t : State) : Prop :=
  t.status = s.status ∧ t.errCode = s.errCode ∧ t.errPc = s.errPc

/-- Every byte outside `[base, base + len)` reads as before. -/
abbrev State.sameBytesOutside (s t : State) (base len : Nat) : Prop :=
  ∀ a, a < base ∨ base + len ≤ a → readByte t.mem a = readByte s.mem a

/-- The registers of R24 all hold 0. -/
abbrev State.registersZero (s : State) : Prop :=
  s.status = 0 ∧ s.cmdPtr = 0 ∧ s.errCode = 0 ∧ s.errPc = 0 ∧ s.metaBase = 0 ∧ s.metaCount = 0 ∧
    s.blobBase = 0 ∧ s.blobLen = 0

end Sys2Proof.Machine
end

