-- ==== Sys2Proof/Certificates/Slice0/Obligations.lean ====
section
/-! DEFINITION. The statements about the model, from the numbered rules of spec/. The reference formulas they
use are written here from the spec's text, apart from the definitions of the machine. -/

open Sys2Proof Sys2Proof.Machine

/-! ### Reference formulas -/

/-- The exponent field, bits 30:23 (R10). -/
def Sys2Proof.Ref.expField (x : F32) : Nat := x.toNat / 2 ^ 23 % 256

/-- The fraction field, bits 22:0 (R10). -/
def Sys2Proof.Ref.fracField (x : F32) : Nat := x.toNat % 2 ^ 23

/-- Neither infinite nor a NaN. -/
def Sys2Proof.Ref.finite (x : F32) : Prop := Ref.expField x ≠ 255

/-- A NaN. -/
def Sys2Proof.Ref.nan (x : F32) : Prop := Ref.expField x = 255 ∧ Ref.fracField x ≠ 0

/-- The real number a finite binary32 is: bias 127, 23 fraction bits, subnormals (R10). -/
def Sys2Proof.Ref.value (x : F32) : ℚ :=
  (if x.msb then -1 else 1) *
    (if Ref.expField x = 0 then (Ref.fracField x : ℚ) * 2 ^ (-149 : ℤ)
     else (2 ^ 23 + Ref.fracField x : ℚ) * 2 ^ ((Ref.expField x : ℤ) - 150))

/-- `r` is the exact result `v` rounded once to nearest, ties to even (R10): a finite value none is nearer than,
the even one of two nearest; from half a last place above the greatest finite value on, infinity; and the sign is
that of `v`. -/
def Sys2Proof.Ref.roundsTo (v : ℚ) (r : F32) : Prop :=
  (|v| < 2 ^ 128 - 2 ^ 103 →
    Ref.finite r ∧ ∀ y : F32, Ref.finite y → |v - Ref.value r| ≤ |v - Ref.value y| ∧
      (|v - Ref.value r| = |v - Ref.value y| → Ref.value y = Ref.value r ∨ r.toNat % 2 = 0)) ∧
  (2 ^ 128 - 2 ^ 103 ≤ |v| → r.toNat % 2 ^ 31 = 0x7F800000) ∧
  (v ≠ 0 → r.msb = decide (v < 0))

/-- Finite and above 0, below the value whose bit pattern is `bound` (R69). -/
def Sys2Proof.Ref.scaleBelow (bound : Nat) (x : F32) : Prop := 0 < x.toNat ∧ x.toNat < bound

/-- Finite and above 0 (R69). -/
def Sys2Proof.Ref.legalScale (x : F32) : Prop := Ref.scaleBelow 0x7F800000 x

/-- In 0 to 255 (R69). -/
def Sys2Proof.Ref.legalZp (z : ℤ) : Prop := 0 ≤ z ∧ z ≤ 255

/-- The byte ranges `[a, a+n)` and `[b, b+m)` share no byte (R68). -/
def Sys2Proof.Ref.apart (a n b m : Nat) : Prop := a + n ≤ b ∨ b + m ≤ a

/-- The code at `addr` times the masked weight at `waddr` less the zero-point: the closed form of `mac` (R132). -/
def Sys2Proof.Ref.product (s : State) (addr waddr bits : Nat) (wZp : ℤ) : ℤ :=
  ((readByte s.mem addr).toNat : ℤ) * (((readByte s.mem waddr).toNat % 2 ^ bits : ℕ) - wZp)

/-- `acc(y,x,c)` of R145: the sum over the nine taps that fall inside the tensor, tap (ky,kx) reading
`in[y+ky, x+kx, c]` and the weight at `wbase + 9c + 3(ky+1) + (kx+1)`. -/
def Sys2Proof.Ref.dwAcc (s : State) (c : ConvOperands) (v : LayerView) (din : TensorDesc) (y x ch : Nat) : ℤ :=
  (([-1, 0, 1] : List ℤ).map fun ky => (([-1, 0, 1] : List ℤ).map fun kx =>
    if 0 ≤ (y : ℤ) + ky ∧ (y : ℤ) + ky < din.height ∧ 0 ≤ (x : ℤ) + kx ∧ (x : ℤ) + kx < din.width then
      Ref.product s (din.data + (((y : ℤ) + ky) * din.width + ((x : ℤ) + kx)).toNat * din.channels + ch)
        (v.wbase + 9 * ch + (3 * (ky + 1) + (kx + 1)).toNat) v.bits (s32 c.wZp)
    else 0).sum).sum

/-- `acc(y,x,co)` of R164. -/
def Sys2Proof.Ref.pwAcc (s : State) (c : ConvOperands) (v : LayerView) (din : TensorDesc) (y x co : Nat) : ℤ :=
  ((List.range din.channels).map fun ci =>
    Ref.product s (din.data + (y * din.width + x) * din.channels + ci) (v.wbase + co * din.channels + ci)
      v.bits (s32 c.wZp)).sum

/-- The real-domain sum of R146 and R166, from the bias word and the integer term. -/
def Sys2Proof.Ref.convReal (s : State) (c : ConvOperands) (din : TensorDesc) (ch : Nat) (acc : ℤ) : F32 :=
  fadd (if c.hasBias then fmul (i2f (s32 (readWord s.mem (c.bias.toNat + 4 * ch)))) (fmul din.scale c.wScale)
        else 0#32) (fmul (i2f acc) (fmul din.scale c.wScale))

/-- The code after the optional ReLU6 clamp to `[zp, zp + rnd(6.0 / scale)]` (R148). -/
def Sys2Proof.Ref.clamped (relu6 : Bool) (q : ℤ) (scale : F32) (zp : ℤ) : ℤ :=
  if relu6 then
    max zp (if f32IsInf (fdiv 0x40C00000#32 scale) then q else min q (zp + rnd (fdiv 0x40C00000#32 scale)))
  else q

/-- The read set of a convolution that reads `wlen` weight bytes and `chans` bias words is apart from its output
data (R68, R150, R169). -/
def Sys2Proof.Ref.convApart (s : State) (c : ConvOperands) (v : LayerView) (din dout : TensorDesc)
    (wlen chans : Nat) : Prop :=
  Ref.apart dout.data dout.size s.cmdPtr.toNat 32 ∧
  Ref.apart dout.data dout.size c.input.toNat 24 ∧ Ref.apart dout.data dout.size c.output.toNat 24 ∧
  Ref.apart dout.data dout.size (s.metaBase.toNat + 16 * c.layer.toNat) 16 ∧
  Ref.apart dout.data dout.size din.data din.size ∧ Ref.apart dout.data dout.size v.wbase wlen ∧
  (c.hasBias = true → Ref.apart dout.data dout.size c.bias.toNat (4 * chans))

/-- The scales and zero-points a convolution reads are legal (R69, R142, R162). -/
def Sys2Proof.Ref.convLegal (c : ConvOperands) (din dout : TensorDesc) : Prop :=
  Ref.legalScale din.scale ∧ Ref.legalScale dout.scale ∧ Ref.legalScale c.wScale ∧
  Ref.legalZp din.zp ∧ Ref.legalZp dout.zp ∧ Ref.legalZp (s32 c.wZp)

/-- The scales and zero-points of two tensors are legal (R69, R177, R192). -/
def Sys2Proof.Ref.tensorsLegal (din dout : TensorDesc) : Prop :=
  Ref.legalScale din.scale ∧ Ref.legalScale dout.scale ∧ Ref.legalZp din.zp ∧ Ref.legalZp dout.zp

/-- The checks of R141, each with its own condition. -/
def Sys2Proof.Ref.dwPasses (s : State) (c : ConvOperands) (v : LayerView) (din dout : TensorDesc) : Prop :=
  lookup s c.layer = .ok v ∧ readDesc s c.input = .ok din ∧ readDesc s c.output = .ok dout ∧
  dout.height = din.height ∧ dout.width = din.width ∧ dout.channels = din.channels ∧
  9 * din.channels ≤ v.wlen ∧ (c.hasBias = true → c.bias.toNat + 4 * din.channels ≤ s.memBytes)

/-- The checks of R161, each with its own condition. -/
def Sys2Proof.Ref.pwPasses (s : State) (c : ConvOperands) (v : LayerView) (din dout : TensorDesc) : Prop :=
  lookup s c.layer = .ok v ∧ readDesc s c.input = .ok din ∧ readDesc s c.output = .ok dout ∧
  dout.height = din.height ∧ dout.width = din.width ∧
  dout.channels * din.channels ≤ v.wlen ∧ (c.hasBias = true → c.bias.toNat + 4 * dout.channels ≤ s.memBytes)

/-- The checks of R176. -/
def Sys2Proof.Ref.gapPasses (s : State) (o : TensorOperands) (din dout : TensorDesc) : Prop :=
  readDesc s o.input = .ok din ∧ readDesc s o.output = .ok dout ∧
  dout.height = 1 ∧ dout.width = 1 ∧ dout.channels = din.channels

/-- The checks of R191. -/
def Sys2Proof.Ref.softmaxPasses (s : State) (o : TensorOperands) (din dout : TensorDesc) : Prop :=
  readDesc s o.input = .ok din ∧ readDesc s o.output = .ok dout ∧ din.height = 1 ∧ din.width = 1 ∧
  dout.height = 1 ∧ dout.width = 1 ∧ dout.channels = din.channels ∧ din.channels ≤ 2048

/-- The output data is apart from the command and the two descriptors (R68). -/
def Sys2Proof.Ref.commonApart (s : State) (o : TensorOperands) (dout : TensorDesc) : Prop :=
  Ref.apart dout.data dout.size s.cmdPtr.toNat 32 ∧ Ref.apart dout.data dout.size o.input.toNat 24 ∧
  Ref.apart dout.data dout.size o.output.toNat 24

/-- The binary32 running sum of R178: rows in ascending y, inside a row ascending x, from +0. -/
def Sys2Proof.Ref.gapSum (s : State) (din : TensorDesc) (c : Nat) : F32 :=
  (List.range din.height).foldl (fun acc y => (List.range din.width).foldl (fun acc x =>
    fadd acc (dequantize (readByte s.mem (din.data + (y * din.width + x) * din.channels + c)) din.scale din.zp))
    acc) 0#32

/-- The mean of R178. -/
def Sys2Proof.Ref.gapMean (s : State) (din : TensorDesc) (c : Nat) : F32 :=
  fdiv (Ref.gapSum s din c) (i2f (((din.height * din.width : ℕ)) : ℤ))

/-- The dequantized inputs of R193. -/
def Sys2Proof.Ref.softmaxInput (s : State) (din : TensorDesc) (i : Nat) : F32 :=
  dequantize (readByte s.mem (din.data + i)) din.scale din.zp

/-- The loop of R178 as it is written, channel by channel, each channel's reads on the memory the channels before
it left; `none` when a mean is a NaN. -/
def Sys2Proof.Ref.gapLoop (s : State) (din dout : TensorDesc) : Nat → Option (List Host.Cell)
  | 0 => some s.mem
  | c + 1 =>
    match Ref.gapLoop s din dout c with
    | none => none
    | some mem =>
      match requantize (Ref.gapMean { s with mem := mem } din c) dout.scale dout.zp with
      | .error _ => none
      | .ok q => some (writeByte mem (dout.data + c) (BitVec.ofInt 8 q))

/-- The bytes an error of command `i` may depend on: descriptors, the record, the table (R251). -/
def Sys2Proof.Ref.checkedByte (s : State) (i : Instr) (a : Nat) : Prop :=
  match i with
  | .endPass => False
  | .ldmeta m => m.metaAddr.toNat ≤ a ∧ a < m.metaAddr.toNat + m.metaLen.toNat
  | .dwconv c | .pwconv c =>
    (s.metaBase.toNat + 16 * c.layer.toNat ≤ a ∧ a < s.metaBase.toNat + 16 * c.layer.toNat + 16) ∨
    (c.input.toNat ≤ a ∧ a < c.input.toNat + 24) ∨ (c.output.toNat ≤ a ∧ a < c.output.toNat + 24)
  | .gap o | .softmax o =>
    (o.input.toNat ≤ a ∧ a < o.input.toNat + 24) ∨ (o.output.toNat ≤ a ∧ a < o.output.toNat + 24)

/-- The address range a command may store to: the output data its descriptor names (R68); empty for `END` and
`LDMETA`. -/
def Sys2Proof.Ref.storeRange (s : State) (i : Instr) : Nat × Nat :=
  match i with
  | .endPass => (0, 0)
  | .ldmeta _ => (0, 0)
  | .dwconv c | .pwconv c => ((descFields s.mem c.output.toNat).data, (descFields s.mem c.output.toNat).size)
  | .gap o | .softmax o => ((descFields s.mem o.output.toNat).data, (descFields s.mem o.output.toNat).size)

/-! ### The step and the pass -/

/-- A step runs the decoded command: while BUSY, with no host move pending or with a `wait`, the bytes at `CMD_PTR`
are decoded and `exec` runs on the state as it is; the step adds nothing around it but that it takes the `wait` away
(R225). The list of moves is the model's own (notes/assumptions/7.md). -/
def Obligations.StepRunsFetchedCommand : Prop :=
  ∀ (s : State) (i : Instr), s.busy = true → s.cmdPtr.toNat + 32 ≤ s.memBytes →
    decodeBytes (readBytes s.mem s.cmdPtr.toNat 32) = .ok i →
    (s.hostMoves = [] → step s = exec i s) ∧
    (∀ rest, s.hostMoves = .wait :: rest → step s = exec i { s with hostMoves := rest })

/-- A command that does not lie in memory or does not decode raises `IllegalCommand` (R256); with a `wait` at the head
of the host moves, the model's own list (notes/assumptions/7.md), as with none. -/
def Obligations.FetchRaisesIllegalCommand : Prop :=
  ∀ s : State, s.busy = true →
    (s.memBytes < s.cmdPtr.toNat + 32 ∨ ∃ e, decodeBytes (readBytes s.mem s.cmdPtr.toNat 32) = .error e) →
    (s.hostMoves = [] → step s = .next (raise .illegalCommand s)) ∧
    (∀ rest, s.hostMoves = .wait :: rest → step s = .next (raise .illegalCommand { s with hostMoves := rest }))

/-- With BUSY = 0 and no host move, or a `wait`, the machine keeps all registers and memory (R270). That an idle step
stands still is the model's choice (notes/assumptions/8.md). -/
def Obligations.IdleKeepsEverything : Prop :=
  ∀ s : State, s.busy = false → (s.hostMoves = [] → step s = .next s) ∧
    (∀ rest, s.hostMoves = .wait :: rest → step s = .next { s with hostMoves := rest })

/-- A step takes the head of the list of host moves and no more, so the list places each move before or behind a
command as it stands before or behind a `wait` (the model's choice, notes/assumptions/7.md); and while BUSY no move but
`wait` and a hardware reset changes a register or memory (R25, R29, R64, R234). -/
def Obligations.StepTakesOneHostMove : Prop :=
  ∀ s t : State, step s = .next t → t.hostMoves = s.hostMoves.tail ∧
    (∀ m rest, s.hostMoves = m :: rest → s.busy = true → m ≠ .wait → (∀ mem, m ≠ .hardwareReset mem) →
      t.cmdPtr = s.cmdPtr ∧ t.mem = s.mem ∧ t.memBytes = s.memBytes ∧ s.sameFlags t ∧ s.sameRegistry t)

/-- The invariant holds at reset. The memory size and the memory contents there are the model's choice
(notes/assumptions/1.md, 2.md). -/
def Obligations.ResetMeetsInvariant : Prop := State.reset.Inv

/-- Every register holds 0 at reset, and the soft reset gives the registers the same values and leaves `M`
(R34). -/
def Obligations.ResetsZeroEveryRegister : Prop :=
  State.reset.registersZero ∧
  ∀ s : State, s.softReset.registersZero ∧ s.softReset.mem = s.mem ∧ s.sameOwn s.softReset

/-- Every step keeps the invariant: `STATUS` one of four combinations, the error registers 0 but in the ERROR
state, the registry's table and blob in memory, memory canonical (R26, R27, R209). The canonical form is the model's
own (notes/assumptions/2.md). -/
def Obligations.StepKeepsInvariant : Prop :=
  ∀ s t : State, s.Inv → step s = .next t → t.Inv

/-- From the invariant no step is the model's fault: `Lookup`'s record and weight region lie in memory (R209). The
fault is the model's own (notes/assumptions/10.md). -/
def Obligations.StepNeverFaults : Prop := ∀ s : State, s.Inv → noFault (step s)

/-- Every pass ends: from the invariant, BUSY and with no host move but `wait`s, at most MEM_BYTES / 32 commands and one
failing fetch run before BUSY is clear, or a case the spec refuses is met (R229). The one failing fetch is not in
the rule's count (notes/assumptions/15.md). -/
def Obligations.EveryPassEnds : Prop :=
  ∀ s : State, s.Inv → s.busy = true → (∀ m ∈ s.hostMoves, m = .wait) →
    ∃ k ≤ s.memBytes / 32 + 1, (∃ t : State, Sys2Proof.core.run k s = .next t ∧ t.busy = false) ∨
      (∃ r, Sys2Proof.core.run k s = .refused r)

/-- What a command does to the registers outside the registry: `END` clears BUSY and sets DONE and keeps
`CMD_PTR`; an error is error entry and nothing else; any other completion adds 32 to `CMD_PTR` and keeps `STATUS`,
`ERR_CODE` and `ERR_PC` (R22, R251). -/
def Obligations.ExecEndsRaisesOrAdvances : Prop :=
  ∀ (i : Instr) (s t : State), exec i s = .next t →
    (i = .endPass ∧ t = { s with status := (s.status &&& ~~~1#32) ||| 2#32 }) ∨
    (i ≠ .endPass ∧ ∃ e, e ≠ .illegalCommand ∧ t = raise e s) ∨
    (i ≠ .endPass ∧ t.cmdPtr = s.cmdPtr + 32#32 ∧ s.sameFlags t)

/-- Only `LDMETA` writes the registry, and it writes all four registers or none (R28, R210). -/
def Obligations.OnlyLdmetaWritesRegistry : Prop :=
  ∀ (i : Instr) (s t : State), exec i s = .next t →
    s.sameRegistry t ∨
    ∃ m, i = .ldmeta m ∧ t.metaBase = m.metaAddr ∧ t.metaCount.toNat = m.metaLen.toNat / 16 ∧
      t.blobBase = m.blobAddr ∧ t.blobLen = m.blobLen

/-- A command changes no byte of memory but those of its output data: none for `END` and `LDMETA`, the data its
output descriptor names for the four tensor commands; and a command that raises an error changes none
(R32, R68, R251). The model's own fields are unchanged. -/
def Obligations.CommandsWriteOnlyOutputData : Prop :=
  ∀ (i : Instr) (s t : State), Memory.wf s.memBytes s.mem = true → exec i s = .next t →
    s.sameOwn t ∧ s.sameBytesOutside t (Ref.storeRange s i).1 (Ref.storeRange s i).2 ∧
    (t.cmdPtr = s.cmdPtr → t.mem = s.mem)

/-- Errors do not depend on the data of tensors, weights or biases: two states with the same registers that agree
on the descriptors, the record and the table raise the same errors (R251). -/
def Obligations.ErrorsIgnoreTensorData : Prop :=
  ∀ (i : Instr) (s u : State) (e : EngineError), s.sameOwn u → s.sameRegistry u → s.sameFlags u →
    u.cmdPtr = s.cmdPtr → (∀ a, Ref.checkedByte s i a → readByte u.mem a = readByte s.mem a) →
    exec i s = .next (raise e s) → exec i u = .next (raise e u)

/-! ### The encoding -/

/-- Words written out from the spec's encodings decode to the commands they stand for (R84, R89). -/
def Obligations.SpecWordsDecode : Prop :=
  decodeBytes ([0x02, 0x03, 0, 0, 0, 0x01, 0, 0, 0x18, 0x01, 0, 0, 0, 0, 0, 0, 0, 0, 0, 0x3F, 0x08, 0, 0, 0,
      0, 0x02, 0, 0, 0, 0, 0, 0] : List Byte) =
    .ok (.dwconv ⟨true, true, 0x100#32, 0x118#32, 0#32, 0x3F000000#32, 8#32, 0x200#32⟩) ∧
  decodeTableWord 32 0x00000000 = some .endPass ∧
  decodeTableWord 32 0x00000001 = some (.ldmeta ⟨0, 0, 0, 0⟩) ∧
  decodeTableWord 32 0x00000203 = some (.pwconv ⟨false, true, 0, 0, 0, 0, 0, 0⟩) ∧
  decodeTableWord 32 0x00000004 = some (.gap ⟨0, 0⟩) ∧
  decodeTableWord 32 0x00000005 = some (.softmax ⟨0, 0⟩) ∧
  decodeTableWord 32 0x00000006 = none ∧ decodeTableWord 32 0x00000104 = none ∧
  decodeTableWord 32 0x00000402 = none

/-- Decode and encode agree: the 32 bytes of every well-formed instruction decode to it, every operand at every
value. -/
def Obligations.EncodeDecodeRoundTrip : Prop :=
  ∀ i : Instr, i.wellFormed = true → decodeBytes (encodeBytes i) = .ok i

/-- What is decoded is well-formed, and encoding it gives back the first word and every word the command uses
(R82). -/
def Obligations.DecodedWordsReencode : Prop :=
  ∀ (w : CommandWords) (i : Instr), decodeWords w = .ok i →
    i.wellFormed = true ∧ (encode i).w0 = w.w0 ∧
    match i with
    | .endPass => True
    | .ldmeta _ => (encode i).w1 = w.w1 ∧ (encode i).w2 = w.w2 ∧ (encode i).w3 = w.w3 ∧ (encode i).w4 = w.w4
    | .dwconv c | .pwconv c => (encode i).w1 = w.w1 ∧ (encode i).w2 = w.w2 ∧ (encode i).w3 = w.w3 ∧
        (encode i).w4 = w.w4 ∧ (encode i).w5 = w.w5 ∧ (c.hasBias = true → (encode i).w6 = w.w6)
    | .gap _ | .softmax _ => (encode i).w1 = w.w1 ∧ (encode i).w2 = w.w2

/-- A first word decodes exactly when one row of the table selects it, and then to that row's command (R84). -/
def Obligations.DecoderFollowsTable : Prop :=
  ∀ w : CommandWords,
    (∀ i, decodeWords w = .ok i → (opcodeTable.filter (·.selects w.w0)).map (·.mnemonic) = [i.mnemonic]) ∧
    (∀ e, decodeWords w = .error e → opcodeTable.filter (·.selects w.w0) = [])

/-- A command is illegal exactly when its opcode is in 0x06 to 0xFF, a bit of `W0[31:10]` is set, or a flag is set
on a command that is no convolution (R86). -/
def Obligations.IllegalEncodings : Prop :=
  ∀ w : CommandWords, (∃ e, decodeWords w = .error e) ↔
    6 ≤ w.w0.toNat % 256 ∨ 2 ^ 10 ≤ w.w0.toNat ∨
    ((w.w0.toNat.testBit 8 = true ∨ w.w0.toNat.testBit 9 = true) ∧
      w.w0.toNat % 256 ≠ 2 ∧ w.w0.toNat % 256 ≠ 3)

/-- A placed command is the one the very next step runs. Placing it stands for the host's load, the model's choice
(notes/assumptions/9.md). -/
def Obligations.PlacedCommandRunsNext : Prop :=
  ∀ (s : State) (nbits w : Nat) (i : Instr), s.Inv → decodeTableWord nbits w = some i →
    step (s.withFetchWord nbits w) = exec i (s.withFetchWord nbits w)

/-! ### Error entry -/

/-- Error entry writes `ERR_CODE`, `ERR_PC` and two bits of `STATUS`, nothing else (R258, codes of R250). -/
def Obligations.ErrorEntry : Prop :=
  ∀ (e : EngineError) (s : State),
    (raise e s).errCode.toNat = (match e with
      | .invalidDimensions => 1 | .unsupportedBitWidth => 2 | .channelLimitExceeded => 3
      | .metadataMalformed => 4 | .illegalCommand => 5) ∧
    (raise e s).errPc = s.cmdPtr ∧ (raise e s).err = true ∧ (raise e s).busy = false ∧
    (∀ k, k ≠ 0 → k ≠ 2 → (raise e s).status.getLsbD k = s.status.getLsbD k) ∧
    (raise e s).cmdPtr = s.cmdPtr ∧ (raise e s).mem = s.mem ∧ s.sameRegistry (raise e s) ∧
    s.sameOwn (raise e s)

/-! ### Operands -/

/-- The little-endian word at an address (R51). -/
def Obligations.WordReadIsLittleEndian : Prop :=
  ∀ (mem : List Host.Cell) (a : Nat), (readWord mem a).toNat =
    (readByte mem a).toNat + 256 * (readByte mem (a + 1)).toNat + 65536 * (readByte mem (a + 2)).toNat +
      16777216 * (readByte mem (a + 3)).toNat

/-- `ReadDesc` (R57): `InvalidDimensions` for a descriptor outside memory, a dimension that is not positive, or a
buffer outside memory; else the six fields. -/
def Obligations.ReadDescResult : Prop :=
  ∀ (s : State) (d : Word) (h w c : ℤ) (data : Nat),
    h = (readWord s.mem d.toNat).toInt → w = (readWord s.mem (d.toNat + 4)).toInt →
    c = (readWord s.mem (d.toNat + 8)).toInt → data = (readWord s.mem (d.toNat + 12)).toNat →
    readDesc s d =
      if s.memBytes < d.toNat + 24 then .error (.error .invalidDimensions)
      else if h ≤ 0 ∨ w ≤ 0 ∨ c ≤ 0 then .error (.error .invalidDimensions)
      else if (s.memBytes : ℤ) < data + h * w * c then .error (.error .invalidDimensions)
      else .ok { height := h.toNat, width := w.toNat, channels := c.toNat, data := data,
                 scale := readWord s.mem (d.toNat + 16), zp := (readWord s.mem (d.toNat + 20)).toInt }

/-- `Lookup` (R209), in every state whose registry lies in memory. -/
def Obligations.LookupResult : Prop :=
  ∀ (s : State) (pos : Word) (r : Nat) (bw off len : ℤ), s.registryInMemory →
    r = s.metaBase.toNat + 16 * pos.toNat → bw = (readWord s.mem (r + 4)).toInt →
    off = (readWord s.mem (r + 8)).toInt → len = (readWord s.mem (r + 12)).toInt →
    lookup s pos =
      if s.metaCount.toNat ≤ pos.toNat then .error (.error .metadataMalformed)
      else if off < 0 ∨ len < 0 ∨ (s.blobLen.toNat : ℤ) < off + len then .error (.error .metadataMalformed)
      else if bw < 1 ∨ 8 < bw then .error (.error .unsupportedBitWidth)
      else .ok { wbase := s.blobBase.toNat + off.toNat, wlen := len.toNat, bits := bw.toNat }

/-! ### END and LDMETA -/

/-- `END` completes in every state: BUSY <- 0, DONE <- 1, nothing else (R226). -/
def Obligations.EndCompletes : Prop :=
  ∀ s : State, ∃ t, exec .endPass s = .next t ∧ t.busy = false ∧ t.done = true ∧
    (∀ k, k ≠ 0 → k ≠ 1 → t.status.getLsbD k = s.status.getLsbD k) ∧ t.cmdPtr = s.cmdPtr ∧ t.mem = s.mem ∧
    t.errCode = s.errCode ∧ t.errPc = s.errPc ∧ s.sameRegistry t ∧ s.sameOwn t

/-- `LDMETA` completes when the checks of R207 hold and latches the four registers (R208). -/
def Obligations.LdmetaLatchesRegistry : Prop :=
  ∀ (s : State) (m : MetaOperands), m.metaLen.toNat % 16 = 0 →
    m.metaAddr.toNat + m.metaLen.toNat ≤ s.memBytes → m.blobAddr.toNat + m.blobLen.toNat ≤ s.memBytes →
    (∀ k < m.metaLen.toNat / 16,
      0 ≤ (readWord s.mem (m.metaAddr.toNat + 16 * k + 8)).toInt ∧
      0 ≤ (readWord s.mem (m.metaAddr.toNat + 16 * k + 12)).toInt ∧
      (readWord s.mem (m.metaAddr.toNat + 16 * k + 8)).toInt +
        (readWord s.mem (m.metaAddr.toNat + 16 * k + 12)).toInt ≤ m.blobLen.toNat) →
    (∀ k, k + 1 < m.metaLen.toNat / 16 →
      (readWord s.mem (m.metaAddr.toNat + 16 * k)).toInt <
        (readWord s.mem (m.metaAddr.toNat + 16 * (k + 1))).toInt) →
    ∃ t, exec (.ldmeta m) s = .next t ∧ t.metaBase = m.metaAddr ∧
      t.metaCount.toNat = m.metaLen.toNat / 16 ∧ t.blobBase = m.blobAddr ∧ t.blobLen = m.blobLen ∧
      t.cmdPtr = s.cmdPtr + 32#32 ∧ t.mem = s.mem ∧ s.sameFlags t ∧ s.sameOwn t

/-- `LDMETA` raises the error of the first check of R207 that fails, and changes no registry register (R210). -/
def Obligations.LdmetaErrors : Prop :=
  ∀ (s : State) (m : MetaOperands),
    (m.metaLen.toNat % 16 ≠ 0 → exec (.ldmeta m) s = .next (raise .metadataMalformed s)) ∧
    (m.metaLen.toNat % 16 = 0 →
      (s.memBytes < m.metaAddr.toNat + m.metaLen.toNat →
        exec (.ldmeta m) s = .next (raise .metadataMalformed s)) ∧
      (m.metaAddr.toNat + m.metaLen.toNat ≤ s.memBytes →
        (s.memBytes < m.blobAddr.toNat + m.blobLen.toNat →
          exec (.ldmeta m) s = .next (raise .invalidDimensions s)) ∧
        (m.blobAddr.toNat + m.blobLen.toNat ≤ s.memBytes →
          ((∃ k < m.metaLen.toNat / 16,
              (readWord s.mem (m.metaAddr.toNat + 16 * k + 8)).toInt < 0 ∨
              (readWord s.mem (m.metaAddr.toNat + 16 * k + 12)).toInt < 0 ∨
              (m.blobLen.toNat : ℤ) < (readWord s.mem (m.metaAddr.toNat + 16 * k + 8)).toInt +
                (readWord s.mem (m.metaAddr.toNat + 16 * k + 12)).toInt) ∨
           (∃ k, k + 1 < m.metaLen.toNat / 16 ∧
              (readWord s.mem (m.metaAddr.toNat + 16 * (k + 1))).toInt ≤
                (readWord s.mem (m.metaAddr.toNat + 16 * k)).toInt)) →
          exec (.ldmeta m) s = .next (raise .metadataMalformed s)))) ∧
    (∀ e, s.sameRegistry (raise e s))

/-! ### The convolutions -/

/-- `DWCONV` completes when its checks pass, its operands are legal and apart, and no real sum is a NaN: every
output byte is the requantized, optionally clamped real sum of its nine taps and bias, all read from the memory
before the command, and nothing else changes but `CMD_PTR` (R144 to R149). -/
def Obligations.DwconvResult : Prop :=
  ∀ (s : State) (c : ConvOperands) (v : LayerView) (din dout : TensorDesc),
    Memory.wf s.memBytes s.mem = true → Ref.dwPasses s c v din dout → Ref.convLegal c din dout →
    Ref.convApart s c v din dout (9 * din.channels) din.channels →
    (∀ y x ch, y < din.height → x < din.width → ch < din.channels →
      ¬ Ref.nan (Ref.convReal s c din ch (Ref.dwAcc s c v din y x ch))) →
    ∃ t, exec (.dwconv c) s = .next t ∧ t.cmdPtr = s.cmdPtr + 32#32 ∧ s.sameFlags t ∧ s.sameRegistry t ∧
      s.sameOwn t ∧ s.sameBytesOutside t dout.data (din.height * din.width * din.channels) ∧
      ∀ y x ch, y < din.height → x < din.width → ch < din.channels →
        ∃ q, requantize (Ref.convReal s c din ch (Ref.dwAcc s c v din y x ch)) dout.scale dout.zp = .ok q ∧
          ((readByte t.mem (dout.data + (y * din.width + x) * din.channels + ch)).toNat : ℤ) =
            Ref.clamped c.relu6 q dout.scale dout.zp

/-- `DWCONV` raises the error of the first check of R141 that fails, whatever its unchecked operands are: that the
error comes first is deduced (notes/assumptions/5.md). -/
def Obligations.DwconvErrors : Prop :=
  ∀ (s : State) (c : ConvOperands),
    (∀ e, lookup s c.layer = .error (.error e) → exec (.dwconv c) s = .next (raise e s)) ∧
    ∀ v, lookup s c.layer = .ok v →
      (∀ e, readDesc s c.input = .error (.error e) → exec (.dwconv c) s = .next (raise e s)) ∧
      ∀ din, readDesc s c.input = .ok din →
        (∀ e, readDesc s c.output = .error (.error e) → exec (.dwconv c) s = .next (raise e s)) ∧
        ∀ dout, readDesc s c.output = .ok dout →
          (dout.height ≠ din.height ∨ dout.width ≠ din.width ∨ dout.channels ≠ din.channels ∨
            v.wlen < 9 * din.channels ∨ (c.hasBias = true ∧ s.memBytes < c.bias.toNat + 4 * din.channels)) →
          exec (.dwconv c) s = .next (raise .invalidDimensions s)

/-- A `DWCONV` that passes its checks is refused when a scale or zero-point is illegal, when its output overlaps
what it reads, or when a real sum is a NaN (R142, R152). A product
of an infinite scale and 0 is such a NaN by R10, though R152 says otherwise of `acc = 0` (deduced,
notes/assumptions/20.md). Which of the model's names a refusal takes is the model's choice (notes/assumptions/6.md). -/
def Obligations.DwconvRefusals : Prop :=
  ∀ (s : State) (c : ConvOperands) (v : LayerView) (din dout : TensorDesc), Ref.dwPasses s c v din dout →
    (¬ Ref.convLegal c din dout →
      exec (.dwconv c) s = .refused .illegalScale ∨ exec (.dwconv c) s = .refused .illegalZeroPoint) ∧
    (Ref.convLegal c din dout → ¬ Ref.convApart s c v din dout (9 * din.channels) din.channels →
      exec (.dwconv c) s = .refused .regionOverlap) ∧
    (Ref.convLegal c din dout → Ref.convApart s c v din dout (9 * din.channels) din.channels →
      (∃ y x ch, y < din.height ∧ x < din.width ∧ ch < din.channels ∧
        Ref.nan (Ref.convReal s c din ch (Ref.dwAcc s c v din y x ch))) →
      exec (.dwconv c) s = .refused .nanToRequantize)

/-- `PWCONV` completes when its checks pass, its operands are legal and apart, every exact sum is an i32 and no
real sum is a NaN: every output byte is the requantized, optionally clamped real sum over all input channels and
bias, and nothing else changes but `CMD_PTR` (R164 to R168). -/
def Obligations.PwconvResult : Prop :=
  ∀ (s : State) (c : ConvOperands) (v : LayerView) (din dout : TensorDesc),
    Memory.wf s.memBytes s.mem = true → Ref.pwPasses s c v din dout → Ref.convLegal c din dout →
    Ref.convApart s c v din dout (dout.channels * din.channels) dout.channels →
    (∀ y x co, y < din.height → x < din.width → co < dout.channels →
      -2 ^ 31 ≤ Ref.pwAcc s c v din y x co ∧ Ref.pwAcc s c v din y x co ≤ 2 ^ 31 - 1 ∧
      ¬ Ref.nan (Ref.convReal s c din co (Ref.pwAcc s c v din y x co))) →
    ∃ t, exec (.pwconv c) s = .next t ∧ t.cmdPtr = s.cmdPtr + 32#32 ∧ s.sameFlags t ∧ s.sameRegistry t ∧
      s.sameOwn t ∧ s.sameBytesOutside t dout.data (din.height * din.width * dout.channels) ∧
      ∀ y x co, y < din.height → x < din.width → co < dout.channels →
        ∃ q, requantize (Ref.convReal s c din co (Ref.pwAcc s c v din y x co)) dout.scale dout.zp = .ok q ∧
          ((readByte t.mem (dout.data + (y * din.width + x) * dout.channels + co)).toNat : ℤ) =
            Ref.clamped c.relu6 q dout.scale dout.zp

/-- `PWCONV` raises the error of the first check of R161 that fails, whatever its unchecked operands are: that the
error comes first is deduced (notes/assumptions/5.md). -/
def Obligations.PwconvErrors : Prop :=
  ∀ (s : State) (c : ConvOperands),
    (∀ e, lookup s c.layer = .error (.error e) → exec (.pwconv c) s = .next (raise e s)) ∧
    ∀ v, lookup s c.layer = .ok v →
      (∀ e, readDesc s c.input = .error (.error e) → exec (.pwconv c) s = .next (raise e s)) ∧
      ∀ din, readDesc s c.input = .ok din →
        (∀ e, readDesc s c.output = .error (.error e) → exec (.pwconv c) s = .next (raise e s)) ∧
        ∀ dout, readDesc s c.output = .ok dout →
          (dout.height ≠ din.height ∨ dout.width ≠ din.width ∨ v.wlen < dout.channels * din.channels ∨
            (c.hasBias = true ∧ s.memBytes < c.bias.toNat + 4 * dout.channels)) →
          exec (.pwconv c) s = .next (raise .invalidDimensions s)

/-- A `PWCONV` that passes its checks is refused when a scale or zero-point is illegal, when its output overlaps
what it reads, when an exact sum is no i32, or when a real sum is a NaN (R162, R165, R170).
A product of an infinite scale and 0 is such a NaN by R10, though R152 says otherwise of `acc = 0` (deduced,
notes/assumptions/20.md). Which of the model's names a refusal takes is the model's choice (notes/assumptions/6.md). -/
def Obligations.PwconvRefusals : Prop :=
  ∀ (s : State) (c : ConvOperands) (v : LayerView) (din dout : TensorDesc), Ref.pwPasses s c v din dout →
    (¬ Ref.convLegal c din dout →
      exec (.pwconv c) s = .refused .illegalScale ∨ exec (.pwconv c) s = .refused .illegalZeroPoint) ∧
    (Ref.convLegal c din dout → ¬ Ref.convApart s c v din dout (dout.channels * din.channels) dout.channels →
      exec (.pwconv c) s = .refused .regionOverlap) ∧
    (Ref.convLegal c din dout → Ref.convApart s c v din dout (dout.channels * din.channels) dout.channels →
      (∃ y x co, y < din.height ∧ x < din.width ∧ co < dout.channels ∧
        ¬ (-2 ^ 31 ≤ Ref.pwAcc s c v din y x co ∧ Ref.pwAcc s c v din y x co ≤ 2 ^ 31 - 1)) →
      exec (.pwconv c) s = .refused .accumulatorOverflow ∨ exec (.pwconv c) s = .refused .nanToRequantize) ∧
    (Ref.convLegal c din dout → Ref.convApart s c v din dout (dout.channels * din.channels) dout.channels →
      (∀ y x co, y < din.height → x < din.width → co < dout.channels →
        -2 ^ 31 ≤ Ref.pwAcc s c v din y x co ∧ Ref.pwAcc s c v din y x co ≤ 2 ^ 31 - 1) →
      (∃ y x co, y < din.height ∧ x < din.width ∧ co < dout.channels ∧
        Ref.nan (Ref.convReal s c din co (Ref.pwAcc s c v din y x co))) →
      exec (.pwconv c) s = .refused .nanToRequantize)

/-- The accumulator cannot leave i32 in `DWCONV`, nor in `PWCONV` with at most 33025 input channels: the machine's
sums are bounded for weight zero-points in 0 to 255 and widths of at most 8 bits (R134, R145), and so no `DWCONV`, and
no `PWCONV` of so few channels, is ever refused for its accumulator (R165). -/
def Obligations.AccumulatorFits : Prop :=
  (∀ (mem : List Host.Cell) (c : ConvOperands) (p : ConvPlan) (y x ch : Nat),
    Ref.legalZp (s32 c.wZp) → p.view.bits ≤ 8 →
    |dwAcc mem c p y x ch| ≤ 585225 ∧
    (p.din.channels ≤ 33025 → |pwAcc mem c p y x ch| ≤ 2 ^ 31 - 1)) ∧
  ∀ (s : State) (c : ConvOperands),
    exec (.dwconv c) s ≠ .refused .accumulatorOverflow ∧
    ((∀ din, readDesc s c.input = .ok din → din.channels ≤ 33025) →
      exec (.pwconv c) s ≠ .refused .accumulatorOverflow)

/-- With scales below 2^40 no overflow and no NaN occurs in the real-domain sum, whatever the bias word and the
accumulator hold (R152). -/
def Obligations.ModestScalesStayFinite : Prop :=
  ∀ (s : State) (c : ConvOperands) (din : TensorDesc) (ch : Nat) (acc : ℤ),
    Ref.scaleBelow 0x53800000 din.scale → Ref.scaleBelow 0x53800000 c.wScale →
    -2 ^ 31 ≤ acc → acc ≤ 2 ^ 31 - 1 → Ref.finite (Ref.convReal s c din ch acc)

/-- A 1×1 depthwise input uses only the centre weight of a channel, at every width (R151). -/
def Obligations.SinglePixelUsesCentreWeight : Prop :=
  ∀ (mem : List Host.Cell) (c : ConvOperands) (p : ConvPlan) (ch : Nat), p.din.height = 1 → p.din.width = 1 →
    dwAcc mem c p 0 0 ch =
      mac (readByte mem (p.din.data + ch)) (readByte mem (p.view.wbase + 9 * ch + 4)) p.view.bits (s32 c.wZp)

/-! ### GAP and SOFTMAX -/

/-- `GAP` completes when its checks pass, its operands are legal, its output is apart from what it reads or lies
exactly on the input data, and no mean is a NaN: every output byte is the requantized mean of its channel, and
nothing else changes but `CMD_PTR` (R178, R182). -/
def Obligations.GapResult : Prop :=
  ∀ (s : State) (o : TensorOperands) (din dout : TensorDesc),
    Memory.wf s.memBytes s.mem = true → Ref.gapPasses s o din dout → Ref.tensorsLegal din dout →
    Ref.commonApart s o dout → (dout.data = din.data ∨ Ref.apart dout.data dout.size din.data din.size) →
    (∀ ch < din.channels, ¬ Ref.nan (Ref.gapMean s din ch)) →
    ∃ t, exec (.gap o) s = .next t ∧ t.cmdPtr = s.cmdPtr + 32#32 ∧ s.sameFlags t ∧ s.sameRegistry t ∧
      s.sameOwn t ∧ s.sameBytesOutside t dout.data din.channels ∧
      ∀ ch < din.channels, requantize (Ref.gapMean s din ch) dout.scale dout.zp =
        .ok ((readByte t.mem (dout.data + ch)).toNat : ℤ)

/-- `GAP` raises `InvalidDimensions` when a check of R176 fails, whatever its unchecked operands are (deduced,
notes/assumptions/5.md), and no other error. -/
def Obligations.GapErrors : Prop :=
  ∀ (s : State) (o : TensorOperands),
    (∀ x, readDesc s o.input = .error x → exec (.gap o) s = .next (raise .invalidDimensions s)) ∧
    ∀ din, readDesc s o.input = .ok din →
      (∀ x, readDesc s o.output = .error x → exec (.gap o) s = .next (raise .invalidDimensions s)) ∧
      ∀ dout, readDesc s o.output = .ok dout →
        (dout.height ≠ 1 ∨ dout.width ≠ 1 ∨ dout.channels ≠ din.channels →
          exec (.gap o) s = .next (raise .invalidDimensions s)) ∧
        (dout.height = 1 → dout.width = 1 → dout.channels = din.channels →
          ∀ e, exec (.gap o) s ≠ .next (raise e s))

/-- A `GAP` that passes its checks is refused when a scale or zero-point is illegal, when its output overlaps what
it reads otherwise than in place, or when a mean is a NaN (R177, R182). Which of the model's names a refusal takes is the model's choice
(notes/assumptions/6.md), and that
an overflowed sum is refused by its NaN is deduced (notes/assumptions/18.md). -/
def Obligations.GapRefusals : Prop :=
  ∀ (s : State) (o : TensorOperands) (din dout : TensorDesc), Ref.gapPasses s o din dout →
    (¬ Ref.tensorsLegal din dout →
      exec (.gap o) s = .refused .illegalScale ∨ exec (.gap o) s = .refused .illegalZeroPoint) ∧
    (Ref.tensorsLegal din dout →
      ¬ (Ref.commonApart s o dout ∧
          (dout.data = din.data ∨ Ref.apart dout.data dout.size din.data din.size)) →
      exec (.gap o) s = .refused .regionOverlap) ∧
    (Ref.tensorsLegal din dout → Ref.commonApart s o dout →
      (dout.data = din.data ∨ Ref.apart dout.data dout.size din.data din.size) →
      (∃ ch < din.channels, Ref.nan (Ref.gapMean s din ch)) → exec (.gap o) s = .refused .nanToRequantize)

/-- No mean is a NaN for an input scale below 2^120, a legal zero-point and at most 2^31 positions (R110, R180). -/
def Obligations.GapMeanIsNoNan : Prop :=
  ∀ (s : State) (din : TensorDesc) (ch : Nat), Ref.scaleBelow 0x7B800000 din.scale → Ref.legalZp din.zp →
    0 < din.height * din.width → din.height * din.width ≤ 2147483648 → ¬ Ref.nan (Ref.gapMean s din ch)

/-- In place, the loop of R178 run channel by channel on the memory the channels before it left gives the memory
`GAP` gives (R182). -/
def Obligations.GapInPlaceLoop : Prop :=
  ∀ (s t : State) (o : TensorOperands) (din dout : TensorDesc), Memory.wf s.memBytes s.mem = true →
    Ref.gapPasses s o din dout → Ref.tensorsLegal din dout → Ref.commonApart s o dout →
    dout.data = din.data → exec (.gap o) s = .next t → Ref.gapLoop s din dout din.channels = some t.mem

/-- `SOFTMAX` completes when its checks pass, its operands are legal and apart and its dequantized inputs are
finite: with `m` the greatest input, `e[i] = exp32(x[i] - m)` and `S` their running sum in ascending order, every
output byte is the requantized `e[i] / S`, and nothing else changes but `CMD_PTR` (R193 to R197). It holds whatever
the free exponential is. -/
def Obligations.SoftmaxResult : Prop :=
  ∀ (s : State) (o : TensorOperands) (din dout : TensorDesc),
    Memory.wf s.memBytes s.mem = true → Ref.softmaxPasses s o din dout → Ref.tensorsLegal din dout →
    Ref.commonApart s o dout → Ref.apart dout.data dout.size din.data din.size →
    (∀ i < din.channels, Ref.finite (Ref.softmaxInput s din i)) →
    ∃ t, exec (.softmax o) s = .next t ∧ t.cmdPtr = s.cmdPtr + 32#32 ∧ s.sameFlags t ∧ s.sameRegistry t ∧
      s.sameOwn t ∧ s.sameBytesOutside t dout.data din.channels ∧
      ∃ m, (∃ i < din.channels, m = Ref.softmaxInput s din i) ∧
        (∀ i < din.channels, Ref.value (Ref.softmaxInput s din i) ≤ Ref.value m) ∧
        ∀ i < din.channels,
          requantize (fdiv (exp32 (fsub (Ref.softmaxInput s din i) m))
              (((List.range din.channels).map fun j => exp32 (fsub (Ref.softmaxInput s din j) m)).foldl fadd 0#32))
            dout.scale dout.zp = .ok ((readByte t.mem (dout.data + i)).toNat : ℤ)

/-- `SOFTMAX` raises `InvalidDimensions` for its descriptors and shapes, then `ChannelLimitExceeded` above 2048
channels (R191), whatever its unchecked operands are (deduced, notes/assumptions/5.md). -/
def Obligations.SoftmaxErrors : Prop :=
  ∀ (s : State) (o : TensorOperands),
    (∀ x, readDesc s o.input = .error x → exec (.softmax o) s = .next (raise .invalidDimensions s)) ∧
    ∀ din, readDesc s o.input = .ok din →
      (∀ x, readDesc s o.output = .error x → exec (.softmax o) s = .next (raise .invalidDimensions s)) ∧
      ∀ dout, readDesc s o.output = .ok dout →
        ((din.height ≠ 1 ∨ din.width ≠ 1 ∨ dout.height ≠ 1 ∨ dout.width ≠ 1 ∨ dout.channels ≠ din.channels) →
          exec (.softmax o) s = .next (raise .invalidDimensions s)) ∧
        (din.height = 1 → din.width = 1 → dout.height = 1 → dout.width = 1 → dout.channels = din.channels →
          2048 < din.channels → exec (.softmax o) s = .next (raise .channelLimitExceeded s))

/-- A `SOFTMAX` that passes its checks is refused when a scale or zero-point is illegal or when its output overlaps
anything it reads, its input data included (R192). Which of the model's names a refusal takes is the model's choice
(notes/assumptions/6.md). -/
def Obligations.SoftmaxRefusals : Prop :=
  ∀ (s : State) (o : TensorOperands) (din dout : TensorDesc), Ref.softmaxPasses s o din dout →
    (¬ Ref.tensorsLegal din dout →
      exec (.softmax o) s = .refused .illegalScale ∨ exec (.softmax o) s = .refused .illegalZeroPoint) ∧
    (Ref.tensorsLegal din dout →
      ¬ (Ref.commonApart s o dout ∧ Ref.apart dout.data dout.size din.data din.size) →
      exec (.softmax o) s = .refused .regionOverlap)

/-- No softmax output code is below the output zero-point, for an input scale below 2^120: every probability is at
least 0 (R199). It holds whatever the free exponential is. -/
def Obligations.SoftmaxCodesAtLeastZeroPoint : Prop :=
  ∀ (s t : State) (o : TensorOperands) (din dout : TensorDesc), Memory.wf s.memBytes s.mem = true →
    Ref.softmaxPasses s o din dout → Ref.scaleBelow 0x7B800000 din.scale → exec (.softmax o) s = .next t →
    ∀ i < din.channels, dout.zp ≤ ((readByte t.mem (dout.data + i)).toNat : ℤ)

/-- The four properties of `exp32` (R16), whatever the free values are. -/
def Obligations.ExponentialProperties : Prop :=
  (exp32 0x00000000#32 = 0x3F800000#32 ∧ exp32 0x80000000#32 = 0x3F800000#32) ∧
  (∀ x, Ref.finite x → Ref.value x ≤ 0 →
    Ref.finite (exp32 x) ∧ 0 ≤ Ref.value (exp32 x) ∧ Ref.value (exp32 x) ≤ 1) ∧
  (∀ x y, Ref.finite x → Ref.finite y → Ref.value x ≤ Ref.value y → Ref.value y ≤ 0 →
    Ref.value (exp32 x) ≤ Ref.value (exp32 y)) ∧
  exp32 0xFF800000#32 = 0x00000000#32

/-! ### Arithmetic -/

/-- The four binary32 operations on finite values give the exact result rounded once to nearest, ties to even
(R10). -/
def Obligations.ArithmeticRoundsOnce : Prop :=
  ∀ a b : F32, Ref.finite a → Ref.finite b →
    Ref.roundsTo (Ref.value a + Ref.value b) (fadd a b) ∧
    Ref.roundsTo (Ref.value a - Ref.value b) (fsub a b) ∧
    Ref.roundsTo (Ref.value a * Ref.value b) (fmul a b) ∧
    (Ref.value b ≠ 0 → Ref.roundsTo (Ref.value a / Ref.value b) (fdiv a b))

/-- The results of IEEE 754 on infinities, NaNs and zero divisors, and the sign of an exact zero (R10). -/
def Obligations.ArithmeticOnSpecials : Prop :=
  (∀ a b : F32, Ref.nan a ∨ Ref.nan b →
    Ref.nan (fadd a b) ∧ Ref.nan (fsub a b) ∧ Ref.nan (fmul a b) ∧ Ref.nan (fdiv a b)) ∧
  (∀ (a : F32) (n : Bool), Ref.finite a →
    fadd a (f32Pack n infMag) = f32Pack n infMag ∧ fadd (f32Pack n infMag) a = f32Pack n infMag ∧
    fsub a (f32Pack n infMag) = f32Pack (!n) infMag ∧ fsub (f32Pack n infMag) a = f32Pack n infMag ∧
    fdiv a (f32Pack n infMag) = f32Pack (a.msb != n) 0 ∧ fdiv (f32Pack n infMag) a = f32Pack (a.msb != n) infMag ∧
    (Ref.value a ≠ 0 → fmul a (f32Pack n infMag) = f32Pack (a.msb != n) infMag ∧
      fmul (f32Pack n infMag) a = f32Pack (a.msb != n) infMag ∧
      fdiv a (f32Pack n 0) = f32Pack (a.msb != n) infMag) ∧
    (Ref.value a = 0 → Ref.nan (fmul a (f32Pack n infMag)) ∧ Ref.nan (fmul (f32Pack n infMag) a) ∧
      Ref.nan (fdiv a (f32Pack n 0)))) ∧
  (∀ n m : Bool, Ref.nan (fdiv (f32Pack n infMag) (f32Pack m infMag)) ∧
    fmul (f32Pack n infMag) (f32Pack m infMag) = f32Pack (n != m) infMag ∧
    (n = m → fadd (f32Pack n infMag) (f32Pack m infMag) = f32Pack n infMag ∧
      Ref.nan (fsub (f32Pack n infMag) (f32Pack m infMag))) ∧
    (n ≠ m → Ref.nan (fadd (f32Pack n infMag) (f32Pack m infMag)) ∧
      fsub (f32Pack n infMag) (f32Pack m infMag) = f32Pack n infMag)) ∧
  (∀ a b : F32, Ref.finite a → Ref.finite b →
    (Ref.value a + Ref.value b = 0 → fadd a b = f32Pack (a.msb && b.msb) 0) ∧
    (Ref.value a - Ref.value b = 0 → fsub a b = f32Pack (a.msb && !b.msb) 0) ∧
    (Ref.value a * Ref.value b = 0 → fmul a b = f32Pack (a.msb != b.msb) 0) ∧
    (Ref.value a = 0 → Ref.value b ≠ 0 → fdiv a b = f32Pack (a.msb != b.msb) 0))

/-- `i2f` rounds to nearest, ties to even, is exact up to 2^24 and does not overflow below 2^127 (R11). -/
def Obligations.IntegerToFloat : Prop :=
  ∀ n : ℤ, Ref.roundsTo (n : ℚ) (i2f n) ∧ (|n| ≤ 2 ^ 24 → Ref.value (i2f n) = n) ∧
    (|n| < 2 ^ 127 → Ref.finite (i2f n))

/-- `rnd` is the nearest integer, a tie going away from zero, computed exactly (R111). -/
def Obligations.RoundHalfAwayFromZero : Prop :=
  ∀ t : F32, Ref.finite t →
    rnd t = if 0 ≤ Ref.value t then ⌊Ref.value t + 1 / 2⌋ else -⌊-Ref.value t + 1 / 2⌋

/-- `dequantize` is the exact product rounded once, +0 for the zero-point's code, and finite when 255 times the
scale does not overflow, so below 2^120 (R110). -/
def Obligations.DequantizeResult : Prop :=
  ∀ (q : Byte) (scale : F32) (zp : ℤ), Ref.legalScale scale → Ref.legalZp zp →
    Ref.roundsTo (Ref.value scale * ((q.toNat : ℤ) - zp : ℤ)) (dequantize q scale zp) ∧
    ((q.toNat : ℤ) = zp → dequantize q scale zp = 0#32) ∧
    (Ref.scaleBelow 0x7B808081 scale → Ref.finite (dequantize q scale zp))

/-- `requantize` (R112): infinities and quotients past either end saturate, others are rounded, a NaN is refused. -/
def Obligations.RequantizeResult : Prop :=
  ∀ (real scale : F32) (zp : ℤ), Ref.legalScale scale → Ref.legalZp zp →
    (Ref.nan real → requantize real scale zp = .error (.refuse .nanToRequantize)) ∧
    (fdiv real scale = 0x7F800000#32 → requantize real scale zp = .ok 255) ∧
    (fdiv real scale = 0xFF800000#32 → requantize real scale zp = .ok 0) ∧
    (Ref.finite (fdiv real scale) →
      (Ref.value (fdiv real scale) < -zp → requantize real scale zp = .ok 0) ∧
      (255 - zp < Ref.value (fdiv real scale) → requantize real scale zp = .ok 255) ∧
      (-zp ≤ Ref.value (fdiv real scale) → Ref.value (fdiv real scale) ≤ 255 - zp →
        requantize real scale zp = .ok (zp + rnd (fdiv real scale)))) ∧
    requantize 0#32 scale zp = .ok zp

/-- The round trip of quantization is exact for every code, every zero-point and every scale above 0 for which 255
times the scale does not overflow, the greatest of them 0x7B808080 (R115); the least, 2^-149, is among them. -/
def Obligations.QuantizationRoundTrip : Prop :=
  ∀ (q : Byte) (scale : F32) (zp : ℤ), Ref.scaleBelow 0x7B808081 scale → Ref.legalZp zp →
    requantize (dequantize q scale zp) scale zp = .ok (q.toNat : ℤ)

/-- The bit-serial loop equals its closed form at every width from 1 to 8 (R132). -/
def Obligations.MacClosedForm : Prop :=
  ∀ (a w : Byte) (bits : Nat) (wZp : ℤ), 1 ≤ bits → bits ≤ 8 →
    mac a w bits wZp = (a.toNat : ℤ) * (((w.toNat % 2 ^ bits : ℕ) : ℤ) - wZp)

/-! ### The host -/

/-- What a write of `CTRL` does (R25, R227): ignored while BUSY, whatever it holds; else `SRESET`, before `START`,
before nothing; and `START` clears DONE, ERR, `ERR_CODE` and `ERR_PC`, sets BUSY, and keeps the rest. -/
def Obligations.ControlWrites : Prop :=
  ∀ (s : State) (v : Word) (rest : List HostMove), s.hostMoves = .writeReg 4 0 v :: rest →
    (s.busy = true → step s = .next { s with hostMoves := rest }) ∧
    (s.busy = false → v.getLsbD 1 = true → step s = .next { s with hostMoves := rest, status := 0, cmdPtr := 0, errCode := 0, errPc := 0, metaBase := 0, metaCount := 0, blobBase := 0, blobLen := 0 }) ∧
    (s.busy = false → v.getLsbD 1 = false → v.getLsbD 0 = true →
      ∃ t, step s = .next t ∧ t.busy = true ∧ t.done = false ∧ t.err = false ∧
        (∀ k, 3 ≤ k → t.status.getLsbD k = s.status.getLsbD k) ∧ t.errCode = 0 ∧ t.errPc = 0 ∧
        t.cmdPtr = s.cmdPtr ∧ t.mem = s.mem ∧ s.sameRegistry t ∧ t.memBytes = s.memBytes ∧
        t.hostMoves = rest ∧ t.hostRead = s.hostRead) ∧
    (s.busy = false → v.getLsbD 1 = false → v.getLsbD 0 = false → step s = .next { s with hostMoves := rest })

/-- A host read of the window, 32 bits wide, returns the current value and has no side effect; `CTRL` and unlisted
offsets read 0; a read of another width is refused (R24, R29). That the value lands in `hostRead` is the model's own
(notes/assumptions/7.md), and that every register reads so while BUSY is deduced (notes/assumptions/13.md). -/
def Obligations.RegisterReads : Prop :=
  ∀ (s : State) (width : Nat) (off : Word) (rest : List HostMove), s.hostMoves = .readReg width off :: rest →
    (width ≠ 4 → step s = .refused .hostRegisterAccessWidth) ∧
    (width = 4 → step s = .next { s with hostMoves := rest, hostRead :=
      if off = 0x04#32 then s.status else if off = 0x08#32 then s.cmdPtr else if off = 0x0C#32 then s.errCode
      else if off = 0x10#32 then s.errPc else if off = 0x14#32 then s.metaBase
      else if off = 0x18#32 then s.metaCount else if off = 0x1C#32 then s.blobBase
      else if off = 0x20#32 then s.blobLen else 0#32 })

/-- A host write of the window other than to `CTRL` writes `CMD_PTR` when not BUSY and nothing else: read-only
registers, unlisted offsets and `CMD_PTR` while BUSY ignore it; an access that is not 32 bits wide is refused
(R24, R29). -/
def Obligations.RegisterWrites : Prop :=
  ∀ (s : State) (width : Nat) (off v : Word) (rest : List HostMove),
    s.hostMoves = .writeReg width off v :: rest →
    (width ≠ 4 → step s = .refused .hostRegisterAccessWidth) ∧
    (width = 4 → off ≠ 0#32 → (off ≠ 8#32 ∨ s.busy = true) → step s = .next { s with hostMoves := rest }) ∧
    (width = 4 → off = 8#32 → s.busy = false → step s = .next { s with hostMoves := rest, cmdPtr := v })

/-- The host may write and read a byte of `M` only while BUSY = 0; a byte written is the byte read, and no other
byte or register changes (R53, R64). Where the value read lands is the model's own (notes/assumptions/7.md). -/
def Obligations.HostMemoryAccess : Prop :=
  ∀ (s : State) (a : Word) (v : Byte) (rest : List HostMove), Memory.wf s.memBytes s.mem = true →
    (s.busy = true →
      step { s with hostMoves := .writeByte a v :: rest } = .refused .hostMemoryAccessWhileBusy ∧
      step { s with hostMoves := .readByte a :: rest } = .refused .hostMemoryAccessWhileBusy) ∧
    (s.busy = false → a.toNat < s.memBytes →
      (∃ t, step { s with hostMoves := .writeByte a v :: rest } = .next t ∧ readByte t.mem a.toNat = v ∧
        (∀ b, b ≠ a.toNat → readByte t.mem b = readByte s.mem b) ∧ t.hostMoves = rest ∧
        t.cmdPtr = s.cmdPtr ∧ s.sameFlags t ∧ s.sameRegistry t ∧ t.memBytes = s.memBytes ∧
        t.hostRead = s.hostRead) ∧
      step { s with hostMoves := .readByte a :: rest } =
        .next { s with hostMoves := rest, hostRead := BitVec.ofNat 32 (readByte s.mem a.toNat).toNat })

/-- Hardware reset, at any time, sets every register to 0 and can leave any memory (R280). That the contents are data
of the move is the model's choice (notes/assumptions/14.md). -/
def Obligations.HardwareReset : Prop :=
  ∀ (s : State) (mem : List Host.Cell) (rest : List HostMove), s.hostMoves = .hardwareReset mem :: rest →
    Memory.wf s.memBytes mem = true →
    ∃ t, step s = .next t ∧ t.registersZero ∧ t.mem = mem ∧ t.memBytes = s.memBytes ∧ t.hostMoves = rest ∧
      t.hostRead = s.hostRead

/-- The host's ranking holds every class once with its own probability, by descending probability, equal
probabilities by ascending index (R233). -/
def Obligations.RankingIsStableDescending : Prop :=
  ∀ probs : List F32, (∀ p ∈ probs, ¬ Ref.nan p) →
    ((ranking probs).map (·.2)).Perm (List.range probs.length) ∧
    (∀ p ∈ ranking probs, probs[p.2]? = some p.1) ∧
    (ranking probs).Pairwise fun p q => fgt p.1 q.1 = true ∨ (fgt q.1 p.1 = false ∧ p.2 < q.2)
end

