-- ==== Sys2Proof/Laws/Memory.lean ====
section
/-! SUPPORT. The laws of memory: the canonical form is kept by every write, a read after a write, and what a
run of byte writes leaves. -/

namespace Sys2Proof.Machine

/-! ### The canonical form -/

theorem wfFrom_mono {size lo lo' : Nat} (h : lo' ≤ lo) {mem : List Host.Cell} (hw : wfFrom size lo mem = true) :
    wfFrom size lo' mem = true := by
  cases mem with
  | nil => rfl
  | cons c rest =>
    simp only [wfFrom, Bool.and_eq_true, decide_eq_true_eq] at hw ⊢
    exact ⟨⟨⟨h.trans hw.1.1.1, hw.1.1.2⟩, hw.1.2⟩, hw.2⟩

theorem wfFrom_consByte {size lo a : Nat} {v : Byte} {rest : List Host.Cell} (ha : lo ≤ a) (hs : a < size)
    (hr : wfFrom size (a + 1) rest = true) : wfFrom size lo (consByte a v rest) = true := by
  unfold consByte
  split
  · exact wfFrom_mono (by omega) hr
  · rename_i hv
    simp only [wfFrom, Bool.and_eq_true, decide_eq_true_eq]
    exact ⟨⟨⟨ha, hs⟩, by simpa using hv⟩, hr⟩

theorem wfFrom_writeByte {size a : Nat} (hs : a < size) (v : Byte) :
    ∀ {lo : Nat} {mem : List Host.Cell}, lo ≤ a → wfFrom size lo mem = true →
      wfFrom size lo (writeByte mem a v) = true := by
  intro lo mem
  induction mem generalizing lo with
  | nil => intro ha _; exact wfFrom_consByte ha hs rfl
  | cons c rest ih =>
    intro ha hw
    have hw' := hw
    simp only [wfFrom, Bool.and_eq_true, decide_eq_true_eq] at hw'
    unfold writeByte
    split
    · rename_i hlt
      refine wfFrom_consByte ha hs ?_
      simp only [wfFrom, Bool.and_eq_true, decide_eq_true_eq]
      exact ⟨⟨⟨by omega, hw'.1.1.2⟩, hw'.1.2⟩, hw'.2⟩
    · split
      · rename_i _ heq
        have : a = c.1 := by simpa using heq
        exact wfFrom_consByte ha hs (this ▸ hw'.2)
      · rename_i hlt hne
        have hne' : a ≠ c.1 := by simpa using hne
        simp only [wfFrom, Bool.and_eq_true, decide_eq_true_eq]
        exact ⟨⟨⟨hw'.1.1.1, hw'.1.1.2⟩, hw'.1.2⟩, ih (by omega) hw'.2⟩

/-- A byte write inside memory keeps the canonical form. -/
theorem wf_writeByte {size a : Nat} {mem : List Host.Cell} (hw : Memory.wf size mem = true) (ha : a < size)
    (v : Byte) : Memory.wf size (writeByte mem a v) = true :=
  wfFrom_writeByte ha v (Nat.zero_le a) hw

/-- A run of byte writes inside memory keeps the canonical form. -/
theorem wf_writeBytes {size : Nat} (bs : List Byte) : ∀ {a : Nat} {mem : List Host.Cell},
    Memory.wf size mem = true → a + bs.length ≤ size → Memory.wf size (writeBytes mem a bs) = true := by
  induction bs with
  | nil => intro a mem hw _; exact hw
  | cons b bs ih =>
    intro a mem hw ha
    simp only [List.length_cons] at ha
    exact ih (wf_writeByte hw (by omega) b) (by omega)

/-- Memory built from a list of cells is in canonical form. -/
theorem wf_memoryOf (size : Nat) (cells : List Host.Cell) : Memory.wf size (memoryOf size cells) = true := by
  suffices h : ∀ (cells : List Host.Cell) (mem : List Host.Cell), Memory.wf size mem = true →
      Memory.wf size (cells.foldl (fun m c => if c.1 < size then writeByte m c.1 c.2 else m) mem) = true from
    h cells [] rfl
  intro cells
  induction cells with
  | nil => intro mem h; exact h
  | cons c cells ih =>
    intro mem h
    refine ih _ ?_
    by_cases hc : c.1 < size
    · simpa only [hc, if_true] using wf_writeByte h hc c.2
    · simpa only [hc, if_false] using h

/-! ### Reads -/

theorem readByte_of_lt {size lo a : Nat} {mem : List Host.Cell} (hw : wfFrom size lo mem = true) (h : a < lo) :
    readByte mem a = unlistedByte := by
  cases mem with
  | nil => rfl
  | cons c rest =>
    simp only [wfFrom, Bool.and_eq_true, decide_eq_true_eq] at hw
    have : a < c.1 := by omega
    simp [readByte, this]

theorem readByte_consByte {size a b : Nat} {v : Byte} {rest : List Host.Cell}
    (hr : wfFrom size (a + 1) rest = true) :
    readByte (consByte a v rest) b = if b = a then v else readByte rest b := by
  unfold consByte
  split
  · rename_i hv
    have hv' : v = unlistedByte := by simpa using hv
    split
    · rename_i h; subst h; rw [hv']; exact readByte_of_lt hr (Nat.lt_succ_self _)
    · rfl
  · rw [readByte]
    by_cases h1 : b < a
    · have : b ≠ a := by omega
      simp only [h1, this, if_true, if_false, readByte_of_lt hr (by omega : b < a + 1)]
    · by_cases h2 : b = a
      · simp [h2]
      · simp [h1, h2]

theorem readByte_writeByte_from {size a : Nat} (v : Byte) (b : Nat) :
    ∀ {lo : Nat} {mem : List Host.Cell}, wfFrom size lo mem = true →
      readByte (writeByte mem a v) b = if b = a then v else readByte mem b := by
  intro lo mem
  induction mem generalizing lo with
  | nil => intro _; rw [writeByte, readByte_consByte (size := size) rfl]
  | cons c rest ih =>
    intro hw
    have hw' := hw
    simp only [wfFrom, Bool.and_eq_true, decide_eq_true_eq] at hw'
    unfold writeByte
    split
    · rename_i hlt
      rw [readByte_consByte (size := size)]
      simp only [wfFrom, Bool.and_eq_true, decide_eq_true_eq]
      exact ⟨⟨⟨by omega, hw'.1.1.2⟩, hw'.1.2⟩, hw'.2⟩
    · split
      · rename_i _ heq
        have hac : a = c.1 := by simpa using heq
        rw [readByte_consByte (size := size) (hac ▸ hw'.2)]
        split
        · rfl
        · rename_i hne
          rw [readByte]
          split
          · rename_i hlt; exact readByte_of_lt hw'.2 (by omega)
          · split
            · rename_i h; exact absurd (by simpa using h) (hac ▸ hne)
            · rfl
      · rename_i hlt hne
        have hne' : a ≠ c.1 := by simpa using hne
        rw [readByte, readByte, ih hw'.2]
        by_cases h1 : b < c.1
        · have : b ≠ a := by omega
          simp [h1, this]
        · by_cases h2 : b = c.1
          · have : b ≠ a := by omega
            simp [h2, h2 ▸ this]
          · simp [h1, h2]

/-- A read after a byte write: the byte written there, every other byte as before. -/
theorem readByte_writeByte {size : Nat} {mem : List Host.Cell} (hw : Memory.wf size mem = true) (a b : Nat)
    (v : Byte) : readByte (writeByte mem a v) b = if b = a then v else readByte mem b :=
  readByte_writeByte_from v b hw

/-- A read after a run of byte writes: the byte written there, every byte outside the run as before. -/
theorem readByte_writeBytes {size : Nat} (bs : List Byte) (b : Nat) : ∀ {a : Nat} {mem : List Host.Cell},
    Memory.wf size mem = true → a + bs.length ≤ size →
      readByte (writeBytes mem a bs) b =
        if a ≤ b ∧ b < a + bs.length then bs.getD (b - a) unlistedByte else readByte mem b := by
  induction bs with
  | nil =>
    intro a mem _ _
    rw [writeBytes, if_neg (by simp only [List.length_nil]; omega)]
  | cons v vs ih =>
    intro a mem hw ha
    simp only [List.length_cons] at ha
    rw [writeBytes, ih (wf_writeByte hw (by omega) v) (by omega), readByte_writeByte hw]
    simp only [List.length_cons]
    by_cases h1 : b = a
    · subst h1; simp
    · by_cases h2 : a + 1 ≤ b ∧ b < a + 1 + vs.length
      · have h3 : a ≤ b ∧ b < a + (vs.length + 1) := by omega
        have h4 : b - a = (b - (a + 1)) + 1 := by omega
        simp only [h2, h3, and_self, if_true, h4, List.getD_cons_succ]
      · have h3 : ¬ (a ≤ b ∧ b < a + (vs.length + 1)) := by omega
        rw [if_neg h2, if_neg h1, if_neg h3]

/-- Bytes outside a run of writes are unchanged. -/
theorem readByte_writeBytes_outside {size : Nat} {bs : List Byte} {a b : Nat} {mem : List Host.Cell}
    (hw : Memory.wf size mem = true) (ha : a + bs.length ≤ size) (hb : b < a ∨ a + bs.length ≤ b) :
    readByte (writeBytes mem a bs) b = readByte mem b := by
  rw [readByte_writeBytes bs b hw ha, if_neg (by omega)]

/-- Byte `k` of a run of writes. -/
theorem readByte_writeBytes_inside {size : Nat} {bs : List Byte} {a k : Nat} {mem : List Host.Cell}
    (hw : Memory.wf size mem = true) (ha : a + bs.length ≤ size) (hk : k < bs.length) :
    readByte (writeBytes mem a bs) (a + k) = bs[k] := by
  rw [readByte_writeBytes bs (a + k) hw ha, if_pos (by omega)]
  simp [List.getD, hk]

/-- Reading back a run of writes gives the bytes written. -/
theorem readBytes_writeBytes {size : Nat} {bs : List Byte} {a : Nat} {mem : List Host.Cell}
    (hw : Memory.wf size mem = true) (ha : a + bs.length ≤ size) :
    readBytes (writeBytes mem a bs) a bs.length = bs := by
  apply List.ext_getElem
  · simp [readBytes]
  · intro k h1 h2
    simp [readBytes, readByte_writeBytes_inside hw ha h2]

@[simp] theorem readBytes_length (mem : List Host.Cell) (a n : Nat) : (readBytes mem a n).length = n := by
  simp [readBytes]

/-- A word read depends on its four bytes alone. -/
theorem readWord_congr {mem mem' : List Host.Cell} {a : Nat}
    (h : ∀ k < 4, readByte mem (a + k) = readByte mem' (a + k)) : readWord mem a = readWord mem' a := by
  have h0 := h 0 (by omega)
  have h1 := h 1 (by omega)
  have h2 := h 2 (by omega)
  have h3 := h 3 (by omega)
  simp only [Nat.add_zero] at h0
  simp only [readWord, h0, h1, h2, h3]

end Sys2Proof.Machine
end

