-- ==== Sys2Proof/Laws/State.lean ====
section
/-! SUPPORT. One lemma per field of State and per named update of it: what the update writes, and that it
leaves every other field. -/

namespace Sys2Proof.Machine

@[simp] theorem raise_memBytes (e : EngineError) (s : State) : (raise e s).memBytes = s.memBytes := rfl
@[simp] theorem raise_mem (e : EngineError) (s : State) : (raise e s).mem = s.mem := rfl
@[simp] theorem raise_status (e : EngineError) (s : State) : (raise e s).status = errorStatus s.status := rfl
@[simp] theorem raise_cmdPtr (e : EngineError) (s : State) : (raise e s).cmdPtr = s.cmdPtr := rfl
@[simp] theorem raise_errCode (e : EngineError) (s : State) : (raise e s).errCode = errorCode e := rfl
@[simp] theorem raise_errPc (e : EngineError) (s : State) : (raise e s).errPc = s.cmdPtr := rfl
@[simp] theorem raise_metaBase (e : EngineError) (s : State) : (raise e s).metaBase = s.metaBase := rfl
@[simp] theorem raise_metaCount (e : EngineError) (s : State) : (raise e s).metaCount = s.metaCount := rfl
@[simp] theorem raise_blobBase (e : EngineError) (s : State) : (raise e s).blobBase = s.blobBase := rfl
@[simp] theorem raise_blobLen (e : EngineError) (s : State) : (raise e s).blobLen = s.blobLen := rfl
@[simp] theorem raise_hostMoves (e : EngineError) (s : State) : (raise e s).hostMoves = s.hostMoves := rfl
@[simp] theorem raise_hostRead (e : EngineError) (s : State) : (raise e s).hostRead = s.hostRead := rfl

@[simp] theorem advance_memBytes (s : State) : s.advance.memBytes = s.memBytes := rfl
@[simp] theorem advance_mem (s : State) : s.advance.mem = s.mem := rfl
@[simp] theorem advance_status (s : State) : s.advance.status = s.status := rfl
@[simp] theorem advance_cmdPtr (s : State) : s.advance.cmdPtr = s.cmdPtr + 32#32 := rfl
@[simp] theorem advance_errCode (s : State) : s.advance.errCode = s.errCode := rfl
@[simp] theorem advance_errPc (s : State) : s.advance.errPc = s.errPc := rfl
@[simp] theorem advance_metaBase (s : State) : s.advance.metaBase = s.metaBase := rfl
@[simp] theorem advance_metaCount (s : State) : s.advance.metaCount = s.metaCount := rfl
@[simp] theorem advance_blobBase (s : State) : s.advance.blobBase = s.blobBase := rfl
@[simp] theorem advance_blobLen (s : State) : s.advance.blobLen = s.blobLen := rfl
@[simp] theorem advance_hostMoves (s : State) : s.advance.hostMoves = s.hostMoves := rfl
@[simp] theorem advance_hostRead (s : State) : s.advance.hostRead = s.hostRead := rfl

@[simp] theorem store_memBytes (s : State) (a : Nat) (bs : List Byte) : (s.store a bs).memBytes = s.memBytes := rfl
@[simp] theorem store_mem (s : State) (a : Nat) (bs : List Byte) : (s.store a bs).mem = writeBytes s.mem a bs := rfl
@[simp] theorem store_status (s : State) (a : Nat) (bs : List Byte) : (s.store a bs).status = s.status := rfl
@[simp] theorem store_cmdPtr (s : State) (a : Nat) (bs : List Byte) : (s.store a bs).cmdPtr = s.cmdPtr := rfl
@[simp] theorem store_errCode (s : State) (a : Nat) (bs : List Byte) : (s.store a bs).errCode = s.errCode := rfl
@[simp] theorem store_errPc (s : State) (a : Nat) (bs : List Byte) : (s.store a bs).errPc = s.errPc := rfl
@[simp] theorem store_metaBase (s : State) (a : Nat) (bs : List Byte) : (s.store a bs).metaBase = s.metaBase := rfl
@[simp] theorem store_metaCount (s : State) (a : Nat) (bs : List Byte) : (s.store a bs).metaCount = s.metaCount := rfl
@[simp] theorem store_blobBase (s : State) (a : Nat) (bs : List Byte) : (s.store a bs).blobBase = s.blobBase := rfl
@[simp] theorem store_blobLen (s : State) (a : Nat) (bs : List Byte) : (s.store a bs).blobLen = s.blobLen := rfl
@[simp] theorem store_hostMoves (s : State) (a : Nat) (bs : List Byte) : (s.store a bs).hostMoves = s.hostMoves := rfl
@[simp] theorem store_hostRead (s : State) (a : Nat) (bs : List Byte) : (s.store a bs).hostRead = s.hostRead := rfl

@[simp] theorem start_memBytes (s : State) : s.start.memBytes = s.memBytes := rfl
@[simp] theorem start_mem (s : State) : s.start.mem = s.mem := rfl
@[simp] theorem start_status (s : State) : s.start.status = startStatus s.status := rfl
@[simp] theorem start_cmdPtr (s : State) : s.start.cmdPtr = s.cmdPtr := rfl
@[simp] theorem start_errCode (s : State) : s.start.errCode = 0 := rfl
@[simp] theorem start_errPc (s : State) : s.start.errPc = 0 := rfl
@[simp] theorem start_metaBase (s : State) : s.start.metaBase = s.metaBase := rfl
@[simp] theorem start_metaCount (s : State) : s.start.metaCount = s.metaCount := rfl
@[simp] theorem start_blobBase (s : State) : s.start.blobBase = s.blobBase := rfl
@[simp] theorem start_blobLen (s : State) : s.start.blobLen = s.blobLen := rfl
@[simp] theorem start_hostMoves (s : State) : s.start.hostMoves = s.hostMoves := rfl
@[simp] theorem start_hostRead (s : State) : s.start.hostRead = s.hostRead := rfl

@[simp] theorem softReset_memBytes (s : State) : s.softReset.memBytes = s.memBytes := rfl
@[simp] theorem softReset_mem (s : State) : s.softReset.mem = s.mem := rfl
@[simp] theorem softReset_status (s : State) : s.softReset.status = 0 := rfl
@[simp] theorem softReset_cmdPtr (s : State) : s.softReset.cmdPtr = 0 := rfl
@[simp] theorem softReset_errCode (s : State) : s.softReset.errCode = 0 := rfl
@[simp] theorem softReset_errPc (s : State) : s.softReset.errPc = 0 := rfl
@[simp] theorem softReset_metaBase (s : State) : s.softReset.metaBase = 0 := rfl
@[simp] theorem softReset_metaCount (s : State) : s.softReset.metaCount = 0 := rfl
@[simp] theorem softReset_blobBase (s : State) : s.softReset.blobBase = 0 := rfl
@[simp] theorem softReset_blobLen (s : State) : s.softReset.blobLen = 0 := rfl
@[simp] theorem softReset_hostMoves (s : State) : s.softReset.hostMoves = s.hostMoves := rfl
@[simp] theorem softReset_hostRead (s : State) : s.softReset.hostRead = s.hostRead := rfl

@[simp] theorem hardwareReset_memBytes (s : State) (cells : List Host.Cell) : (s.hardwareReset cells).memBytes = s.memBytes := rfl
@[simp] theorem hardwareReset_mem (s : State) (cells : List Host.Cell) : (s.hardwareReset cells).mem = memoryOf s.memBytes cells := rfl
@[simp] theorem hardwareReset_status (s : State) (cells : List Host.Cell) : (s.hardwareReset cells).status = 0 := rfl
@[simp] theorem hardwareReset_cmdPtr (s : State) (cells : List Host.Cell) : (s.hardwareReset cells).cmdPtr = 0 := rfl
@[simp] theorem hardwareReset_errCode (s : State) (cells : List Host.Cell) : (s.hardwareReset cells).errCode = 0 := rfl
@[simp] theorem hardwareReset_errPc (s : State) (cells : List Host.Cell) : (s.hardwareReset cells).errPc = 0 := rfl
@[simp] theorem hardwareReset_metaBase (s : State) (cells : List Host.Cell) : (s.hardwareReset cells).metaBase = 0 := rfl
@[simp] theorem hardwareReset_metaCount (s : State) (cells : List Host.Cell) : (s.hardwareReset cells).metaCount = 0 := rfl
@[simp] theorem hardwareReset_blobBase (s : State) (cells : List Host.Cell) : (s.hardwareReset cells).blobBase = 0 := rfl
@[simp] theorem hardwareReset_blobLen (s : State) (cells : List Host.Cell) : (s.hardwareReset cells).blobLen = 0 := rfl
@[simp] theorem hardwareReset_hostMoves (s : State) (cells : List Host.Cell) : (s.hardwareReset cells).hostMoves = s.hostMoves := rfl
@[simp] theorem hardwareReset_hostRead (s : State) (cells : List Host.Cell) : (s.hardwareReset cells).hostRead = s.hostRead := rfl

@[simp] theorem latchRegistry_memBytes (s : State) (m : MetaOperands) : (s.latchRegistry m).memBytes = s.memBytes := rfl
@[simp] theorem latchRegistry_mem (s : State) (m : MetaOperands) : (s.latchRegistry m).mem = s.mem := rfl
@[simp] theorem latchRegistry_status (s : State) (m : MetaOperands) : (s.latchRegistry m).status = s.status := rfl
@[simp] theorem latchRegistry_cmdPtr (s : State) (m : MetaOperands) : (s.latchRegistry m).cmdPtr = s.cmdPtr := rfl
@[simp] theorem latchRegistry_errCode (s : State) (m : MetaOperands) : (s.latchRegistry m).errCode = s.errCode := rfl
@[simp] theorem latchRegistry_errPc (s : State) (m : MetaOperands) : (s.latchRegistry m).errPc = s.errPc := rfl
@[simp] theorem latchRegistry_metaBase (s : State) (m : MetaOperands) : (s.latchRegistry m).metaBase = m.metaAddr := rfl
@[simp] theorem latchRegistry_metaCount (s : State) (m : MetaOperands) : (s.latchRegistry m).metaCount = BitVec.ofNat 32 (m.metaLen.toNat / 16) := rfl
@[simp] theorem latchRegistry_blobBase (s : State) (m : MetaOperands) : (s.latchRegistry m).blobBase = m.blobAddr := rfl
@[simp] theorem latchRegistry_blobLen (s : State) (m : MetaOperands) : (s.latchRegistry m).blobLen = m.blobLen := rfl
@[simp] theorem latchRegistry_hostMoves (s : State) (m : MetaOperands) : (s.latchRegistry m).hostMoves = s.hostMoves := rfl
@[simp] theorem latchRegistry_hostRead (s : State) (m : MetaOperands) : (s.latchRegistry m).hostRead = s.hostRead := rfl

/-! ### The range test and the flags read only what they name -/

@[simp] theorem inRange_eq_true (s : State) (a n : Nat) : s.inRange a n = true ↔ a + n ≤ s.memBytes := by
  simp [State.inRange]

@[simp] theorem inRange_eq_false (s : State) (a n : Nat) : s.inRange a n = false ↔ s.memBytes < a + n := by
  simp [State.inRange]

theorem inRange_congr {s t : State} (h : t.memBytes = s.memBytes) (a n : Nat) : t.inRange a n = s.inRange a n := by
  simp [State.inRange, h]

theorem busy_congr {s t : State} (h : t.status = s.status) : t.busy = s.busy := by simp [State.busy, h]

/-! ### What the three events do to the three status bits -/

theorem startStatus_of_legal {s : State} (h : s.statusLegal) : startStatus s.status = busyBit := by
  rcases h with h | h | h | h <;> simp [h] <;> decide

theorem endStatus_of_busy : endStatus busyBit = doneBit := by decide

theorem errorStatus_of_busy : errorStatus busyBit = errBit := by decide

@[simp] theorem raise_busy (e : EngineError) (s : State) : (raise e s).busy = false := by
  simp [State.busy, errorStatus, clearBits, setBits, busyBit]

@[simp] theorem raise_err (e : EngineError) (s : State) : (raise e s).err = true := by
  simp [State.err, errorStatus, clearBits, setBits, busyBit, errBit]

@[simp] theorem start_busy (s : State) : s.start.busy = true := by
  simp [State.busy, startStatus, clearBits, setBits, busyBit]

@[simp] theorem softReset_busy (s : State) : s.softReset.busy = false := by simp [State.busy]

end Sys2Proof.Machine
end

