-- ==== Sys2Proof/Laws/Outcome.lean ====
section
/-! SUPPORT. What each check, each operand read and each command's result can be: one lemma for every shared
operation, so that later proofs cite it and unfold nothing. -/

namespace Sys2Proof.Machine

/-! ### Sequences of checks -/

theorem bind_ok_iff {α β : Type} {x : Except Stop α} {f : α → Except Stop β} {r : β} :
    (x >>= f) = .ok r ↔ ∃ a, x = .ok a ∧ f a = .ok r := by
  cases x with
  | error e => constructor <;> (intro h; simp [bind, Except.bind] at h)
  | ok a => exact ⟨fun h => ⟨a, rfl, h⟩, fun ⟨b, hb, h⟩ => by cases hb; exact h⟩

theorem bind_error_iff {α β : Type} {x : Except Stop α} {f : α → Except Stop β} {e : Stop} :
    (x >>= f) = .error e ↔ x = .error e ∨ ∃ a, x = .ok a ∧ f a = .error e := by
  cases x with
  | error e' => simp [bind, Except.bind]
  | ok a => simp [bind, Except.bind]

@[simp] theorem pure_eq_ok {α : Type} (a : α) : (pure a : Except Stop α) = .ok a := rfl

@[simp] theorem ok_bind {α β : Type} (a : α) (f : α → Except Stop β) : ((.ok a : Except Stop α) >>= f) = f a := rfl

@[simp] theorem error_bind {α β : Type} (e : Stop) (f : α → Except Stop β) :
    ((.error e : Except Stop α) >>= f) = .error e := rfl

@[simp] theorem require_true (e : EngineError) : require true e = .ok () := rfl

@[simp] theorem require_false (e : EngineError) : require false e = .error (.error e) := rfl

@[simp] theorem precondition_true (r : Refusal) : precondition true r = .ok () := rfl

@[simp] theorem precondition_false (r : Refusal) : precondition false r = .error (.refuse r) := rfl

theorem require_ok_iff {c : Bool} {e : EngineError} {u : Unit} : require c e = .ok u ↔ c = true := by
  cases c <;> simp

theorem require_error_iff {c : Bool} {e : EngineError} {x : Stop} :
    require c e = .error x ↔ c = false ∧ x = .error e := by
  cases c <;> simp [eq_comm]

theorem precondition_ok_iff {c : Bool} {r : Refusal} {u : Unit} : precondition c r = .ok u ↔ c = true := by
  cases c <;> simp

theorem precondition_error_iff {c : Bool} {r : Refusal} {x : Stop} :
    precondition c r = .error x ↔ c = false ∧ x = .refuse r := by
  cases c <;> simp [eq_comm]

theorem insideMemory_ok_iff {s : State} {a n : Nat} {u : Unit} :
    s.insideMemory a n = .ok u ↔ a + n ≤ s.memBytes := by
  simp only [State.insideMemory, State.inRange, decide_eq_true_eq]
  split <;> simp_all

theorem insideMemory_error_iff {s : State} {a n : Nat} {x : Stop} :
    s.insideMemory a n = .error x ↔ s.memBytes < a + n ∧ x = .fault .outsideMemory := by
  simp only [State.insideMemory, State.inRange, decide_eq_true_eq]
  split <;> simp_all [eq_comm]

/-! ### Outcomes -/

@[simp] theorem conclude_ok (s t : State) : s.conclude (.ok t) = .next t := rfl

@[simp] theorem conclude_error (s : State) (e : EngineError) : s.conclude (.error (.error e)) = .next (raise e s) :=
  rfl

@[simp] theorem conclude_fault (s : State) (f : Fault) : s.conclude (.error (.fault f)) = .fault f := rfl

@[simp] theorem conclude_refuse (s : State) (r : Refusal) : s.conclude (.error (.refuse r)) = .refused r := rfl

/-- A command's next state is its result, or error entry from the state it began in. -/
theorem conclude_next {s t : State} {r : Except Stop State} (h : s.conclude r = .next t) :
    r = .ok t ∨ ∃ e, r = .error (.error e) ∧ t = raise e s := by
  match r, h with
  | .ok _, h => cases h; exact .inl rfl
  | .error (.error e), h => cases h; exact .inr ⟨e, rfl, rfl⟩

theorem conclude_eq_fault {s : State} {r : Except Stop State} {f : Fault} (h : s.conclude r = .fault f) :
    r = .error (.fault f) := by
  match r, h with
  | .error (.fault _), h => cases h; rfl

theorem conclude_eq_refused {s : State} {r : Except Stop State} {q : Refusal} (h : s.conclude r = .refused q) :
    r = .error (.refuse q) := by
  match r, h with
  | .error (.refuse _), h => cases h; rfl

/-! ### Lists of results -/

theorem collect_ok {α : Type} {f : α → Except Stop Byte} : ∀ {l : List α} {bs : List Byte},
    collect f l = .ok bs → bs.length = l.length ∧ ∀ k (h : k < l.length) (h' : k < bs.length), f l[k] = .ok bs[k]
  | [], bs, h => by
    cases h
    exact ⟨rfl, fun k hk => absurd hk (Nat.not_lt_zero k)⟩
  | a :: rest, bs, h => by
    simp only [collect] at h
    split at h
    · cases h
    · rename_i b hb
      split at h
      · cases h
      · rename_i bs' hbs
        cases h
        obtain ⟨h1, h2⟩ := collect_ok hbs
        refine ⟨by simp [h1], fun k hk hk' => ?_⟩
        cases k with
        | zero => exact hb
        | succ k => exact h2 k (by simpa using hk) (by simpa using hk')

theorem collect_complete {α : Type} {f : α → Except Stop Byte} : ∀ {l : List α},
    (∀ a ∈ l, ∃ b, f a = .ok b) → ∃ bs, collect f l = .ok bs
  | [], _ => ⟨[], rfl⟩
  | a :: rest, h => by
    obtain ⟨b, hb⟩ := h a (by simp)
    obtain ⟨bs, hbs⟩ := collect_complete (l := rest) (fun x hx => h x (by simp [hx]))
    exact ⟨b :: bs, by simp [collect, hb, hbs]⟩

/-- A list of results that stops, stops as one of them does. -/
theorem collect_error {α : Type} {f : α → Except Stop Byte} {x : Stop} : ∀ {l : List α},
    collect f l = .error x → ∃ a ∈ l, f a = .error x
  | [], h => by cases h
  | a :: rest, h => by
    simp only [collect] at h
    split at h
    · rename_i e he; cases h; exact ⟨a, by simp, he⟩
    · split at h
      · rename_i e he
        cases h
        obtain ⟨c, hc, hf⟩ := collect_error he
        exact ⟨c, by simp [hc], hf⟩
      · cases h

/-! ### Operands -/

theorem readDesc_ok_iff {s : State} {d : Word} {t : TensorDesc} :
    readDesc s d = .ok t ↔ d.toNat + 24 ≤ s.memBytes ∧ descPositive s.mem d.toNat = true ∧
      (descFields s.mem d.toNat).data + (descFields s.mem d.toNat).size ≤ s.memBytes ∧
      t = descFields s.mem d.toNat := by
  simp only [readDesc, bind_ok_iff, require_ok_iff, pure_eq_ok, State.inRange, decide_eq_true_eq]
  constructor
  · rintro ⟨_, h1, _, h2, _, h3, h4⟩; exact ⟨h1, h2, h3, by cases h4; rfl⟩
  · rintro ⟨h1, h2, h3, h4⟩; exact ⟨(), h1, (), h2, (), h3, by rw [h4]⟩

/-- `ReadDesc` raises `InvalidDimensions` and nothing else. -/
theorem readDesc_error {s : State} {d : Word} {x : Stop} (h : readDesc s d = .error x) :
    x = .error .invalidDimensions := by
  simp only [readDesc, bind_error_iff, require_error_iff, pure_eq_ok] at h
  rcases h with ⟨_, h⟩ | ⟨_, _, ⟨_, h⟩ | ⟨_, _, ⟨_, h⟩ | ⟨_, _, h⟩⟩⟩
  · exact h
  · exact h
  · exact h
  · cases h

theorem descFields_pos {mem : List Host.Cell} {d : Nat} (h : descPositive mem d = true) :
    0 < (descFields mem d).height ∧ 0 < (descFields mem d).width ∧ 0 < (descFields mem d).channels := by
  simp only [descPositive, Bool.and_eq_true, decide_eq_true_eq] at h
  simp only [descFields]
  omega

theorem lookup_ok_iff {s : State} {pos : Word} {v : LayerView} :
    lookup s pos = .ok v ↔ pos.toNat < s.metaCount.toNat ∧ s.recordAddr pos + 16 ≤ s.memBytes ∧
      (readRecord s.mem (s.recordAddr pos)).fits s.blobLen.toNat = true ∧
      1 ≤ (readRecord s.mem (s.recordAddr pos)).bitWidth ∧ (readRecord s.mem (s.recordAddr pos)).bitWidth ≤ 8 ∧
      v.wbase + v.wlen ≤ s.memBytes ∧ v = s.viewOf (readRecord s.mem (s.recordAddr pos)) := by
  simp only [lookup, bind_ok_iff, require_ok_iff, insideMemory_ok_iff, pure_eq_ok, decide_eq_true_eq,
    Bool.and_eq_true]
  constructor
  · rintro ⟨_, h1, _, h2, _, h3, _, ⟨h4, h5⟩, _, h6, h7⟩
    cases h7
    exact ⟨h1, h2, h3, h4, h5, h6, rfl⟩
  · rintro ⟨h1, h2, h3, h4, h5, h6, h7⟩
    subst h7
    exact ⟨(), h1, (), h2, (), h3, (), ⟨h4, h5⟩, (), h6, rfl⟩

/-- What stops `Lookup`: the position, the record's region, its width, or a guard on a range outside memory. -/
theorem lookup_error {s : State} {pos : Word} {x : Stop} (h : lookup s pos = .error x) :
    (s.metaCount.toNat ≤ pos.toNat ∧ x = .error .metadataMalformed) ∨
    (pos.toNat < s.metaCount.toNat ∧
      ((s.memBytes < s.recordAddr pos + 16 ∧ x = .fault .outsideMemory) ∨
       ((readRecord s.mem (s.recordAddr pos)).fits s.blobLen.toNat = false ∧ x = .error .metadataMalformed) ∨
       ((readRecord s.mem (s.recordAddr pos)).fits s.blobLen.toNat = true ∧
        ((¬ (1 ≤ (readRecord s.mem (s.recordAddr pos)).bitWidth ∧
              (readRecord s.mem (s.recordAddr pos)).bitWidth ≤ 8) ∧ x = .error .unsupportedBitWidth) ∨
         (s.memBytes < (s.viewOf (readRecord s.mem (s.recordAddr pos))).wbase +
              (s.viewOf (readRecord s.mem (s.recordAddr pos))).wlen ∧ x = .fault .outsideMemory))))) := by
  simp only [lookup, bind_error_iff, require_error_iff, require_ok_iff, insideMemory_error_iff,
    insideMemory_ok_iff, pure_eq_ok, decide_eq_true_eq, decide_eq_false_iff_not, reduceCtorEq, and_false,
    exists_false, or_false] at h
  rcases h with ⟨h1, h⟩ | ⟨_, h1, ⟨h2, h⟩ | ⟨_, h2, ⟨h3, h⟩ | ⟨_, h3, ⟨h4, h⟩ | ⟨_, h4, h5, h⟩⟩⟩⟩
  · exact .inl ⟨by omega, h⟩
  · exact .inr ⟨h1, .inl ⟨h2, h⟩⟩
  · exact .inr ⟨h1, .inr (.inl ⟨h3, h⟩)⟩
  · refine .inr ⟨h1, .inr (.inr ⟨h3, .inl ⟨?_, h⟩⟩)⟩
    intro ⟨ha, hb⟩
    simp [ha, hb] at h4
  · exact .inr ⟨h1, .inr (.inr ⟨h3, .inr ⟨h5, h⟩⟩)⟩

theorem fits_iff {r : LayerRecord} {n : Nat} :
    r.fits n = true ↔ 0 ≤ r.byteOffset ∧ 0 ≤ r.byteLength ∧ r.byteOffset + r.byteLength ≤ n := by
  simp [LayerRecord.fits, and_assoc]

/-! ### Preconditions -/

theorem legalParams_ok_iff {scale : F32} {zp : Int} {u : Unit} :
    legalParams scale zp = .ok u ↔ f32FinitePositive scale = true ∧ legalZp zp = true := by
  simp only [legalParams, bind_ok_iff, precondition_ok_iff]
  exact ⟨fun ⟨_, h1, h2⟩ => ⟨h1, h2⟩, fun ⟨h1, h2⟩ => ⟨(), h1, h2⟩⟩

/-- Illegal parameters are refused, never an error or a fault. -/
theorem legalParams_error {scale : F32} {zp : Int} {x : Stop} (h : legalParams scale zp = .error x) :
    (f32FinitePositive scale = false ∧ x = .refuse .illegalScale) ∨
      (legalZp zp = false ∧ x = .refuse .illegalZeroPoint) := by
  simp only [legalParams, bind_error_iff, precondition_error_iff, precondition_ok_iff] at h
  rcases h with h | ⟨_, _, h⟩
  · exact .inl h
  · exact .inr h

theorem disjoint_iff {a b : Region} :
    a.disjoint b = true ↔ a.base + a.len ≤ b.base ∨ b.base + b.len ≤ a.base := by
  simp [Region.disjoint]

theorem noOverlap_ok_iff {w : Region} {rs : List Region} {u : Unit} :
    noOverlap w rs = .ok u ↔ ∀ r ∈ rs, w.disjoint r = true := by
  simp [noOverlap, precondition_ok_iff]

theorem noOverlap_error {w : Region} {rs : List Region} {x : Stop} (h : noOverlap w rs = .error x) :
    x = .refuse .regionOverlap := (precondition_error_iff.mp h).2

theorem convPreconditions_ok_iff {s : State} {c : ConvOperands} {p : ConvPlan} {n : Nat} {u : Unit} :
    convPreconditions s c p n = .ok u ↔
      (f32FinitePositive p.din.scale = true ∧ legalZp p.din.zp = true) ∧
      (f32FinitePositive p.dout.scale = true ∧ legalZp p.dout.zp = true) ∧
      (f32FinitePositive c.wScale = true ∧ legalZp (s32 c.wZp) = true) ∧
      ∀ r ∈ s.commonReads c.input c.output ++
          [⟨s.recordAddr c.layer, 16⟩, p.din.region, ⟨p.view.wbase, n⟩] ++
          (if c.hasBias then [⟨c.bias.toNat, 4 * p.dout.channels⟩] else []), p.dout.region.disjoint r = true := by
  simp only [convPreconditions, bind_ok_iff, legalParams_ok_iff, noOverlap_ok_iff]
  exact ⟨fun ⟨_, h1, _, h2, _, h3, h4⟩ => ⟨h1, h2, h3, h4⟩, fun ⟨h1, h2, h3, h4⟩ => ⟨(), h1, (), h2, (), h3, h4⟩⟩

/-- A breach of a convolution's preconditions is refused, never an error or a fault. -/
theorem convPreconditions_error {s : State} {c : ConvOperands} {p : ConvPlan} {n : Nat} {x : Stop}
    (h : convPreconditions s c p n = .error x) : ∃ r, x = .refuse r := by
  simp only [convPreconditions, bind_error_iff] at h
  rcases h with h | ⟨_, _, h | ⟨_, _, h | ⟨_, _, h⟩⟩⟩
  · rcases legalParams_error h with ⟨_, h⟩ | ⟨_, h⟩ <;> exact ⟨_, h⟩
  · rcases legalParams_error h with ⟨_, h⟩ | ⟨_, h⟩ <;> exact ⟨_, h⟩
  · rcases legalParams_error h with ⟨_, h⟩ | ⟨_, h⟩ <;> exact ⟨_, h⟩
  · exact ⟨_, noOverlap_error h⟩

theorem gapPreconditions_ok_iff {s : State} {t : TensorOperands} {p : TensorPlan} {u : Unit} :
    gapPreconditions s t p = .ok u ↔
      (f32FinitePositive p.din.scale = true ∧ legalZp p.din.zp = true) ∧
      (f32FinitePositive p.dout.scale = true ∧ legalZp p.dout.zp = true) ∧
      ∀ r ∈ s.commonReads t.input t.output ++ gapDataReads p, p.dout.region.disjoint r = true := by
  simp only [gapPreconditions, bind_ok_iff, legalParams_ok_iff, noOverlap_ok_iff]
  exact ⟨fun ⟨_, h1, _, h2, h3⟩ => ⟨h1, h2, h3⟩, fun ⟨h1, h2, h3⟩ => ⟨(), h1, (), h2, h3⟩⟩

theorem gapPreconditions_error {s : State} {t : TensorOperands} {p : TensorPlan} {x : Stop}
    (h : gapPreconditions s t p = .error x) : ∃ r, x = .refuse r := by
  simp only [gapPreconditions, bind_error_iff] at h
  rcases h with h | ⟨_, _, h | ⟨_, _, h⟩⟩
  · rcases legalParams_error h with ⟨_, h⟩ | ⟨_, h⟩ <;> exact ⟨_, h⟩
  · rcases legalParams_error h with ⟨_, h⟩ | ⟨_, h⟩ <;> exact ⟨_, h⟩
  · exact ⟨_, noOverlap_error h⟩

theorem softmaxPreconditions_ok_iff {s : State} {t : TensorOperands} {p : TensorPlan} {u : Unit} :
    softmaxPreconditions s t p = .ok u ↔
      (f32FinitePositive p.din.scale = true ∧ legalZp p.din.zp = true) ∧
      (f32FinitePositive p.dout.scale = true ∧ legalZp p.dout.zp = true) ∧
      ∀ r ∈ s.commonReads t.input t.output ++ [p.din.region], p.dout.region.disjoint r = true := by
  simp only [softmaxPreconditions, bind_ok_iff, legalParams_ok_iff, noOverlap_ok_iff]
  exact ⟨fun ⟨_, h1, _, h2, h3⟩ => ⟨h1, h2, h3⟩, fun ⟨h1, h2, h3⟩ => ⟨(), h1, (), h2, h3⟩⟩

theorem softmaxPreconditions_error {s : State} {t : TensorOperands} {p : TensorPlan} {x : Stop}
    (h : softmaxPreconditions s t p = .error x) : ∃ r, x = .refuse r := by
  simp only [softmaxPreconditions, bind_error_iff] at h
  rcases h with h | ⟨_, _, h | ⟨_, _, h⟩⟩
  · rcases legalParams_error h with ⟨_, h⟩ | ⟨_, h⟩ <;> exact ⟨_, h⟩
  · rcases legalParams_error h with ⟨_, h⟩ | ⟨_, h⟩ <;> exact ⟨_, h⟩
  · exact ⟨_, noOverlap_error h⟩

/-! ### Checks -/

theorem dwChecks_ok_iff {s : State} {c : ConvOperands} {p : ConvPlan} :
    dwChecks s c = .ok p ↔ lookup s c.layer = .ok p.view ∧ readDesc s c.input = .ok p.din ∧
      readDesc s c.output = .ok p.dout ∧
      (p.dout.height = p.din.height ∧ p.dout.width = p.din.width ∧ p.dout.channels = p.din.channels) ∧
      9 * p.din.channels ≤ p.view.wlen ∧
      (c.hasBias = true → c.bias.toNat + 4 * p.din.channels ≤ s.memBytes) := by
  simp only [dwChecks, bind_ok_iff, require_ok_iff, pure_eq_ok, decide_eq_true_eq, Bool.and_eq_true, beq_iff_eq,
    Bool.or_eq_true, Bool.not_eq_true', inRange_eq_true]
  constructor
  · rintro ⟨v, h1, din, h2, dout, h3, _, ⟨⟨h4, h5⟩, h6⟩, _, h7, _, h8, h9⟩
    cases h9
    exact ⟨h1, h2, h3, ⟨h4, h5, h6⟩, h7, fun hb => h8.resolve_left (by simp [hb])⟩
  · rintro ⟨h1, h2, h3, ⟨h4, h5, h6⟩, h7, h8⟩
    refine ⟨p.view, h1, p.din, h2, p.dout, h3, (), ⟨⟨h4, h5⟩, h6⟩, (), h7, (), ?_, rfl⟩
    cases hb : c.hasBias
    · exact .inl rfl
    · exact .inr (h8 hb)

theorem pwChecks_ok_iff {s : State} {c : ConvOperands} {p : ConvPlan} :
    pwChecks s c = .ok p ↔ lookup s c.layer = .ok p.view ∧ readDesc s c.input = .ok p.din ∧
      readDesc s c.output = .ok p.dout ∧ (p.dout.height = p.din.height ∧ p.dout.width = p.din.width) ∧
      p.dout.channels * p.din.channels ≤ p.view.wlen ∧
      (c.hasBias = true → c.bias.toNat + 4 * p.dout.channels ≤ s.memBytes) := by
  simp only [pwChecks, bind_ok_iff, require_ok_iff, pure_eq_ok, decide_eq_true_eq, Bool.and_eq_true, beq_iff_eq,
    Bool.or_eq_true, Bool.not_eq_true', inRange_eq_true]
  constructor
  · rintro ⟨v, h1, din, h2, dout, h3, _, ⟨h4, h5⟩, _, h7, _, h8, h9⟩
    cases h9
    exact ⟨h1, h2, h3, ⟨h4, h5⟩, h7, fun hb => h8.resolve_left (by simp [hb])⟩
  · rintro ⟨h1, h2, h3, ⟨h4, h5⟩, h7, h8⟩
    refine ⟨p.view, h1, p.din, h2, p.dout, h3, (), ⟨h4, h5⟩, (), h7, (), ?_, rfl⟩
    cases hb : c.hasBias
    · exact .inl rfl
    · exact .inr (h8 hb)

theorem gapChecks_ok_iff {s : State} {t : TensorOperands} {p : TensorPlan} :
    gapChecks s t = .ok p ↔ readDesc s t.input = .ok p.din ∧ readDesc s t.output = .ok p.dout ∧
      p.dout.height = 1 ∧ p.dout.width = 1 ∧ p.dout.channels = p.din.channels := by
  simp only [gapChecks, bind_ok_iff, require_ok_iff, pure_eq_ok, Bool.and_eq_true, beq_iff_eq]
  constructor
  · rintro ⟨din, h1, dout, h2, _, ⟨⟨h3, h4⟩, h5⟩, h6⟩
    cases h6
    exact ⟨h1, h2, h3, h4, h5⟩
  · rintro ⟨h1, h2, h3, h4, h5⟩
    exact ⟨p.din, h1, p.dout, h2, (), ⟨⟨h3, h4⟩, h5⟩, rfl⟩

theorem softmaxChecks_ok_iff {s : State} {t : TensorOperands} {p : TensorPlan} :
    softmaxChecks s t = .ok p ↔ readDesc s t.input = .ok p.din ∧ readDesc s t.output = .ok p.dout ∧
      (p.din.height = 1 ∧ p.din.width = 1) ∧
      (p.dout.height = 1 ∧ p.dout.width = 1 ∧ p.dout.channels = p.din.channels) ∧
      p.din.channels ≤ Config.softmaxCMax := by
  simp only [softmaxChecks, bind_ok_iff, require_ok_iff, pure_eq_ok, Bool.and_eq_true, beq_iff_eq,
    decide_eq_true_eq]
  constructor
  · rintro ⟨din, h1, dout, h2, _, h3, _, ⟨⟨h4, h5⟩, h6⟩, _, h7, h8⟩
    cases h8
    exact ⟨h1, h2, h3, ⟨h4, h5, h6⟩, h7⟩
  · rintro ⟨h1, h2, h3, ⟨h4, h5, h6⟩, h7⟩
    exact ⟨p.din, h1, p.dout, h2, (), h3, (), ⟨⟨h4, h5⟩, h6⟩, (), h7, rfl⟩

/-! ### Codes -/

/-- A requantization stops only on a NaN. -/
theorem requantize_error {real scale : F32} {zp : Int} {x : Stop} (h : requantize real scale zp = .error x) :
    f32IsNaN (fdiv real scale) = true ∧ x = .refuse .nanToRequantize := by
  simp only [requantize, codeOfQuotient] at h
  split at h
  · rename_i hn; cases h; exact ⟨hn, rfl⟩
  · split at h <;> cases h

theorem outputCode_error {relu6 : Bool} {real scale : F32} {zp : Int} {x : Stop}
    (h : outputCode relu6 real scale zp = .error x) :
    f32IsNaN (fdiv real scale) = true ∧ x = .refuse .nanToRequantize := by
  simp only [outputCode] at h
  split at h
  · rename_i e he; cases h; exact requantize_error he
  · cases h

theorem outputCode_ok_iff {relu6 : Bool} {real scale : F32} {zp : Int} {b : Byte} :
    outputCode relu6 real scale zp = .ok b ↔ ∃ q, requantize real scale zp = .ok q ∧
      b = byteOfCode (if relu6 then relu6Clamp q scale zp else q) := by
  simp only [outputCode]
  split
  · rename_i e he; simp [he]
  · rename_i q hq; simp [hq, eq_comm]

theorem accumulator_ok_iff {acc a : Int} :
    accumulator acc = .ok a ↔ (-2147483648 ≤ acc ∧ acc ≤ 2147483647) ∧ a = acc := by
  simp only [accumulator, bind_ok_iff, precondition_ok_iff, pure_eq_ok, Bool.and_eq_true, decide_eq_true_eq,
    Except.ok.injEq]
  exact ⟨fun ⟨_, h1, h2⟩ => ⟨h1, h2.symm⟩, fun ⟨h1, h2⟩ => ⟨(), h1, h2.symm⟩⟩

theorem convByte_ok_iff {mem : List Host.Cell} {c : ConvOperands} {din dout : TensorDesc} {ch : Nat} {acc : Int}
    {b : Byte} :
    convByte mem c din dout ch acc = .ok b ↔ (-2147483648 ≤ acc ∧ acc ≤ 2147483647) ∧
      outputCode c.relu6 (convReal mem c din ch acc) dout.scale dout.zp = .ok b := by
  simp only [convByte, bind_ok_iff, accumulator_ok_iff]
  exact ⟨fun ⟨_, ⟨h1, h2⟩, h3⟩ => ⟨h1, h2 ▸ h3⟩, fun ⟨h1, h3⟩ => ⟨acc, ⟨h1, rfl⟩, h3⟩⟩

/-- An element of a convolution is refused or computed; it raises no error and no fault. -/
theorem convByte_error {mem : List Host.Cell} {c : ConvOperands} {din dout : TensorDesc} {ch : Nat} {acc : Int}
    {x : Stop} (h : convByte mem c din dout ch acc = .error x) :
    (¬ (-2147483648 ≤ acc ∧ acc ≤ 2147483647) ∧ x = .refuse .accumulatorOverflow) ∨
      x = .refuse .nanToRequantize := by
  simp only [convByte, bind_error_iff, accumulator, precondition_error_iff] at h
  rcases h with (⟨h1, h2⟩ | ⟨_, _, h⟩) | ⟨_, _, h⟩
  · refine .inl ⟨?_, h2⟩
    intro ⟨ha, hb⟩
    simp [ha, hb] at h1
  · cases h
  · exact .inr (outputCode_error h).2

end Sys2Proof.Machine
end

