-- ==== Sys2Proof/Laws/Commands.lean ====
section
/-! SUPPORT. What each command's result can be (its plan, its bytes, where they go), how many bytes it
stores, and what can stop it. -/

namespace Sys2Proof.Machine

/-! ### The number of bytes stored -/

theorem tensorBytes_length {d : TensorDesc} {f : Nat → Nat → Nat → Except Stop Byte} {bs : List Byte}
    (h : tensorBytes d f = .ok bs) : bs.length = d.size := by
  simpa using (collect_ok h).1

/-- The position of an element in the data of its tensor (spec/20_memory.md R58). -/
theorem element_index {w c y x ch : Nat} (hx : x < w) (hc : ch < c) :
    ((y * w + x) * c + ch) / (w * c) = y ∧ ((y * w + x) * c + ch) / c % w = x ∧ ((y * w + x) * c + ch) % c = ch := by
  have hcpos : 0 < c := by omega
  have h1 : ((y * w + x) * c + ch) / c = y * w + x := by
    rw [Nat.add_comm, Nat.add_mul_div_right _ _ hcpos, Nat.div_eq_of_lt hc, Nat.zero_add]
  refine ⟨?_, ?_, ?_⟩
  · rw [Nat.mul_comm w c, ← Nat.div_div_eq_div_mul, h1, Nat.add_comm, Nat.add_mul_div_right _ _ (by omega),
      Nat.div_eq_of_lt hx, Nat.zero_add]
  · rw [h1, Nat.add_comm, Nat.add_mul_mod_self_right, Nat.mod_eq_of_lt hx]
  · rw [Nat.add_comm, Nat.add_mul_mod_self_right, Nat.mod_eq_of_lt hc]

theorem element_lt {h w c y x ch : Nat} (hy : y < h) (hx : x < w) (hc : ch < c) :
    (y * w + x) * c + ch < h * w * c := by
  have h1 : y * w + x + 1 ≤ h * w := by
    calc y * w + x + 1 ≤ y * w + w := by omega
      _ = (y + 1) * w := by ring
      _ ≤ h * w := Nat.mul_le_mul_right w hy
  calc (y * w + x) * c + ch < (y * w + x) * c + c := by omega
    _ = (y * w + x + 1) * c := by ring
    _ ≤ h * w * c := Nat.mul_le_mul_right c h1

/-- The byte of an element in the bytes of its tensor. -/
theorem tensorBytes_element {d : TensorDesc} {f : Nat → Nat → Nat → Except Stop Byte} {bs : List Byte}
    (h : tensorBytes d f = .ok bs) {y x ch : Nat} (hy : y < d.height) (hx : x < d.width) (hc : ch < d.channels)
    (hk : (y * d.width + x) * d.channels + ch < bs.length) :
    f y x ch = .ok bs[(y * d.width + x) * d.channels + ch] := by
  have hlt : (y * d.width + x) * d.channels + ch < d.size := element_lt hy hx hc
  have := (collect_ok h).2 _ (by simpa using hlt) hk
  obtain ⟨h1, h2, h3⟩ := element_index (y := y) hx hc
  simpa only [List.getElem_range, h1, h2, h3] using this

/-- The bytes of a tensor can be computed when each element can. -/
theorem tensorBytes_complete {d : TensorDesc} {f : Nat → Nat → Nat → Except Stop Byte}
    (h : ∀ y x ch, y < d.height → x < d.width → ch < d.channels → ∃ b, f y x ch = .ok b) :
    ∃ bs, tensorBytes d f = .ok bs := by
  refine collect_complete fun k hk => ?_
  have hk : k < d.height * d.width * d.channels := by simpa [TensorDesc.size] using hk
  have hc : 0 < d.channels := by
    rcases Nat.eq_zero_or_pos d.channels with h0 | h0
    · simp [h0] at hk
    · exact h0
  have hw : 0 < d.width := by
    rcases Nat.eq_zero_or_pos d.width with h0 | h0
    · simp [h0] at hk
    · exact h0
  refine h _ _ _ ?_ (Nat.mod_lt _ hw) (Nat.mod_lt _ hc)
  exact Nat.div_lt_of_lt_mul (by rw [Nat.mul_comm, ← Nat.mul_assoc]; exact hk)

/-! ### Results -/

theorem ldmetaResult_ok {s t : State} {m : MetaOperands} (h : ldmetaResult s m = .ok t) :
    ldmetaChecks s m = .ok () ∧ t = (s.latchRegistry m).advance := by
  simp only [ldmetaResult, bind_ok_iff, pure_eq_ok] at h
  obtain ⟨_, h1, h2⟩ := h
  exact ⟨h1, by cases h2; rfl⟩

theorem dwResult_ok {s t : State} {c : ConvOperands} (h : dwResult s c = .ok t) :
    ∃ p bs, dwChecks s c = .ok p ∧ convPreconditions s c p (9 * p.din.channels) = .ok () ∧
      dwBytes s.mem c p = .ok bs ∧ t = (s.store p.dout.data bs).advance := by
  simp only [dwResult, bind_ok_iff, pure_eq_ok] at h
  obtain ⟨p, h1, _, h2, bs, h3, h4⟩ := h
  exact ⟨p, bs, h1, h2, h3, by cases h4; rfl⟩

theorem pwResult_ok {s t : State} {c : ConvOperands} (h : pwResult s c = .ok t) :
    ∃ p bs, pwChecks s c = .ok p ∧ convPreconditions s c p (p.dout.channels * p.din.channels) = .ok () ∧
      pwBytes s.mem c p = .ok bs ∧ t = (s.store p.dout.data bs).advance := by
  simp only [pwResult, bind_ok_iff, pure_eq_ok] at h
  obtain ⟨p, h1, _, h2, bs, h3, h4⟩ := h
  exact ⟨p, bs, h1, h2, h3, by cases h4; rfl⟩

theorem gapResult_ok {s t : State} {o : TensorOperands} (h : gapResult s o = .ok t) :
    ∃ p bs, gapChecks s o = .ok p ∧ gapPreconditions s o p = .ok () ∧ gapBytes s.mem p = .ok bs ∧
      t = (s.store p.dout.data bs).advance := by
  simp only [gapResult, bind_ok_iff, pure_eq_ok] at h
  obtain ⟨p, h1, _, h2, bs, h3, h4⟩ := h
  exact ⟨p, bs, h1, h2, h3, by cases h4; rfl⟩

theorem softmaxResult_ok {s t : State} {o : TensorOperands} (h : softmaxResult s o = .ok t) :
    ∃ p bs, softmaxChecks s o = .ok p ∧ softmaxPreconditions s o p = .ok () ∧ softmaxBytes s.mem p = .ok bs ∧
      t = (s.store p.dout.data bs).advance := by
  simp only [softmaxResult, bind_ok_iff, pure_eq_ok] at h
  obtain ⟨p, h1, _, h2, bs, h3, h4⟩ := h
  exact ⟨p, bs, h1, h2, h3, by cases h4; rfl⟩

theorem gapBytes_length {mem : List Host.Cell} {p : TensorPlan} {bs : List Byte} (h : gapBytes mem p = .ok bs) :
    bs.length = p.din.channels := by simpa using (collect_ok h).1

theorem softmaxBytes_length {mem : List Host.Cell} {p : TensorPlan} {bs : List Byte}
    (h : softmaxBytes mem p = .ok bs) : bs.length = p.din.channels := by
  have := (collect_ok h).1
  simpa [softmaxExps, softmaxInputs] using this

/-! ### A command that computes never raises an error while it computes -/

theorem dwBytes_error {mem : List Host.Cell} {c : ConvOperands} {p : ConvPlan} {x : Stop}
    (h : dwBytes mem c p = .error x) : ∃ r, x = .refuse r := by
  obtain ⟨k, _, hk⟩ := collect_error h
  rcases convByte_error hk with ⟨_, h⟩ | h <;> exact ⟨_, h⟩

theorem pwBytes_error {mem : List Host.Cell} {c : ConvOperands} {p : ConvPlan} {x : Stop}
    (h : pwBytes mem c p = .error x) : ∃ r, x = .refuse r := by
  obtain ⟨k, _, hk⟩ := collect_error h
  rcases convByte_error hk with ⟨_, h⟩ | h <;> exact ⟨_, h⟩

theorem gapBytes_error {mem : List Host.Cell} {p : TensorPlan} {x : Stop} (h : gapBytes mem p = .error x) :
    ∃ r, x = .refuse r := by
  obtain ⟨k, _, hk⟩ := collect_error h
  exact ⟨_, (outputCode_error hk).2⟩

theorem softmaxBytes_error {mem : List Host.Cell} {p : TensorPlan} {x : Stop}
    (h : softmaxBytes mem p = .error x) : ∃ r, x = .refuse r := by
  obtain ⟨k, _, hk⟩ := collect_error h
  exact ⟨_, (outputCode_error hk).2⟩

/-! ### The record loop of `LDMETA` -/

theorem checkRecords_ok_iff {mem : List Host.Cell} {blobLen : Nat} : ∀ {n r : Nat} {prev : Option Int},
    checkRecords mem blobLen n r prev = .ok () ↔
      (∀ k < n, (readRecord mem (r + 16 * k)).fits blobLen = true) ∧
      (∀ p ∈ prev, 0 < n → p < (readRecord mem r).layerId) ∧
      (∀ k, k + 1 < n → (readRecord mem (r + 16 * k)).layerId < (readRecord mem (r + 16 * (k + 1))).layerId)
  | 0, r, prev => by simp [checkRecords]
  | n + 1, r, prev => by
    have ih := checkRecords_ok_iff (mem := mem) (blobLen := blobLen) (n := n) (r := r + 16)
      (prev := some (readRecord mem r).layerId)
    have hprev : prev.all (· < (readRecord mem r).layerId) = true ↔ ∀ p ∈ prev, p < (readRecord mem r).layerId := by
      cases prev <;> simp
    have hs : ∀ k, r + 16 + 16 * k = r + 16 * (k + 1) := fun k => by ring
    simp only [checkRecords, bind_ok_iff, require_ok_iff, ih, hprev, hs]
    constructor
    · rintro ⟨_, h1, _, h2, h3, h4, h5⟩
      refine ⟨fun k hk => ?_, fun p hp _ => h2 p hp, fun k hk => ?_⟩
      · cases k with
        | zero => simpa using h1
        | succ k => exact h3 k (by omega)
      · cases k with
        | zero => simpa using h4 _ rfl (by omega)
        | succ k => exact h5 k (by omega)
    · rintro ⟨h1, h2, h3⟩
      refine ⟨(), by simpa using h1 0 (by omega), (), fun p hp => h2 p hp (by omega),
        fun k hk => h1 (k + 1) (by omega), ?_, fun k hk => h3 (k + 1) (by omega)⟩
      intro p hp hn
      cases hp
      simpa using h3 0 (by omega)

/-- A table that fails its loop is `MetadataMalformed`. -/
theorem checkRecords_error {mem : List Host.Cell} {blobLen : Nat} {x : Stop} : ∀ {n r : Nat} {prev : Option Int},
    checkRecords mem blobLen n r prev = .error x → x = .error .metadataMalformed
  | 0, _, _, h => by cases h
  | n + 1, r, prev, h => by
    simp only [checkRecords, bind_error_iff, require_error_iff] at h
    rcases h with ⟨_, h⟩ | ⟨_, _, ⟨_, h⟩ | ⟨_, _, h⟩⟩
    · exact h
    · exact h
    · exact checkRecords_error h

end Sys2Proof.Machine
end

