-- ==== Sys2Proof/Laws/Decode.lean ====
section
/-! SUPPORT. The small laws of the encoding: the bytes of a word, the words of a command, the fields of a
first word. -/

namespace Sys2Proof

theorem wordOfBytes_byteOfWord (w : Word) :
    wordOfBytes (byteOfWord w 0) (byteOfWord w 1) (byteOfWord w 2) (byteOfWord w 3) = w := by
  apply BitVec.eq_of_getLsbD_eq
  intro i hi
  simp only [wordOfBytes, byteOfWord, BitVec.getLsbD_append, BitVec.getLsbD_extractLsb']
  by_cases h0 : i < 8
  · simp [h0]
  · by_cases h1 : i - 8 < 8
    · have : 8 + (i - 8) = i := by omega
      simp [h0, h1, this]
    · by_cases h2 : i - 8 - 8 < 8
      · have : 16 + (i - 8 - 8) = i := by omega
        simp [h0, h1, h2, this]
      · have h3 : i - 8 - 8 - 8 < 8 := by omega
        have : 24 + (i - 8 - 8 - 8) = i := by omega
        simp [h0, h1, h2, h3, this]

@[simp] theorem bytesOfWord_length (w : Word) : (bytesOfWord w).length = 4 := rfl

@[simp] theorem commandBytes_length (c : CommandWords) : (commandBytes c).length = 32 := rfl

/-- The words of a command's bytes are the command's words. -/
theorem commandWords_commandBytes (c : CommandWords) : commandWords (commandBytes c) = c := by
  have h : ∀ k w, commandWord (commandBytes c) k = wordOfBytes (byteOfWord w 0) (byteOfWord w 1) (byteOfWord w 2)
      (byteOfWord w 3) → commandWord (commandBytes c) k = w := fun k w hk => hk.trans (wordOfBytes_byteOfWord w)
  cases c
  simp only [commandWords, CommandWords.mk.injEq]
  exact ⟨h 0 _ rfl, h 1 _ rfl, h 2 _ rfl, h 3 _ rfl, h 4 _ rfl, h 5 _ rfl, h 6 _ rfl, h 7 _ rfl⟩

/-- Decoding a command's bytes is decoding its words. -/
theorem decodeBytes_commandBytes (c : CommandWords) : decodeBytes (commandBytes c) = decodeWords c := by
  simp [decodeBytes, commandWords_commandBytes]

@[simp] theorem relu6Field_encodeFirst_two (r b : Bool) : relu6Field (encodeFirst 2 r b) = r := by
  cases r <;> cases b <;> decide

@[simp] theorem hasBiasField_encodeFirst_two (r b : Bool) : hasBiasField (encodeFirst 2 r b) = b := by
  cases r <;> cases b <;> decide

@[simp] theorem opcodeField_encodeFirst_two (r b : Bool) : opcodeField (encodeFirst 2 r b) = 2 := by
  cases r <;> cases b <;> decide

@[simp] theorem reservedField_encodeFirst_two (r b : Bool) : reservedField (encodeFirst 2 r b) = 0 := by
  cases r <;> cases b <;> decide

@[simp] theorem relu6Field_encodeFirst_three (r b : Bool) : relu6Field (encodeFirst 3 r b) = r := by
  cases r <;> cases b <;> decide

@[simp] theorem hasBiasField_encodeFirst_three (r b : Bool) : hasBiasField (encodeFirst 3 r b) = b := by
  cases r <;> cases b <;> decide

@[simp] theorem opcodeField_encodeFirst_three (r b : Bool) : opcodeField (encodeFirst 3 r b) = 3 := by
  cases r <;> cases b <;> decide

@[simp] theorem reservedField_encodeFirst_three (r b : Bool) : reservedField (encodeFirst 3 r b) = 0 := by
  cases r <;> cases b <;> decide

end Sys2Proof
end

