-- ==== Sys2Proof/Laws/Exponential.lean ====
section
/-! SUPPORT. What the free part of the exponential can be: bounded, non-increasing, and any such function. -/

namespace Sys2Proof.Machine

/-- The filled function stays between its end values. -/
theorem monotoneFill_bounds (f : Nat → Nat) : ∀ (fuel lo hi top bottom m : Nat), bottom ≤ top →
    bottom ≤ monotoneFill f fuel lo hi top bottom m ∧ monotoneFill f fuel lo hi top bottom m ≤ top
  | 0, lo, hi, top, bottom, m, h => by unfold monotoneFill; split <;> omega
  | fuel + 1, lo, hi, top, bottom, m, h => by
    unfold monotoneFill
    split
    · omega
    · split
      · omega
      · split
        · have := monotoneFill_bounds f fuel lo ((lo + hi) / 2) top (max bottom (min top (f ((lo + hi) / 2)))) m
            (by omega)
          omega
        · have := monotoneFill_bounds f fuel ((lo + hi) / 2) hi (max bottom (min top (f ((lo + hi) / 2)))) bottom m
            (by omega)
          omega

/-- The filled function does not increase. -/
theorem monotoneFill_antitone (f : Nat → Nat) : ∀ (fuel lo hi top bottom m m' : Nat), bottom ≤ top → m ≤ m' →
    monotoneFill f fuel lo hi top bottom m' ≤ monotoneFill f fuel lo hi top bottom m
  | 0, lo, hi, top, bottom, m, m', h, hm => by unfold monotoneFill; split <;> split <;> omega
  | fuel + 1, lo, hi, top, bottom, m, m', h, hm => by
    have hb := fun l u t b k hk => monotoneFill_bounds f fuel l u t b k hk
    have ih := fun l u t b hk => monotoneFill_antitone f fuel l u t b m m' hk hm
    have b1 := hb lo ((lo + hi) / 2) top (max bottom (min top (f ((lo + hi) / 2)))) m (by omega)
    have b1' := hb lo ((lo + hi) / 2) top (max bottom (min top (f ((lo + hi) / 2)))) m' (by omega)
    have b2 := hb ((lo + hi) / 2) hi (max bottom (min top (f ((lo + hi) / 2)))) bottom m (by omega)
    have b2' := hb ((lo + hi) / 2) hi (max bottom (min top (f ((lo + hi) / 2)))) bottom m' (by omega)
    have i1 := ih lo ((lo + hi) / 2) top (max bottom (min top (f ((lo + hi) / 2)))) (by omega)
    have i2 := ih ((lo + hi) / 2) hi (max bottom (min top (f ((lo + hi) / 2)))) bottom (by omega)
    rw [monotoneFill, monotoneFill]
    generalize monotoneFill f fuel lo ((lo + hi) / 2) top (max bottom (min top (f ((lo + hi) / 2)))) m = u1 at *
    generalize monotoneFill f fuel lo ((lo + hi) / 2) top (max bottom (min top (f ((lo + hi) / 2)))) m' = u1' at *
    generalize monotoneFill f fuel ((lo + hi) / 2) hi (max bottom (min top (f ((lo + hi) / 2)))) bottom m = u2 at *
    generalize monotoneFill f fuel ((lo + hi) / 2) hi (max bottom (min top (f ((lo + hi) / 2)))) bottom m' = u2' at *
    split_ifs <;> omega

/-- A proposal that does not increase and stays within the bounds is filled in as it is: nothing R16 allows
on the negative arguments is lost. -/
theorem monotoneFill_of_antitone (f : Nat → Nat) (hf : ∀ a b, a ≤ b → f b ≤ f a) :
    ∀ (fuel lo hi m : Nat), lo ≤ m → m ≤ hi → hi - lo ≤ 2 ^ fuel →
      monotoneFill f fuel lo hi (f lo) (f hi) m = f m
  | 0, lo, hi, m, h1, h2, h3 => by
    simp only [pow_zero] at h3
    unfold monotoneFill
    split
    · rw [show m = lo by omega]
    · rw [show m = hi by omega]
  | fuel + 1, lo, hi, m, h1, h2, h3 => by
    rw [pow_succ] at h3
    unfold monotoneFill
    split
    · rw [show m = lo by omega]
    · split
      · rw [show m = hi by omega]
      · have hmid : max (f hi) (min (f lo) (f ((lo + hi) / 2))) = f ((lo + hi) / 2) := by
          have := hf lo ((lo + hi) / 2) (by omega)
          have := hf ((lo + hi) / 2) hi (by omega)
          omega
        rw [hmid]
        split
        · exact monotoneFill_of_antitone f hf fuel lo ((lo + hi) / 2) m (by omega) (by omega) (by omega)
        · exact monotoneFill_of_antitone f hf fuel ((lo + hi) / 2) hi m (by omega) (by omega) (by omega)

end Sys2Proof.Machine
end

