-- ==== Sys2Proof/Laws/Float32.lean ====
section
/-! SUPPORT. The small laws of the binary32 operations: packing and its fields, the bounds of a rounding, the
range of a code. -/

namespace Sys2Proof.Machine

theorem f32Mag_lt (x : F32) : f32Mag x < 0x80000000 := Nat.mod_lt _ (by decide)

/-- A value is its sign and its magnitude bits. -/
theorem f32Pack_fields (x : F32) : f32Pack (f32Neg x) (f32Mag x) = x := by
  apply BitVec.eq_of_toNat_eq
  have hx : x.toNat < 4294967296 := x.isLt
  simp only [f32Pack, f32Neg, f32Mag, BitVec.toNat_ofNat]
  by_cases h : 2147483648 ≤ x.toNat <;> simp [h] <;> omega

theorem f32Mag_pack {neg : Bool} {mag : Nat} (h : mag < 0x80000000) : f32Mag (f32Pack neg mag) = mag := by
  simp only [f32Pack, f32Mag, BitVec.toNat_ofNat]
  cases neg <;> simp <;> omega

theorem f32Neg_pack {neg : Bool} {mag : Nat} (h : mag < 0x80000000) : f32Neg (f32Pack neg mag) = neg := by
  simp only [f32Pack, f32Neg, BitVec.toNat_ofNat]
  cases neg <;> simp <;> omega

theorem roundUnits_le (num den : Nat) : roundUnits num den ≤ infMag := Nat.min_le_right _ _

/-- A rounded result is never a NaN. -/
theorem f32IsNaN_pack_round (neg : Bool) (num den : Nat) : f32IsNaN (f32Pack neg (roundUnits num den)) = false := by
  have h := roundUnits_le num den
  have h2 : roundUnits num den < 0x80000000 := by unfold infMag at h; omega
  simp [f32IsNaN, f32Mag_pack h2, h]

theorem divNearestEven_bounds (num den : Nat) :
    num / den ≤ divNearestEven num den ∧ divNearestEven num den ≤ num / den + 1 := by
  simp only [divNearestEven]
  split <;> omega

/-- A quotient without remainder is not rounded. -/
theorem divNearestEven_mul {num den : Nat} (h : 0 < den) : divNearestEven (num * den) den = num := by
  simp only [divNearestEven, Nat.mul_mod_left, Nat.mul_div_cancel _ h]
  simp
  omega

/-- Twice the distance from an exact quotient to its rounding is at most the divisor. -/
theorem divNearestEven_dist {num den : Nat} (h : 0 < den) :
    2 * num ≤ 2 * (divNearestEven num den * den) + den ∧
      2 * (divNearestEven num den * den) ≤ 2 * num + den := by
  have hm := Nat.mod_add_div num den
  have hlt := Nat.mod_lt num h
  have hc : den * (num / den) = num / den * den := Nat.mul_comm _ _
  simp only [divNearestEven]
  split
  · rename_i hc2
    have hs : (num / den + 1) * den = num / den * den + den := by ring
    simp only [Bool.or_eq_true, Bool.and_eq_true, decide_eq_true_eq, beq_iff_eq] at hc2
    omega
  · rename_i hc2
    simp only [Bool.or_eq_true, Bool.and_eq_true, decide_eq_true_eq, beq_iff_eq] at hc2
    omega

theorem unitsOfOne_pos : 0 < unitsOfOne := by decide

theorem clamp_bounds {v lo hi : Int} (h : lo ≤ hi) : lo ≤ clamp v lo hi ∧ clamp v lo hi ≤ hi := by
  simp only [clamp]; split_ifs <;> omega

theorem clamp_of_mem {v lo hi : Int} (h1 : lo ≤ v) (h2 : v ≤ hi) : clamp v lo hi = v := by
  simp only [clamp]; split_ifs <;> omega

/-- Every code is in 0 to 255. -/
theorem requantize_range {real scale : F32} {zp q : Int} (h : requantize real scale zp = .ok q) :
    0 ≤ q ∧ q ≤ 255 := by
  simp only [requantize, codeOfQuotient] at h
  split at h
  · cases h
  · split at h
    · cases h; split <;> omega
    · cases h; exact clamp_bounds (by omega)

/-- The ReLU6 clamp keeps a code in 0 to 255 when the zero-point is one. -/
theorem relu6Clamp_range {q zp : Int} {scale : F32} (hq : 0 ≤ q ∧ q ≤ 255) (hz : 0 ≤ zp ∧ zp ≤ 255) :
    0 ≤ relu6Clamp q scale zp ∧ relu6Clamp q scale zp ≤ 255 := by
  simp only [relu6Clamp]; split <;> omega

/-- A code in 0 to 255 is the byte stored, nothing truncated (spec/40_quant_primitives.md R114). -/
theorem byteOfCode_toNat {q : Int} (h : 0 ≤ q ∧ q ≤ 255) : ((byteOfCode q).toNat : Int) = q := by
  simp only [byteOfCode, BitVec.toNat_ofNat]
  omega

end Sys2Proof.Machine
end

