-- ==== Sys2Proof/Laws/PerInstr.lean ====
section
/-! SUPPORT. Statements made once per instruction. -/

namespace Sys2Proof.Laws.OpcodeRow

/-- The first word of an instruction's encoding is selected by the row of its own mnemonic and by no other
(spec/30_encoding.md R84). -/
def Statement (i : Instr) : Prop :=
  (opcodeTable.filter (·.selects (encode i).w0)).map (·.mnemonic) = [i.mnemonic]

theorem endPass : Statement .endPass := by unfold Statement; decide

theorem ldmeta (m : MetaOperands) : Statement (.ldmeta m) := by
  change (opcodeTable.filter (·.selects 1)).map (·.mnemonic) = ["LDMETA"]; decide

theorem dwconv (c : ConvOperands) : Statement (.dwconv c) := by
  change (opcodeTable.filter (·.selects (encodeFirst 2 c.relu6 c.hasBias))).map (·.mnemonic) = ["DWCONV"]
  generalize c.relu6 = r; generalize c.hasBias = b; revert r b; decide

theorem pwconv (c : ConvOperands) : Statement (.pwconv c) := by
  change (opcodeTable.filter (·.selects (encodeFirst 3 c.relu6 c.hasBias))).map (·.mnemonic) = ["PWCONV"]
  generalize c.relu6 = r; generalize c.hasBias = b; revert r b; decide

theorem gap (t : TensorOperands) : Statement (.gap t) := by
  change (opcodeTable.filter (·.selects 4)).map (·.mnemonic) = ["GAP"]; decide

theorem softmax (t : TensorOperands) : Statement (.softmax t) := by
  change (opcodeTable.filter (·.selects 5)).map (·.mnemonic) = ["SOFTMAX"]; decide

end Sys2Proof.Laws.OpcodeRow
end

