-- ==== Sys2Proof/Laws/Step.lean ====
section
/-! SUPPORT. What one step can be: the engine's turn or one move of the host, and what each move can do. -/

namespace Sys2Proof.Machine

theorem engineTurn_busy {run : Instr → State → Host.Outcome State Fault Refusal} {s : State} (h : s.busy = true) :
    engineTurn run s = engineStep run s := if_pos h

theorem engineTurn_idle {run : Instr → State → Host.Outcome State Fault Refusal} {s : State} (h : s.busy = false) :
    engineTurn run s = .next s := by simp [engineTurn, h]

@[simp] theorem hostMove_wait (turn : State → Host.Outcome State Fault Refusal) (s : State) :
    hostMove turn .wait s = turn s := rfl

/-- A step is the engine's turn, or one host move on the state without it. -/
theorem step_next {s t : State} (h : step s = .next t) :
    (s.hostMoves = [] ∧ engineTurn exec s = .next t) ∨
    ∃ m rest, s.hostMoves = m :: rest ∧ hostMove (engineTurn exec) m { s with hostMoves := rest } = .next t := by
  simp only [step] at h
  split at h
  · rename_i m rest hm
    exact .inr ⟨m, rest, hm, h⟩
  · rename_i hm
    exact .inl ⟨hm, h⟩

/-- What a host move that is not refused does. -/
theorem hostMove_next {turn : State → Host.Outcome State Fault Refusal} {m : HostMove} {s t : State}
    (h : hostMove turn m s = .next t) :
    (m = .wait ∧ turn s = .next t) ∨
    (∃ offset value, m = .writeReg 4 offset value ∧ t = s.writeRegister offset value) ∨
    (∃ offset, m = .readReg 4 offset ∧ t = { s with hostRead := s.readRegister offset }) ∨
    (∃ addr value, m = .writeByte addr value ∧ s.hostMemoryStop addr = none ∧
      t = { s with mem := writeByte s.mem addr.toNat value }) ∨
    (∃ addr, m = .readByte addr ∧ s.hostMemoryStop addr = none ∧
      t = { s with hostRead := (readByte s.mem addr.toNat).setWidth 32 }) ∨
    ∃ contents, m = .hardwareReset contents ∧ t = s.hardwareReset contents := by
  cases m with
  | wait => exact .inl ⟨rfl, h⟩
  | writeReg width offset value =>
    simp only [hostMove] at h
    split at h
    · rename_i hw; cases h; simp only [beq_iff_eq] at hw; subst hw; simp
    · cases h
  | readReg width offset =>
    simp only [hostMove] at h
    split at h
    · rename_i hw; cases h; simp only [beq_iff_eq] at hw; subst hw; simp
    · cases h
  | writeByte addr value =>
    simp only [hostMove] at h
    split at h
    · cases h
    · rename_i hs; cases h; simp [hs]
  | readByte addr =>
    simp only [hostMove] at h
    split at h
    · cases h
    · rename_i hs; cases h; simp [hs]
  | hardwareReset contents => simp only [hostMove] at h; cases h; simp

/-- While BUSY no register write does anything (spec/10_state.md R25, R29). -/
theorem writeRegister_busy {s : State} (h : s.busy = true) (offset value : Word) :
    s.writeRegister offset value = s := by
  simp only [State.writeRegister]
  split <;> simp [State.writeCtrl, h]

end Sys2Proof.Machine
end

