-- ==== Sys2Proof/Machine/Assembler.lean ====
section
/-! DEFINITION. The assembler of a line (spec/30_encoding.md R88): from its text to an instruction or to the
bytes of a data directive. Where R88 fixes no detail of the text, the choices are those of
notes/assumptions/17.md. -/

namespace Sys2Proof.Machine

/-- The value of a digit, up to hexadecimal. -/
def digitOf (c : Char) : Option Nat :=
  if '0' ≤ c ∧ c ≤ '9' then some (c.toNat - 48)
  else if 'a' ≤ c ∧ c ≤ 'f' then some (c.toNat - 87)
  else if 'A' ≤ c ∧ c ≤ 'F' then some (c.toNat - 55)
  else none

/-- The number of digits read after `acc`. -/
def digitsFrom (base acc : Nat) : List Char → Option Nat
  | [] => some acc
  | c :: rest =>
    match digitOf c with
    | none => none
    | some d => if d < base then digitsFrom base (base * acc + d) rest else none

/-- The number of at least one digit. -/
def parseDigits (base : Nat) (t : List Char) : Option Nat := if t.isEmpty then none else digitsFrom base 0 t

/-- A number, decimal or `0x` hexadecimal. -/
def parseNat : List Char → Option Nat
  | '0' :: 'x' :: t => parseDigits 16 t
  | t => parseDigits 10 t

/-- A number below `bound`. -/
def parseBelow (bound : Nat) (t : List Char) : Option Nat := (parseNat t).filter (· < bound)

/-- A u32. -/
def parseWord (t : List Char) : Option Word := (parseBelow (2 ^ 32) t).map (BitVec.ofNat 32)

/-- An i32 as the word that holds it in two's complement. -/
def parseInt : List Char → Option Word
  | '-' :: t => ((parseDigits 10 t).filter (· ≤ 2 ^ 31)).map fun n => BitVec.ofInt 32 (-(n : Int))
  | t => (parseBelow (2 ^ 31) t).map (BitVec.ofNat 32)

/-- The pieces of a text between the separators. -/
def splitAtChar (sep : Char) : List Char → List (List Char)
  | [] => [[]]
  | c :: rest =>
    match splitAtChar sep rest with
    | [] => [[c]]
    | p :: ps => if c = sep then [] :: p :: ps else (c :: p) :: ps

/-- The binary32 nearest a decimal, ties to even: `whole` digits, then digits after the point. -/
def parseDecimal (neg : Bool) (t : List Char) : Option F32 :=
  match splitAtChar '.' t with
  | [whole] => (parseDigits 10 whole).map fun n => f32Pack neg (roundUnits (n * unitsOfOne) 1)
  | [whole, part] =>
    if whole.isEmpty || part.isEmpty then none
    else (parseDigits 10 (whole ++ part)).map fun n => f32Pack neg (roundUnits (n * unitsOfOne) (10 ^ part.length))
  | _ => none

/-- A real: a decimal, converted to the nearest binary32, or a `0x` bit pattern. -/
def parseReal : List Char → Option F32
  | '0' :: 'x' :: t => parseWord ('0' :: 'x' :: t)
  | '-' :: t => parseDecimal true t
  | t => parseDecimal false t

/-- The text of a value after `key=`. -/
def valueOf (key : String) (t : List Char) : Option (List Char) :=
  if key.toList ++ ['='] <+: t then some (t.drop (key.length + 1)) else none

/-- The operands of a convolution: six keys, the last only with a bias. -/
def assembleConv (relu6 : Bool) : List (List Char) → Option ConvOperands
  | a :: b :: c :: d :: e :: rest => do
    let input ← valueOf "in" a >>= parseWord
    let output ← valueOf "out" b >>= parseWord
    let layer ← valueOf "layer" c >>= parseWord
    let wScale ← valueOf "wscale" d >>= parseReal
    let wZp ← valueOf "wzp" e >>= parseInt
    match rest with
    | [] => pure ⟨relu6, false, input, output, layer, wScale, wZp, 0⟩
    | [f] => do
      let bias ← valueOf "bias" f >>= parseWord
      pure ⟨relu6, true, input, output, layer, wScale, wZp, bias⟩
    | _ => none
  | _ => none

/-- The operands of `GAP` and `SOFTMAX`. -/
def assembleTensor : List (List Char) → Option TensorOperands
  | [a, b] => do
    let input ← valueOf "in" a >>= parseWord
    let output ← valueOf "out" b >>= parseWord
    pure ⟨input, output⟩
  | _ => none

/-- The operands of `LDMETA`. -/
def assembleMeta : List (List Char) → Option MetaOperands
  | [a, b, c, d] => do
    let metaAddr ← valueOf "meta" a >>= parseWord
    let metaLen ← valueOf "len" b >>= parseWord
    let blobAddr ← valueOf "blob" c >>= parseWord
    let blobLen ← valueOf "bloblen" d >>= parseWord
    pure ⟨metaAddr, metaLen, blobAddr, blobLen⟩
  | _ => none

/-- The mnemonic of a line and its operands, without spaces. -/
def lineParts (line : List Char) : List Char × List (List Char) :=
  (line.takeWhile (· ≠ ' '), splitAtChar ',' ((line.dropWhile (· ≠ ' ')).filter (· ≠ ' ')))

/-- The instruction of a line (R88). -/
def assemble (line : String) : Option Instr :=
  let parts := lineParts line.toList
  if parts.1 = "END".toList then (if parts.2 = [[]] then some .endPass else none)
  else if parts.1 = "LDMETA".toList then (assembleMeta parts.2).map .ldmeta
  else if parts.1 = "DWCONV".toList then (assembleConv false parts.2).map .dwconv
  else if parts.1 = "DWCONV.RELU6".toList then (assembleConv true parts.2).map .dwconv
  else if parts.1 = "PWCONV".toList then (assembleConv false parts.2).map .pwconv
  else if parts.1 = "PWCONV.RELU6".toList then (assembleConv true parts.2).map .pwconv
  else if parts.1 = "GAP".toList then (assembleTensor parts.2).map .gap
  else if parts.1 = "SOFTMAX".toList then (assembleTensor parts.2).map .softmax
  else none

/-- The bytes of a data directive, little-endian (R88). -/
def assembleData (line : String) : Option (List Byte) :=
  let parts := lineParts line.toList
  match parts.2 with
  | [t] =>
    if parts.1 = ".word".toList then (parseWord t).map bytesOfWord
    else if parts.1 = ".float".toList then (parseReal t).map bytesOfWord
    else if parts.1 = ".byte".toList then (parseBelow 256 t).map fun n => [BitVec.ofNat 8 n]
    else none
  | _ => none

/-- The bytes of a line: one command of 32 bytes, or data (R88). -/
def assembleLine (line : String) : Option (List Byte) :=
  match assemble line with
  | some i => some (encodeBytes i)
  | none => assembleData line

end Sys2Proof.Machine
end

