-- ==== Sys2Proof/Machine/Listing.lean ====
section
/-! DEFINITION. The assembler line of an instruction (spec/30_encoding.md R88): addresses, lengths and the
weight scale's bit pattern in hexadecimal, the position and the zero-point in decimal. -/

namespace Sys2Proof.Machine

/-- A word in hexadecimal. -/
def hexWord (w : Word) : String := "0x" ++ String.ofList (Nat.toDigits 16 w.toNat)

/-- An i32 in decimal. -/
def decInt (w : Word) : String :=
  (if s32 w < 0 then "-" else "") ++ String.ofList (Nat.toDigits 10 (s32 w).natAbs)

/-- The operands of a convolution: `.RELU6` sets `W0[8]`, `bias=` sets `W0[9]` and `W6`. -/
def convListing (mnemonic : String) (c : ConvOperands) : String :=
  mnemonic ++ (if c.relu6 then ".RELU6" else "") ++ " in=" ++ hexWord c.input ++ ", out=" ++ hexWord c.output ++
    ", layer=" ++ String.ofList (Nat.toDigits 10 c.layer.toNat) ++ ", wscale=" ++ hexWord c.wScale ++
    ", wzp=" ++ decInt c.wZp ++ (if c.hasBias then ", bias=" ++ hexWord c.bias else "")

/-- The line of an instruction. -/
def listing : Instr → String
  | .endPass => "END"
  | .ldmeta m =>
    "LDMETA meta=" ++ hexWord m.metaAddr ++ ", len=" ++ hexWord m.metaLen ++ ", blob=" ++ hexWord m.blobAddr ++
      ", bloblen=" ++ hexWord m.blobLen
  | .dwconv c => convListing "DWCONV" c
  | .pwconv c => convListing "PWCONV" c
  | .gap t => "GAP in=" ++ hexWord t.input ++ ", out=" ++ hexWord t.output
  | .softmax t => "SOFTMAX in=" ++ hexWord t.input ++ ", out=" ++ hexWord t.output

end Sys2Proof.Machine
end

