-- ==== Sys2Proof/Tests/Slice0.lean ====
section
/-! SUPPORT. Tests of the model, each with its expected result from the spec's own words (worked examples and
spec/95_test_vectors.md), and for each obligation with hypotheses a witness that meets all of them together. -/

open Sys2Proof Sys2Proof.Machine

namespace Sys2Proof.Tests

set_option Elab.async false

/-! ### Building small states -/

/-- The cells of bytes stored from an address on. -/
def byteCells (a : Nat) (bs : List Byte) : List Host.Cell := (bs.zipIdx a).map fun p => (p.2, p.1)

/-- The cells of little-endian words stored from an address on. -/
def wordCells (a : Nat) (ws : List Word) : List Host.Cell := byteCells a (ws.flatMap bytesOfWord)

/-- A running engine of 1024 bytes that holds the cells, later cells over earlier ones. -/
def running (ptr : Word) (cells : List Host.Cell) : State :=
  { State.reset with memBytes := 1024, mem := memoryOf 1024 cells, status := 1, cmdPtr := ptr }

/-- The set-up of V-ERR: table at 0x200, blob at 0x240, descriptors A to E, their data, outputs filled with 0xEE.
The cells go from the highest address down, which `memoryOf` places fastest. -/
def errCells : List Host.Cell :=
  (wordCells 0x100 [1, 1, 1, 0x300, 0x3F800000, 0, 1, 1, 1, 0x301, 0x3F800000, 0, 1, 1, 2, 0x304, 0x3F800000, 0,
    2, 1, 1, 0x308, 0x3F800000, 0, 1, 1, 2, 0x310, 0x3F800000, 0] ++
  wordCells 0x200 [0, 8, 0, 9, 1, 8, 9, 4] ++ byteCells 0x240 [1, 2, 3, 4, 5, 6, 7, 8, 9, 10, 11, 12, 13] ++
  byteCells 0x300 [7, 0xEE, 0, 0, 3, 5, 0, 0, 10, 20] ++ byteCells 0x310 [0xEE, 0xEE]).reverse

/-- V-ERR at the command under test, at 0x020, its registry loaded, with a change. -/
def errState (change : List Host.Cell) : State :=
  { running 0x20 (errCells ++ change) with metaBase := 0x200, metaCount := 2, blobBase := 0x240, blobLen := 13 }

/-- The command of row OKdw. -/
def okDw : ConvOperands := ⟨false, false, 0x100, 0x118, 0, 0x3F800000, 0, 0⟩

/-- The command of row OKpw. -/
def okPw : ConvOperands := ⟨false, false, 0x130, 0x160, 1, 0x3F800000, 0, 0⟩

/-- The command of row OKgap. -/
def okGap : TensorOperands := ⟨0x148, 0x118⟩

/-- A SOFTMAX of two equal inputs, C over D turned into two channels (V-SM row 2 in its shape). -/
def smCells : List Host.Cell :=
  wordCells 0x130 [1, 1, 2, 0x304, 0x3F000000, 0] ++ byteCells 0x304 [5, 5] ++
  wordCells 0x160 [1, 1, 2, 0x310, 0x3B808081, 0]

/-- The command of row OKsm. -/
def okSm : TensorOperands := ⟨0x130, 0x160⟩

/-- The `LDMETA` of V-ERR. -/
def okMeta : MetaOperands := ⟨0x200, 32, 0x240, 13⟩

def descA : TensorDesc := ⟨1, 1, 1, 0x300, 0x3F800000, 0⟩
def descB : TensorDesc := ⟨1, 1, 1, 0x301, 0x3F800000, 0⟩
def descC : TensorDesc := ⟨1, 1, 2, 0x304, 0x3F800000, 0⟩
def descD : TensorDesc := ⟨2, 1, 1, 0x308, 0x3F800000, 0⟩
def descE : TensorDesc := ⟨1, 1, 2, 0x310, 0x3F800000, 0⟩

/-- What is read of the next state of an outcome. -/
def after {α : Type} (o : Host.Outcome State Fault Refusal) (f : State → α) : Option α :=
  match o with
  | .next t => some (f t)
  | .fault _ => none
  | .refused _ => none

/-- The reason of a refused outcome. -/
def refusal (o : Host.Outcome State Fault Refusal) : Option Refusal :=
  match o with
  | .next _ => none
  | .fault _ => none
  | .refused r => some r

theorem next_of_after {α : Type} {o : Host.Outcome State Fault Refusal} {f : State → α} {a : α}
    (h : after o f = some a) : ∃ t, o = .next t ∧ f t = a := by
  match o, h with
  | .next t, h => exact ⟨t, rfl, by simpa [after] using h⟩

theorem refused_of_refusal {o : Host.Outcome State Fault Refusal} {r : Refusal} (h : refusal o = some r) :
    o = .refused r := by
  match o, h with
  | .refused q, h => simp only [refusal, Option.some.injEq] at h; rw [h]

/-- `ERR_CODE`, `ERR_PC`, `STATUS` and `CMD_PTR`. -/
def errorView (t : State) : Word × Word × Word × Word := (t.errCode, t.errPc, t.status, t.cmdPtr)

/-! ### Well-formedness: the one check, with the terms it refuses -/

theorem test_wellFormed_refuses_dwconv_bias_without_flag :
    (Instr.dwconv ⟨true, false, 0x100, 0x118, 0, 0x3F000000, 8, 0x200⟩).wellFormed = false := by decide

theorem test_wellFormed_refuses_pwconv_bias_without_flag :
    (Instr.pwconv ⟨false, false, 0x100, 0x118, 0, 0x3F000000, 8, 1⟩).wellFormed = false := by decide

/-- An address 0 with the flag is an operand like another (D27). -/
theorem test_wellFormed_accepts :
    (Instr.dwconv ⟨true, true, 0x100, 0x118, 0, 0, 0xFFFFFFFF, 0⟩).wellFormed = true ∧
    (Instr.pwconv ⟨false, false, 0, 0, 0, 0, 0, 0⟩).wellFormed = true ∧ Instr.endPass.wellFormed = true := by decide

/-! ### Decoding: words written out from R81, R82, R84 and R89 -/

/-- `0x00000000`, 32 zero bytes (R89). -/
theorem test_decode_end : decodeBytes (List.replicate 32 0) = .ok .endPass := by decide

/-- The first command of program P2. -/
theorem test_decode_ldmeta :
    decodeBytes [0x01, 0, 0, 0, 0, 0x02, 0, 0, 0x30, 0, 0, 0, 0x40, 0x02, 0, 0, 0x08, 0, 0, 0, 0, 0, 0, 0,
      0, 0, 0, 0, 0, 0, 0, 0] = .ok (.ldmeta ⟨0x200, 48, 0x240, 8⟩) := by decide

/-- The worked encoding of R89. -/
theorem test_decode_dwconv :
    decodeBytes [0x02, 0x03, 0, 0, 0, 0x01, 0, 0, 0x18, 0x01, 0, 0, 0, 0, 0, 0, 0, 0, 0, 0x3F, 0x08, 0, 0, 0,
      0, 0x02, 0, 0, 0, 0, 0, 0] = .ok (.dwconv ⟨true, true, 0x100, 0x118, 0, 0x3F000000, 8, 0x200⟩) := by decide

/-- A command of program P2: no flag, so `W6` is no operand, whatever it holds (row OKnb). -/
theorem test_decode_pwconv :
    decodeBytes [0x03, 0, 0, 0, 0, 0x01, 0, 0, 0x30, 0x01, 0, 0, 0x01, 0, 0, 0, 0, 0, 0x80, 0x3D, 0, 0, 0, 0,
      0xFF, 0xFF, 0xFF, 0xFF, 0xFF, 0, 0, 0] = .ok (.pwconv ⟨false, false, 0x100, 0x130, 1, 0x3D800000, 0, 0⟩) := by
  decide

/-- The two tensor commands of program P4; unused words hold any value. -/
theorem test_decode_gap_softmax :
    decodeBytes [0x04, 0, 0, 0, 0, 0x01, 0, 0, 0x18, 0x01, 0, 0, 0xFF, 0, 0, 0, 0, 0, 0, 0, 0, 0, 0, 0,
      0, 0, 0, 0, 0, 0, 0, 0] = .ok (.gap ⟨0x100, 0x118⟩) ∧
    decodeBytes [0x05, 0, 0, 0, 0x18, 0x01, 0, 0, 0x30, 0x01, 0, 0, 0, 0, 0, 0, 0, 0, 0, 0, 0, 0, 0, 0,
      0, 0, 0, 0, 0, 0, 0, 0xFF] = .ok (.softmax ⟨0x118, 0x130⟩) := by decide

/-- The first words of V-DEC that are legal. -/
theorem test_decode_first_words :
    [0x000, 0x001, 0x002, 0x102, 0x202, 0x302, 0x003, 0x103, 0x203, 0x303, 0x004, 0x005].map (decodeTableWord 32) =
    [some .endPass, some (.ldmeta ⟨0, 0, 0, 0⟩),
     some (.dwconv ⟨false, false, 0, 0, 0, 0, 0, 0⟩), some (.dwconv ⟨true, false, 0, 0, 0, 0, 0, 0⟩),
     some (.dwconv ⟨false, true, 0, 0, 0, 0, 0, 0⟩), some (.dwconv ⟨true, true, 0, 0, 0, 0, 0, 0⟩),
     some (.pwconv ⟨false, false, 0, 0, 0, 0, 0, 0⟩), some (.pwconv ⟨true, false, 0, 0, 0, 0, 0, 0⟩),
     some (.pwconv ⟨false, true, 0, 0, 0, 0, 0, 0⟩), some (.pwconv ⟨true, true, 0, 0, 0, 0, 0, 0⟩),
     some (.gap ⟨0, 0⟩), some (.softmax ⟨0, 0⟩)] := by decide

/-- The first words of V-DEC that are illegal, and 31 bytes. -/
theorem test_decode_refuses :
    [0x006, 0x0FF, 0x100, 0x201, 0x104, 0x402, 0x80000000].map (fun w => decodeBytes (tableBytes 32 w)) =
    [.error .unassignedOpcode, .error .unassignedOpcode, .error .flagNotAllowed, .error .flagNotAllowed,
     .error .flagNotAllowed, .error .reservedBits, .error .reservedBits] ∧
    decodeBytes (List.replicate 31 0) = .error .truncated := by decide

/-- No two rows of the decoding table select one first word: their patterns differ in a bit both masks have. -/
theorem test_opcode_rows_disjoint :
    opcodeTable.Pairwise fun r q => r.pattern &&& q.mask &&& r.mask ≠ q.pattern &&& r.mask &&& q.mask := by decide

/-- The listing of the worked encoding (R88, R89). -/
theorem test_listing :
    listing (.dwconv ⟨true, true, 0x100, 0x118, 0, 0x3F000000, 8, 0x200⟩) =
      "DWCONV.RELU6 in=0x100, out=0x118, layer=0, wscale=0x3f000000, wzp=8, bias=0x200" := by decide +kernel

/-- The worked encoding of R89 from its line, and data directives with decimals of GK5. -/
theorem test_assembler :
    assembleLine "DWCONV.RELU6 in=0x100, out=0x118, layer=0, wscale=0.5, wzp=8, bias=0x200" =
      some [0x02, 0x03, 0, 0, 0, 0x01, 0, 0, 0x18, 0x01, 0, 0, 0, 0, 0, 0, 0, 0, 0, 0x3F, 0x08, 0, 0, 0,
        0, 0x02, 0, 0, 0, 0, 0, 0] ∧
    assemble "LDMETA  meta=0x200, len=48, blob=0x240, bloblen=8" = some (.ldmeta ⟨0x200, 48, 0x240, 8⟩) ∧
    [".float 0.1", ".float 0.0235", ".word 0x12345678", ".byte 255", ".byte 256"].map assembleLine =
      [some [0xCD, 0xCC, 0xCC, 0x3D], some [0x12, 0x83, 0xC0, 0x3C], some [0x78, 0x56, 0x34, 0x12], some [0xFF],
       none] := by decide +kernel

/-! ### Arithmetic -/

/-- `rnd` (V-Q): 0.5, 1.5, 2.5, -0.5, -1.5, -2.5, 0.49999997, 2.4, -2.6, +0, -0, 8388609.0, 16777216.0. -/
theorem test_rnd :
    [0x3F000000#32, 0x3FC00000#32, 0x40200000#32, 0xBF000000#32, 0xBFC00000#32, 0xC0200000#32, 0x3EFFFFFF#32,
     0x4019999A#32, 0xC0266666#32, 0#32, 0x80000000#32, 0x4B000001#32, 0x4B800000#32].map rnd =
    [1, 2, 3, -1, -2, -3, 0, 2, -3, 0, 0, 8388609, 16777216] := by decide +kernel

/-- `dequantize` (V-Q), all seven rows. -/
theorem test_dequantize :
    [dequantize 200 0x3F000000#32 128, dequantize 0 0x3F000000#32 128, dequantize 128 0x3F000000#32 128,
     dequantize 255 0x3DCCCCCD#32 0, dequantize 3 0x3DCCCCCD#32 10, dequantize 128 0x3B808081#32 0,
     dequantize 255 0x3B808081#32 0] =
    [0x42100000#32, 0xC2800000#32, 0#32, 0x41CC0000#32, 0xBF333333#32, 0x3F008081#32, 0x3F800000#32] := by
  decide +kernel

/-- `requantize` (V-Q): 0.25, -0.25, 1.25 at 0.5; 0.3 and 0.35 at 0.1; the two ends at 0.5; 3e38 at 0.001. -/
theorem test_requantize :
    [requantize 0x3E800000#32 0x3F000000#32 0, requantize 0xBE800000#32 0x3F000000#32 10,
     requantize 0x3FA00000#32 0x3F000000#32 0, requantize 0x3E99999A#32 0x3DCCCCCD#32 5,
     requantize 0x3EB33333#32 0x3DCCCCCD#32 0, requantize 0x427F0000#32 0x3F000000#32 128,
     requantize 0xC2808000#32 0x3F000000#32 128, requantize 0x7F61B1E6#32 0x3A83126F#32 0,
     requantize 0xFF61B1E6#32 0x3A83126F#32 200, requantize 0x7FC00000#32 0x3F000000#32 0] =
    [.ok 1, .ok 9, .ok 3, .ok 8, .ok 4, .ok 255, .ok 0, .ok 255, .ok 0, .error (.refuse .nanToRequantize)] := by
  decide +kernel

/-- The ReLU6 ceilings of V-Q at zero-point 0: 0.125, 0.5, 1.0, 4.0, 16.0, 0.1, 0.0235, 1/255. -/
theorem test_relu6_ceiling :
    [0x3E000000#32, 0x3F000000#32, 0x3F800000#32, 0x40800000#32, 0x41800000#32, 0x3DCCCCCD#32, 0x3CC08312#32,
     0x3B808081#32].map (relu6Ceiling · 0) =
    [some 48, some 12, some 6, some 2, some 0, some 60, some 255, some 1530] := by decide +kernel

/-- `mac` (V-MAC): the extremes, 4 bits with a zero-point, and one byte at each width from 1 to 8. -/
theorem test_mac :
    [mac 255 255 8 0, mac 255 0 8 255, mac 200 0x0B 4 8, mac 1 0 4 8, mac 7 0xB5 6 32, mac 7 0xB5 8 32] =
      [65025, -65025, 600, -8, 147, 1043] ∧
    [1, 2, 3, 4, 5, 6, 7, 8].map (mac 10 0xF3 · 0) = [10, 30, 30, 30, 190, 510, 1150, 2430] := by decide +kernel

/-- The sum of row 4 of V-GAP: 0.1 + 0.2 + 0.3 in binary32, then the mean. -/
theorem test_float_sums :
    fadd (fadd 0x3DCCCCCD#32 0x3E4CCCCD#32) 0x3E99999A#32 = 0x3F19999A#32 ∧
    fdiv 0x3F19999A#32 (i2f 3) = 0x3E4CCCCD#32 ∧ i2f 16777217 = 0x4B800000#32 := by decide +kernel

/-- The exponentials of R201. -/
def expR201 (x : F32) : F32 :=
  if x = 0xC0000000#32 then 0x3E0A9555#32 else if x = 0xBF800000#32 then 0x3EBC5AB2#32 else 0x3F800000#32

/-- The worked example of R201, its exponentials given. -/
theorem test_softmax_R201 :
    softmaxCodes expR201 ([10, 20, 30, 30].map fun q => dequantize q 0x3DCCCCCD#32 0) 0x3B808081#32 0 =
      .ok [14, 37, 102, 102] := by decide +kernel

/-- The source's ranking example S7, 0.1, 0.05, 0.5, 0.2, 0.15, and the tie of 0.25, 0.5, 0.25. -/
theorem test_ranking :
    ranking [0x3DCCCCCD#32, 0x3D4CCCCD#32, 0x3F000000#32, 0x3E4CCCCD#32, 0x3E19999A#32] =
      [(0x3F000000#32, 2), (0x3E4CCCCD#32, 3), (0x3E19999A#32, 4), (0x3DCCCCCD#32, 0), (0x3D4CCCCD#32, 1)] ∧
    (ranking [0x3E800000#32, 0x3F000000#32, 0x3E800000#32]).map (·.2) = [1, 0, 2] := by decide +kernel

/-! ### The commands -/

/-- `END` (R226). -/
theorem test_end : after (step (running 0 [])) errorView = some (0, 0, 2, 0) := by decide +kernel

/-- The worked example of R214. -/
theorem test_ldmeta_R214 :
    after (exec (.ldmeta ⟨0x200, 32, 0x300, 33⟩) (running 0 (wordCells 0x200 [0, 4, 0, 27, 1, 8, 27, 6])))
      (fun t => (t.metaBase, t.metaCount, t.blobBase, t.blobLen, t.cmdPtr)) = some (0x200, 2, 0x300, 33, 32) := by
  decide +kernel

/-- V-REG: an offset field of 0xFFFFFFFF is read as -1. -/
theorem test_ldmeta_negative_offset :
    after (exec (.ldmeta ⟨0x200, 32, 0x300, 13⟩) (running 0 (wordCells 0x200 [0, 8, 0, 9, 1, 8, 0xFFFFFFFF, 4])))
      errorView = some (4, 0, 4, 0) := by decide +kernel

/-- The memory of V-DW vector B, its output at zero-point 10. -/
def dwCells (bits : Word) : List Host.Cell :=
  wordCells 0x200 [0, bits, 0, 9] ++ byteCells 0x240 [0x1F, 0x02, 0x03, 0x04, 0x0C, 0x06, 0x07, 0x08, 0x09] ++
  wordCells 0x100 [2, 2, 1, 0x300, 0x3F000000, 0, 2, 2, 1, 0x310, 0x3F000000, 10] ++
  byteCells 0x300 [10, 20, 30, 40] ++ wordCells 0x280 [100]

/-- V-DW vector B at 4 bits with ReLU6. -/
theorem test_dwconv_vector_B :
    after (exec (.dwconv ⟨true, true, 0x100, 0x118, 0, 0x3E800000, 8, 0x280⟩)
      { errState [] with mem := memoryOf 1024 (dwCells 4) }) (fun t => (readBytes t.mem 0x30F 6, t.cmdPtr)) =
      some ([0, 22, 22, 10, 22, 0], 0x40) := by decide +kernel

/-- V-DW vector B at 8 bits without ReLU6. -/
theorem test_dwconv_vector_B_8_bits :
    after (exec (.dwconv ⟨false, true, 0x100, 0x118, 0, 0x3E800000, 8, 0x280⟩)
      { errState [] with mem := memoryOf 1024 (dwCells 8) }) (fun t => readBytes t.mem 0x310 4) =
      some [45, 38, 5, 73] := by decide +kernel

/-- The memory of R171, the output's zero-point given, with the bias of V-PW vector B. -/
def pwCells (zp : Word) : List Host.Cell :=
  wordCells 0x200 [0, 8, 0, 6] ++ byteCells 0x240 [1, 2, 3, 9, 8, 7] ++
  wordCells 0x100 [1, 2, 3, 0x300, 0x3F000000, 0, 1, 2, 2, 0x310, 0x3F800000, zp] ++
  byteCells 0x300 [10, 20, 30, 40, 50, 60] ++ wordCells 0x280 [0xFFFFFC18, 16]

/-- The worked example of R171. -/
theorem test_pwconv_R171 :
    after (exec (.pwconv ⟨false, false, 0x100, 0x118, 0, 0x3E800000, 4, 0⟩)
      { errState [] with mem := memoryOf 1024 (pwCells 0) }) (fun t => (readBytes t.mem 0x310 4, t.cmdPtr)) =
      some ([0, 28, 0, 73], 0x40) := by decide +kernel

/-- V-PW vector B with ReLU6. -/
theorem test_pwconv_vector_B :
    after (exec (.pwconv ⟨true, true, 0x100, 0x118, 0, 0x3E800000, 4, 0x280⟩)
      { errState [] with mem := memoryOf 1024 (pwCells 100) }) (fun t => readBytes t.mem 0x310 4) =
      some [100, 106, 100, 106] := by decide +kernel

/-- The memory of program P4. -/
def p4Cells : List Host.Cell :=
  wordCells 0x100 [2, 2, 2, 0x200, 0x3F000000, 10, 1, 1, 2, 0x200, 0x3E800000, 3] ++
  byteCells 0x200 [10, 200, 20, 100, 30, 50, 41, 51]

/-- Program P4, its first command: the in-place average of R184. -/
theorem test_gap_in_place :
    after (exec (.gap ⟨0x100, 0x118⟩) (running 0 p4Cells)) (fun t => (readBytes t.mem 0x200 8, t.cmdPtr)) =
      some ([34, 184, 20, 100, 30, 50, 41, 51], 0x20) := by decide +kernel

/-- V-GAP row 3: a mean of -2.5 rounds away from zero. -/
theorem test_gap_tie :
    after (exec (.gap ⟨0x100, 0x118⟩) (running 0
      (wordCells 0x100 [1, 2, 1, 0x200, 0x3F800000, 3, 1, 1, 1, 0x210, 0x3F800000, 3] ++
        byteCells 0x200 [0, 1] ++ byteCells 0x210 [0xEE, 0xEE]))) (fun t => readBytes t.mem 0x210 2) =
      some [0, 0xEE] := by decide +kernel

/-- V-SM row 2: it does not depend on the exponential. -/
theorem test_softmax_equal_inputs :
    after (exec (.softmax okSm) (errState smCells)) (fun t => (readBytes t.mem 0x310 3, t.cmdPtr)) =
      some ([127, 127, 0], 0x40) := by decide +kernel

/-- V-SM row 4: one channel. -/
theorem test_softmax_one_channel :
    after (exec (.softmax ⟨0x100, 0x118⟩) (running 0
      (wordCells 0x100 [1, 1, 1, 0x200, 0x3F000000, 3, 1, 1, 1, 0x210, 0x3B808081, 0] ++ byteCells 0x200 [7])))
      (fun t => readByte t.mem 0x210) = some 255 := by decide +kernel

/-- The table's bits placed by `withFetchWord` run as the very next step from reset: `END` ends the pass, a
convolution finds an empty registry, an average of a descriptor of zeros has no dimension. -/
theorem test_withFetchWord :
    after (step (State.reset.withFetchWord 32 0)) errorView = some (0, 0, 2, 0) ∧
    after (step (State.reset.withFetchWord 32 1)) (fun t => (t.cmdPtr, t.status)) = some (32, 1) ∧
    after (step (State.reset.withFetchWord 32 2)) errorView = some (4, 0, 4, 0) ∧
    after (step (State.reset.withFetchWord 32 0x303)) errorView = some (4, 0, 4, 0) := by decide +kernel

theorem test_withFetchWord_tensors :
    after (step (State.reset.withFetchWord 32 4)) errorView = some (1, 0, 4, 0) ∧
    after (step (State.reset.withFetchWord 32 5)) errorView = some (1, 0, 4, 0) ∧
    after (step (State.reset.withFetchWord 32 6)) errorView = some (5, 0, 4, 0) := by decide +kernel

/-! ### Witnesses: states and operands that meet the hypotheses of each obligation together -/

/-- A running engine of 1024 bytes whose next command is the instruction. -/
def atCommand (i : Instr) : State := running 0x20 (byteCells 0x20 (encodeBytes i))

theorem witness_StepRunsFetchedCommand :
    (atCommand (.gap okGap)).busy = true ∧
    (atCommand (.gap okGap)).cmdPtr.toNat + 32 ≤ (atCommand (.gap okGap)).memBytes ∧
    decodeBytes (readBytes (atCommand (.gap okGap)).mem (atCommand (.gap okGap)).cmdPtr.toNat 32) =
      .ok (.gap okGap) ∧ (atCommand (.gap okGap)).hostMoves = [] ∧
    ({ atCommand (.gap okGap) with hostMoves := [.wait, .readReg 4 4] }).hostMoves = .wait :: [.readReg 4 4] := by
  decide +kernel

/-- The last place a command fits (row E1b). -/
theorem witness_StepRunsFetchedCommand_top :
    (running 992 []).hostMoves = [] ∧ (running 992 []).busy = true ∧
    (running 992 []).cmdPtr.toNat + 32 ≤ (running 992 []).memBytes ∧
    decodeBytes (readBytes (running 992 []).mem (running 992 []).cmdPtr.toNat 32) = .ok .endPass := by decide +kernel

/-- The first place past it, and a first word of opcode 6. -/
theorem witness_FetchRaisesIllegalCommand :
    ((running 993 []).hostMoves = [] ∧ (running 993 []).busy = true ∧
      (running 993 []).memBytes < (running 993 []).cmdPtr.toNat + 32) ∧
    ((running 0 [(0, 6)]).hostMoves = [] ∧ (running 0 [(0, 6)]).busy = true ∧
      ∃ e, decodeBytes (readBytes (running 0 [(0, 6)]).mem (running 0 [(0, 6)]).cmdPtr.toNat 32) = .error e) :=
  ⟨by decide +kernel, by decide +kernel, by decide +kernel, .unassignedOpcode, by decide +kernel⟩

theorem witness_IdleKeepsEverything :
    State.reset.busy = false ∧ State.reset.hostMoves = [] ∧
    ({ State.reset with hostMoves := [.wait] }).hostMoves = .wait :: [] := by decide

/-- The moves of one step, and a move other than `wait` and a reset while BUSY. -/
theorem witness_StepTakesOneHostMove :
    ∃ t, step { running 0 [] with hostMoves := [.writeReg 4 8 5, .wait] } = .next t ∧
      (t.hostMoves, t.cmdPtr) = ([.wait], 0) := next_of_after (by decide +kernel)

/-- The host acts behind a command (R232, R283): it starts a pass over a memory of zeros, waits for its `END`, reads
`STATUS` as DONE, and starts a second pass. -/
theorem test_host_acts_after_command :
    after (Sys2Proof.core.run 4 { State.reset with hostMoves := [.writeReg 4 0 1, .wait, .readReg 4 4, .writeReg 4 0 1] })
      (fun t : State => (t.hostRead, t.status)) = some (2, 1) := by decide +kernel

/-- A hardware reset behind the first of two commands of a pass (R280). -/
theorem test_reset_inside_pass :
    after (Sys2Proof.core.run 2 { running 0 p4Cells with
      mem := writeByte (running 0 p4Cells).mem 0 1, hostMoves := [.wait, .hardwareReset []] })
      (fun t : State => (t.status, t.cmdPtr, t.mem)) = some (0, 0, []) := by decide +kernel

/-- A state in the middle of a pass, its registry loaded, and one in the ERROR state. -/
theorem witness_invariant : (errState []).Inv ∧ (raise .unsupportedBitWidth (errState [])).Inv := by decide +kernel

theorem witness_StepKeepsInvariant :
    (errState []).Inv ∧ ∃ t, step (errState []) = .next t := by
  obtain ⟨t, h, _⟩ := next_of_after (show after (step (errState [])) errorView = some (0, 0, 2, 0x20) by decide +kernel)
  exact ⟨witness_invariant.1, t, h⟩

theorem witness_StepNeverFaults : (errState []).Inv := witness_invariant.1

theorem witness_EveryPassEnds :
    (errState []).Inv ∧ (errState []).busy = true ∧
    ∀ m ∈ ({ errState [] with hostMoves := [.wait, .wait] }).hostMoves, m = .wait :=
  ⟨witness_invariant.1, by decide, by simp⟩

/-- One next state for each of the three cases, and of a command that writes the registry. -/
theorem witness_ExecEndsRaisesOrAdvances :
    (∃ t, exec .endPass (errState []) = .next t ∧ t.done = true) ∧
    (∃ t, exec (.dwconv okDw) (running 0 errCells) = .next t ∧ t.err = true) ∧
    (∃ t, exec (.gap okGap) (errState []) = .next t ∧ t.cmdPtr = 0x40) :=
  ⟨next_of_after (by decide +kernel), next_of_after (by decide +kernel), next_of_after (by decide +kernel)⟩

theorem witness_OnlyLdmetaWritesRegistry :
    ∃ t, exec (.ldmeta okMeta) (running 0 errCells) = .next t ∧ t.metaCount = 2 := next_of_after (by decide +kernel)

theorem witness_CommandsWriteOnlyOutputData :
    Memory.wf (errState []).memBytes (errState []).mem = true ∧
    (∃ t, exec (.pwconv okPw) (errState []) = .next t ∧ readBytes t.mem 0x310 3 = [85, 101, 0]) ∧
    (∃ t, exec (.pwconv okPw) (running 0x20 errCells) = .next t ∧ t.cmdPtr = 0x20) :=
  ⟨by decide +kernel, next_of_after (by decide +kernel), next_of_after (by decide +kernel)⟩

theorem after_error {o : Host.Outcome State Fault Refusal} {t : State} (h : after o id = some t) : o = .next t := by
  obtain ⟨u, h1, h2⟩ := next_of_after h
  exact h1.trans (congrArg _ h2)

/-- Row E13 on two memories that differ in an input sample. -/
theorem witness_ErrorsIgnoreTensorData :
    ∃ s u : State, s.sameOwn u ∧ s.sameRegistry u ∧ s.sameFlags u ∧ u.cmdPtr = s.cmdPtr ∧
      (∀ a, Ref.checkedByte s (.dwconv okDw) a → readByte u.mem a = readByte s.mem a) ∧
      readByte u.mem 0x300 ≠ readByte s.mem 0x300 ∧
      exec (.dwconv okDw) s = .next (raise .unsupportedBitWidth s) := by
  refine ⟨errState (wordCells 0x204 [9]), errState (wordCells 0x204 [9] ++ byteCells 0x300 [99]), by decide +kernel,
    by decide +kernel, by decide +kernel, by decide +kernel, ?_, by decide +kernel,
    after_error (by decide +kernel)⟩
  have key : ∀ k < 48, readByte (errState (wordCells 0x204 [9] ++ byteCells 0x300 [99])).mem (0x100 + k) =
      readByte (errState (wordCells 0x204 [9])).mem (0x100 + k) := by decide +kernel
  have key' : ∀ k < 16, readByte (errState (wordCells 0x204 [9] ++ byteCells 0x300 [99])).mem (0x200 + k) =
      readByte (errState (wordCells 0x204 [9])).mem (0x200 + k) := by decide +kernel
  intro a h
  have hb : (errState (wordCells 0x204 [9])).metaBase.toNat = 0x200 := by decide +kernel
  simp only [Ref.checkedByte, hb] at h
  simp [okDw] at h
  by_cases ha : a < 0x200
  · rw [show a = 0x100 + (a - 0x100) by omega]; exact key _ (by omega)
  · rw [show a = 0x200 + (a - 0x200) by omega]; exact key' _ (by omega)

theorem witness_EncodeDecodeRoundTrip :
    (Instr.dwconv ⟨true, true, 0xFFFFFFFF, 0x118, 3, 0x7FC00000, 0x80000000, 0xFFFFFFFC⟩).wellFormed = true ∧
    (Instr.pwconv ⟨true, false, 0, 1, 2, 3, 4, 0⟩).wellFormed = true := by decide

theorem witness_DecodedWordsReencode :
    decodeWords ⟨0x203, 1, 2, 3, 4, 5, 6, 7⟩ = .ok (.pwconv ⟨false, true, 1, 2, 3, 4, 5, 6⟩) ∧
    decodeWords ⟨0x102, 1, 2, 3, 4, 5, 6, 7⟩ = .ok (.dwconv ⟨true, false, 1, 2, 3, 4, 5, 0⟩) := by decide

theorem witness_DecoderFollowsTable :
    decodeWords ⟨5, 1, 2, 3, 4, 5, 6, 7⟩ = .ok (.softmax ⟨1, 2⟩) ∧
    decodeWords ⟨0x105, 1, 2, 3, 4, 5, 6, 7⟩ = .error .flagNotAllowed := by decide

theorem witness_PlacedCommandRunsNext :
    (errState []).Inv ∧ decodeTableWord 32 0x302 = some (.dwconv ⟨true, true, 0, 0, 0, 0, 0, 0⟩) :=
  ⟨witness_invariant.1, by decide⟩

/-- The registry of V-ERR; the three errors and the view of the record (rows E11, E9, E13). -/
theorem witness_LookupResult :
    (errState []).registryInMemory ∧ lookup (errState []) 1 = .ok ⟨0x249, 4, 8⟩ ∧
    lookup (errState []) 2 = .error (.error .metadataMalformed) ∧
    lookup (errState (wordCells 0x21C [5])) 1 = .error (.error .metadataMalformed) ∧
    lookup (errState (wordCells 0x204 [9])) 0 = .error (.error .unsupportedBitWidth) := by decide +kernel

/-- The four ways of a descriptor (rows E14, E15, E16), the last one at the last byte of memory. -/
theorem witness_ReadDescResult :
    readDesc (errState []) 0x3E9 = .error (.error .invalidDimensions) ∧
    readDesc (errState (wordCells 0x100 [0xFFFFFFFF])) 0x100 = .error (.error .invalidDimensions) ∧
    readDesc (errState (wordCells 0x108 [2, 0x3FF])) 0x100 = .error (.error .invalidDimensions) ∧
    readDesc (errState (wordCells 0x108 [1, 0x3FF])) 0x100 = .ok ⟨1, 1, 1, 0x3FF, 0x3F800000, 0⟩ := by
  decide +kernel

/-- The table of V-ERR. -/
theorem witness_LdmetaLatchesRegistry :
    okMeta.metaLen.toNat % 16 = 0 ∧ okMeta.metaAddr.toNat + okMeta.metaLen.toNat ≤ (errState []).memBytes ∧
    okMeta.blobAddr.toNat + okMeta.blobLen.toNat ≤ (errState []).memBytes ∧
    (∀ k < okMeta.metaLen.toNat / 16,
      0 ≤ (readWord (errState []).mem (okMeta.metaAddr.toNat + 16 * k + 8)).toInt ∧
      0 ≤ (readWord (errState []).mem (okMeta.metaAddr.toNat + 16 * k + 12)).toInt ∧
      (readWord (errState []).mem (okMeta.metaAddr.toNat + 16 * k + 8)).toInt +
        (readWord (errState []).mem (okMeta.metaAddr.toNat + 16 * k + 12)).toInt ≤ okMeta.blobLen.toNat) ∧
    (∀ k, k + 1 < okMeta.metaLen.toNat / 16 →
      (readWord (errState []).mem (okMeta.metaAddr.toNat + 16 * k)).toInt <
        (readWord (errState []).mem (okMeta.metaAddr.toNat + 16 * (k + 1))).toInt) := by
  refine ⟨by decide, by decide, by decide, by decide +kernel, fun k hk => ?_⟩
  have hk : k + 1 < 2 := hk
  obtain rfl : k = 0 := by omega
  decide +kernel

/-- Rows E6, E7 (one byte past memory), E8, E9 and E10, each with the hypotheses of its clause. -/
theorem witness_LdmetaErrors :
    (24#32).toNat % 16 ≠ 0 ∧
    ((16#32).toNat % 16 = 0 ∧ (errState []).memBytes < (0x3F1#32).toNat + (16#32).toNat) ∧
    ((0x3F0#32).toNat + (16#32).toNat ≤ (errState []).memBytes ∧
      (errState []).memBytes < (0x3F4#32).toNat + (13#32).toNat) ∧
    ((0x3F3#32).toNat + (13#32).toNat ≤ (errState []).memBytes ∧
      ∃ k < 2, (13 : Int) < (readWord (errState (wordCells 0x21C [5])).mem (0x200 + 16 * k + 8)).toInt +
        (readWord (errState (wordCells 0x21C [5])).mem (0x200 + 16 * k + 12)).toInt) ∧
    (∃ k, k + 1 < 2 ∧ (readWord (errState (wordCells 0x210 [0])).mem (0x200 + 16 * (k + 1))).toInt ≤
      (readWord (errState (wordCells 0x210 [0])).mem (0x200 + 16 * k)).toInt) :=
  ⟨by decide, by decide +kernel, by decide +kernel, by decide +kernel, 0, by decide +kernel, by decide +kernel⟩

/-- Row OKdw. -/
theorem witness_DwconvResult :
    Memory.wf (errState []).memBytes (errState []).mem = true ∧
    Ref.dwPasses (errState []) okDw ⟨0x240, 9, 8⟩ descA descB ∧ Ref.convLegal okDw descA descB ∧
    Ref.convApart (errState []) okDw ⟨0x240, 9, 8⟩ descA descB (9 * descA.channels) descA.channels ∧
    (∀ y x ch, y < descA.height → x < descA.width → ch < descA.channels →
      ¬ Ref.nan (Ref.convReal (errState []) okDw descA ch
        (Ref.dwAcc (errState []) okDw ⟨0x240, 9, 8⟩ descA y x ch))) := by
  refine ⟨by decide +kernel, by unfold Ref.dwPasses; decide +kernel,
    by unfold Ref.convLegal Ref.legalScale Ref.scaleBelow Ref.legalZp; decide +kernel,
    by unfold Ref.convApart Ref.apart; decide +kernel, ?_⟩
  intro y x ch hy hx hc
  have hy : y < 1 := hy
  have hx : x < 1 := hx
  have hc : ch < 1 := hc
  obtain rfl : y = 0 := by omega
  obtain rfl : x = 0 := by omega
  obtain rfl : ch = 0 := by omega
  unfold Ref.nan; decide +kernel

/-- Rows E11 (position), E13 (width), E14 (input descriptor), E14 for the output, E17 (shape), E18 (weights) and E19
(bias). -/
theorem witness_DwconvErrors :
    lookup (errState []) 2 = .error (.error .metadataMalformed) ∧
    lookup (errState (wordCells 0x204 [9])) 0 = .error (.error .unsupportedBitWidth) ∧
    (lookup (errState []) 0 = .ok ⟨0x240, 9, 8⟩ ∧ readDesc (errState []) 0x3F0 = .error (.error .invalidDimensions)) ∧
    (readDesc (errState []) 0x100 = .ok descA ∧ readDesc (errState []) 0x3F0 = .error (.error .invalidDimensions)) ∧
    (readDesc (errState []) 0x130 = .ok descC ∧ descC.channels ≠ descA.channels) ∧
    (lookup (errState []) 1 = .ok ⟨0x249, 4, 8⟩ ∧ readDesc (errState []) 0x118 = .ok descB ∧
      4 < 9 * descA.channels) ∧
    (errState []).memBytes < (0x3FD#32).toNat + 4 * descA.channels := by decide +kernel

/-- U1, U2, U4 and U3: a weight scale of 0, a weight zero-point of 256, the output on the input, and a bias term and
an integer term that are infinities of opposite sign. -/
theorem witness_DwconvRefusals :
    refusal (exec (.dwconv { okDw with wScale := 0 }) (errState [])) = some .illegalScale ∧
    refusal (exec (.dwconv { okDw with wZp := 256 }) (errState [])) = some .illegalZeroPoint ∧
    refusal (exec (.dwconv { okDw with output := 0x100 }) (errState [])) = some .regionOverlap ∧
    refusal (exec (.dwconv ⟨false, true, 0x100, 0x118, 0, 0x7F000000, 0, 0x280⟩)
      (errState (wordCells 0x280 [0x80000000]))) = some .nanToRequantize := by decide +kernel

/-- The hypotheses of the last clause of the refusals. -/
theorem witness_DwconvRefusals_nan :
    ∃ (s : State) (c : ConvOperands), Ref.dwPasses s c ⟨0x240, 9, 8⟩ descA descB ∧ Ref.convLegal c descA descB ∧
      Ref.convApart s c ⟨0x240, 9, 8⟩ descA descB (9 * descA.channels) descA.channels ∧
      ∃ y x ch, y < descA.height ∧ x < descA.width ∧ ch < descA.channels ∧
        Ref.nan (Ref.convReal s c descA ch (Ref.dwAcc s c ⟨0x240, 9, 8⟩ descA y x ch)) := by
  refine ⟨errState (wordCells 0x280 [0x80000000]), ⟨false, true, 0x100, 0x118, 0, 0x7F000000, 0, 0x280⟩,
    by unfold Ref.dwPasses; decide +kernel,
    by unfold Ref.convLegal Ref.legalScale Ref.scaleBelow Ref.legalZp; decide +kernel,
    by unfold Ref.convApart Ref.apart; decide +kernel, 0, 0, 0, by decide, by decide, by decide, ?_⟩
  unfold Ref.nan; decide +kernel

/-- Row OKpw. -/
theorem witness_PwconvResult :
    Memory.wf (errState []).memBytes (errState []).mem = true ∧
    Ref.pwPasses (errState []) okPw ⟨0x249, 4, 8⟩ descC descE ∧ Ref.convLegal okPw descC descE ∧
    Ref.convApart (errState []) okPw ⟨0x249, 4, 8⟩ descC descE (descE.channels * descC.channels) descE.channels ∧
    (∀ y x co, y < descC.height → x < descC.width → co < descE.channels →
      -2 ^ 31 ≤ Ref.pwAcc (errState []) okPw ⟨0x249, 4, 8⟩ descC y x co ∧
      Ref.pwAcc (errState []) okPw ⟨0x249, 4, 8⟩ descC y x co ≤ 2 ^ 31 - 1 ∧
      ¬ Ref.nan (Ref.convReal (errState []) okPw descC co
        (Ref.pwAcc (errState []) okPw ⟨0x249, 4, 8⟩ descC y x co))) := by
  refine ⟨by decide +kernel, by unfold Ref.pwPasses; decide +kernel,
    by unfold Ref.convLegal Ref.legalScale Ref.scaleBelow Ref.legalZp; decide +kernel,
    by unfold Ref.convApart Ref.apart; decide +kernel, ?_⟩
  intro y x co hy hx hc
  have hy : y < 1 := hy
  have hx : x < 1 := hx
  obtain rfl : y = 0 := by omega
  obtain rfl : x = 0 := by omega
  revert co
  have key : ∀ co < 2, -2 ^ 31 ≤ Ref.pwAcc (errState []) okPw ⟨0x249, 4, 8⟩ descC 0 0 co ∧
      Ref.pwAcc (errState []) okPw ⟨0x249, 4, 8⟩ descC 0 0 co ≤ 2 ^ 31 - 1 ∧
      ¬ Ref.nan (Ref.convReal (errState []) okPw descC co
        (Ref.pwAcc (errState []) okPw ⟨0x249, 4, 8⟩ descC 0 0 co)) := by
    unfold Ref.nan; decide +kernel
  exact fun co hc => key co hc

/-- Rows E20, E21 and a bias one byte past memory. -/
theorem witness_PwconvErrors :
    (readDesc (errState []) 0x148 = .ok descD ∧ descD.height ≠ descA.height) ∧
    (readDesc (errState (wordCells 0x168 [3])) 0x160 = .ok { descE with channels := 3 } ∧
      lookup (errState []) 1 = .ok ⟨0x249, 4, 8⟩ ∧ 4 < 3 * descC.channels) ∧
    (errState []).memBytes < (0x3F9#32).toNat + 4 * descE.channels := by decide +kernel

theorem witness_PwconvRefusals :
    refusal (exec (.pwconv { okPw with wScale := 0xBF800000 }) (errState [])) = some .illegalScale ∧
    refusal (exec (.pwconv { okPw with wZp := 0xFFFFFFFF }) (errState [])) = some .illegalZeroPoint ∧
    refusal (exec (.pwconv okPw) (errState (wordCells 0x16C [0x305]))) = some .regionOverlap ∧
    refusal (exec (.pwconv ⟨false, true, 0x130, 0x160, 1, 0x7F000000, 0, 0x280⟩)
      (errState (wordCells 0x280 [0x80000000]))) = some .nanToRequantize := by decide +kernel

/-- Weight bytes of 0 against a zero-point of 255, the extreme of the bound, and the input of row OKpw. -/
theorem witness_AccumulatorFits :
    (Ref.legalZp (s32 255) ∧ (8 : Nat) ≤ 8 ∧ descC.channels ≤ 33025) ∧
    ∀ din, readDesc (errState []) okPw.input = .ok din → din.channels ≤ 33025 := by
  refine ⟨by unfold Ref.legalZp; decide, fun din h => ?_⟩
  have h' : readDesc (errState []) okPw.input = .ok descC := by decide +kernel
  cases h'.symm.trans h
  decide

/-- The greatest scales and terms of the bound. -/
theorem witness_ModestScalesStayFinite :
    Ref.scaleBelow 0x53800000 0x537FFFFF#32 ∧ -2 ^ 31 ≤ (-2 ^ 31 : Int) ∧ (-2 ^ 31 : Int) ≤ 2 ^ 31 - 1 := by
  unfold Ref.scaleBelow; decide

theorem witness_SinglePixelUsesCentreWeight : descA.height = 1 ∧ descA.width = 1 := by decide

/-- Row OKgap, and the in-place average of program P4. -/
theorem witness_GapResult :
    (Memory.wf (errState []).memBytes (errState []).mem = true ∧ Ref.gapPasses (errState []) okGap descD descB ∧
      Ref.tensorsLegal descD descB ∧ Ref.commonApart (errState []) okGap descB ∧
      Ref.apart descB.data descB.size descD.data descD.size ∧
      ∀ ch < descD.channels, ¬ Ref.nan (Ref.gapMean (errState []) descD ch)) ∧
    (Memory.wf (running 0 p4Cells).memBytes (running 0 p4Cells).mem = true ∧
      Ref.gapPasses (running 0 p4Cells) ⟨0x100, 0x118⟩ ⟨2, 2, 2, 0x200, 0x3F000000, 10⟩ ⟨1, 1, 2, 0x200, 0x3E800000, 3⟩ ∧
      Ref.tensorsLegal ⟨2, 2, 2, 0x200, 0x3F000000, 10⟩ ⟨1, 1, 2, 0x200, 0x3E800000, 3⟩ ∧
      Ref.commonApart (running 0 p4Cells) ⟨0x100, 0x118⟩ ⟨1, 1, 2, 0x200, 0x3E800000, 3⟩ ∧
      ∀ ch < 2, ¬ Ref.nan (Ref.gapMean (running 0 p4Cells) ⟨2, 2, 2, 0x200, 0x3F000000, 10⟩ ch)) := by
  unfold Ref.gapPasses Ref.tensorsLegal Ref.legalScale Ref.scaleBelow Ref.legalZp Ref.commonApart Ref.apart Ref.nan
  decide +kernel

/-- Row E22, and a descriptor that leaves memory by one byte. -/
theorem witness_GapErrors :
    readDesc (errState []) 0x3E9 = .error (.error .invalidDimensions) ∧
    readDesc (errState []) 0x148 = .ok descD ∧ readDesc (errState []) 0x130 = .ok descC ∧
    descC.channels ≠ descD.channels ∧ readDesc (errState []) 0x118 = .ok descB ∧ descB.height = 1 ∧
    descB.width = 1 ∧ descB.channels = descD.channels := by decide +kernel

/-- U1, U2, U4 with the output one byte into the input, and a mean that is infinity less infinity: scales of 2^127
make the samples infinities of opposite sign. -/
theorem witness_GapRefusals :
    refusal (exec (.gap okGap) (errState (wordCells 0x158 [0x7F800000]))) = some .illegalScale ∧
    refusal (exec (.gap okGap) (errState (wordCells 0x15C [256]))) = some .illegalZeroPoint ∧
    refusal (exec (.gap okGap) (errState (wordCells 0x124 [0x309]))) = some .regionOverlap ∧
    refusal (exec (.gap okGap) (errState (wordCells 0x158 [0x7F000000, 15]))) = some .nanToRequantize := by
  decide +kernel

theorem witness_GapMeanIsNoNan :
    Ref.scaleBelow 0x7B800000 0x7B7FFFFF#32 ∧ Ref.legalZp 255 ∧ 0 < descD.height * descD.width ∧
    descD.height * descD.width ≤ 2147483648 := by unfold Ref.scaleBelow Ref.legalZp; decide

/-- Program P4. -/
theorem witness_GapInPlaceLoop :
    (⟨1, 1, 2, 0x200, 0x3E800000, 3⟩ : TensorDesc).data = (⟨2, 2, 2, 0x200, 0x3F000000, 10⟩ : TensorDesc).data ∧
    ∃ t, exec (.gap ⟨0x100, 0x118⟩) (running 0 p4Cells) = .next t ∧ readBytes t.mem 0x200 2 = [34, 184] :=
  ⟨rfl, next_of_after (by decide +kernel)⟩

def descSmIn : TensorDesc := ⟨1, 1, 2, 0x304, 0x3F000000, 0⟩
def descSmOut : TensorDesc := ⟨1, 1, 2, 0x310, 0x3B808081, 0⟩

/-- V-SM row 2. -/
theorem witness_SoftmaxResult :
    Memory.wf (errState smCells).memBytes (errState smCells).mem = true ∧
    Ref.softmaxPasses (errState smCells) okSm descSmIn descSmOut ∧ Ref.tensorsLegal descSmIn descSmOut ∧
    Ref.commonApart (errState smCells) okSm descSmOut ∧
    Ref.apart descSmOut.data descSmOut.size descSmIn.data descSmIn.size ∧
    ∀ i < descSmIn.channels, Ref.finite (Ref.softmaxInput (errState smCells) descSmIn i) := by
  unfold Ref.softmaxPasses Ref.tensorsLegal Ref.legalScale Ref.scaleBelow Ref.legalZp Ref.commonApart Ref.apart
    Ref.finite
  decide +kernel

/-- Rows E14, E23, E26 in its shape, and E24: 2049 channels of a state of 8192 bytes. -/
theorem witness_SoftmaxErrors :
    readDesc (errState []) 0x3F0 = .error (.error .invalidDimensions) ∧
    (readDesc (errState []) 0x148 = .ok descD ∧ descD.height ≠ 1) ∧
    (readDesc (errState []) 0x118 = .ok descB ∧ descB.channels ≠ descC.channels) ∧
    (readDesc { errState (wordCells 0x138 [2049, 0x400] ++ wordCells 0x168 [2049, 0x1500]) with memBytes := 8192 }
        0x130 = .ok ⟨1, 1, 2049, 0x400, 0x3F800000, 0⟩ ∧
      readDesc { errState (wordCells 0x138 [2049, 0x400] ++ wordCells 0x168 [2049, 0x1500]) with memBytes := 8192 }
        0x160 = .ok ⟨1, 1, 2049, 0x1500, 0x3F800000, 0⟩ ∧ 2048 < 2049) := by decide +kernel

/-- U1, U2 and U4: in place, which only the average may be. -/
theorem witness_SoftmaxRefusals :
    refusal (exec (.softmax okSm) (errState (wordCells 0x140 [0x80000001]))) = some .illegalScale ∧
    refusal (exec (.softmax okSm) (errState (wordCells 0x174 [256]))) = some .illegalZeroPoint ∧
    refusal (exec (.softmax okSm) (errState (wordCells 0x16C [0x304]))) = some .regionOverlap := by decide +kernel

theorem witness_SoftmaxCodesAtLeastZeroPoint :
    Memory.wf (errState smCells).memBytes (errState smCells).mem = true ∧
    Ref.softmaxPasses (errState smCells) okSm descSmIn descSmOut ∧ Ref.scaleBelow 0x7B800000 descSmIn.scale ∧
    ∃ t, exec (.softmax okSm) (errState smCells) = .next t ∧ readByte t.mem 0x310 = 127 :=
  ⟨witness_SoftmaxResult.1, witness_SoftmaxResult.2.1, by unfold Ref.scaleBelow; decide,
    next_of_after (by decide +kernel)⟩

/-- The least finite value is below the greatest subnormal's opposite, both at most 0. -/
theorem witness_ExponentialProperties :
    Ref.finite 0xFF7FFFFF#32 ∧ Ref.finite 0x807FFFFF#32 ∧
    Ref.value 0xFF7FFFFF#32 ≤ Ref.value 0x807FFFFF#32 ∧ Ref.value 0x807FFFFF#32 ≤ 0 := by
  refine ⟨by unfold Ref.finite; decide, by unfold Ref.finite; decide, ?_, ?_⟩ <;>
    norm_num [Ref.value, Ref.expField, Ref.fracField, BitVec.msb_eq_decide]

/-- The greatest finite value and the least divisor that is not 0. -/
theorem witness_ArithmeticRoundsOnce :
    Ref.finite 0x7F7FFFFF#32 ∧ Ref.finite 0x00000001#32 ∧ Ref.value 0x00000001#32 ≠ 0 := by
  refine ⟨by unfold Ref.finite; decide, by unfold Ref.finite; decide, ?_⟩
  norm_num [Ref.value, Ref.expField, Ref.fracField, BitVec.msb_eq_decide]

theorem witness_ArithmeticOnSpecials :
    Ref.nan 0xFFC00001#32 ∧ (Ref.finite 0x80000001#32 ∧ Ref.value 0x80000001#32 ≠ 0) ∧
    (Ref.finite 0x80000000#32 ∧ Ref.value 0x80000000#32 = 0) := by
  refine ⟨by unfold Ref.nan; decide, ⟨by unfold Ref.finite; decide, ?_⟩, by unfold Ref.finite; decide, ?_⟩ <;>
    norm_num [Ref.value, Ref.expField, Ref.fracField, BitVec.msb_eq_decide]

theorem witness_IntegerToFloat : |(16777216 : Int)| ≤ 2 ^ 24 ∧ |(2 ^ 127 - 1 : Int)| < 2 ^ 127 := by decide

theorem witness_RoundHalfAwayFromZero : Ref.finite 0xC0200000#32 := by unfold Ref.finite; decide

theorem witness_DequantizeResult :
    Ref.legalScale 0x7B808080#32 ∧ Ref.legalZp 255 ∧ Ref.scaleBelow 0x7B808081 0x7B808080#32 := by
  unfold Ref.legalScale Ref.scaleBelow Ref.legalZp; decide

/-- The clauses of `requantize` at the rows of V-Q: a NaN, both overflows, and the quotients -128.5, 127.5, -128 and
127 at zero-point 128. -/
theorem witness_RequantizeResult :
    Ref.legalScale 0x3F000000#32 ∧ Ref.legalScale 0x3A83126F#32 ∧ Ref.legalZp 128 ∧ Ref.nan 0x7FC00000#32 ∧
    fdiv 0x7F61B1E6#32 0x3A83126F#32 = 0x7F800000#32 ∧ fdiv 0xFF61B1E6#32 0x3A83126F#32 = 0xFF800000#32 ∧
    [0xC2808000#32, 0x427F8000#32, 0xC2800000#32, 0x427E0000#32].map (fdiv · 0x3F000000#32) =
      [0xC3008000#32, 0x42FF8000#32, 0xC3000000#32, 0x42FE0000#32] := by
  unfold Ref.legalScale Ref.scaleBelow Ref.legalZp Ref.nan; decide +kernel

theorem witness_RequantizeResult_quotients :
    Ref.value 0xC3008000#32 < -(128 : Int) ∧ 255 - (128 : Int) < Ref.value 0x42FF8000#32 ∧
    -(128 : Int) ≤ Ref.value 0xC3000000#32 ∧ Ref.value 0x42FE0000#32 ≤ 255 - (128 : Int) := by
  refine ⟨?_, ?_, ?_, ?_⟩ <;> norm_num [Ref.value, Ref.expField, Ref.fracField, BitVec.msb_eq_decide]

/-- The least and the greatest scale. -/
theorem witness_QuantizationRoundTrip :
    Ref.scaleBelow 0x7B808081 1#32 ∧ Ref.scaleBelow 0x7B808081 0x7B808080#32 ∧ Ref.legalZp 0 ∧ Ref.legalZp 255 := by
  unfold Ref.scaleBelow Ref.legalZp; decide

theorem witness_MacClosedForm : (1 : Nat) ≤ 1 ∧ (1 : Nat) ≤ 8 ∧ (8 : Nat) ≤ 8 := by decide

/-! The host's moves: the four values of `CTRL` of V-HOST, an idle and a running engine. -/

theorem witness_ControlWrites :
    ({ running 0 [] with hostMoves := [.writeReg 4 0 2] }).busy = true ∧
    State.reset.busy = false ∧ (3#32).getLsbD 1 = true ∧
    ((1#32).getLsbD 1 = false ∧ (1#32).getLsbD 0 = true) ∧
    ((0xFFFFFFFC#32).getLsbD 1 = false ∧ (0xFFFFFFFC#32).getLsbD 0 = false) := by decide

theorem witness_RegisterReads :
    ({ running 8 [] with hostMoves := [.readReg 4 8] }).hostMoves = .readReg 4 8 :: [] ∧
    ({ running 8 [] with hostMoves := [.readReg 1 8] }).hostMoves = .readReg 1 8 :: [] ∧
    after (step { running 8 [] with hostMoves := [.readReg 4 8] }) (·.hostRead) = some 8 ∧
    after (step { running 8 [] with hostMoves := [.readReg 4 0x24] }) (·.hostRead) = some 0 ∧
    refusal (step { running 8 [] with hostMoves := [.readReg 1 8] }) = some .hostRegisterAccessWidth := by
  decide +kernel

theorem witness_RegisterWrites :
    ({ State.reset with hostMoves := [.writeReg 2 8 5] }).hostMoves = .writeReg 2 8 5 :: [] ∧
    ({ State.reset with hostMoves := [.writeReg 4 4 5] }).hostMoves = .writeReg 4 4 5 :: [] ∧ (4#32) ≠ 8#32 ∧
    ({ running 0 [] with hostMoves := [.writeReg 4 8 5] }).busy = true ∧
    ({ State.reset with hostMoves := [.writeReg 4 8 5] }).busy = false := by decide +kernel

theorem witness_HostMemoryAccess :
    Memory.wf (errState []).memBytes (errState []).mem = true ∧ (errState []).busy = true ∧
    Memory.wf State.reset.memBytes State.reset.mem = true ∧ State.reset.busy = false ∧
    (0x7FFFFFFF#32).toNat < State.reset.memBytes := by decide +kernel

theorem witness_HardwareReset :
    ({ running 0 [] with hostMoves := [.hardwareReset [(3, 7)]] }).hostMoves = .hardwareReset [(3, 7)] :: [] ∧
    Memory.wf (running 0 []).memBytes [(3, 7)] = true := by decide +kernel

theorem witness_RankingIsStableDescending : ∀ p ∈ [0x3E800000#32, 0x3F000000#32, 0x3E800000#32], ¬ Ref.nan p := by
  simp [Ref.nan, Ref.expField, Ref.fracField]

end Sys2Proof.Tests
end

section
/-! PROOFS. What the binary32 bit patterns mean: their fields, classes and values, against the reference of R10. -/

namespace Sys2Proof.Machine

/-- -1 for a set sign bit, else 1. -/
def signFactor (neg : Bool) : ℚ := if neg then -1 else 1

@[simp] theorem signFactor_true : signFactor true = -1 := rfl

@[simp] theorem signFactor_false : signFactor false = 1 := rfl

theorem signFactor_bne (n m : Bool) : signFactor (n != m) = signFactor n * signFactor m := by
  cases n <;> cases m <;> norm_num

theorem signFactor_div (n m : Bool) : signFactor n / signFactor m = signFactor (n != m) := by
  cases n <;> cases m <;> norm_num

theorem signFactor_not (n : Bool) : signFactor (!n) = -signFactor n := by
  cases n <;> norm_num

theorem abs_signFactor_mul (n : Bool) (q : ℚ) : |signFactor n * q| = |q| := by
  cases n <;> simp

theorem msb_eq_f32Neg (x : F32) : x.msb = f32Neg x := by
  simp [BitVec.msb_eq_decide, f32Neg]

theorem finite_iff {x : F32} : Ref.finite x ↔ f32Mag x < infMag := by
  simp only [Ref.finite, Ref.expField, f32Mag, infMag]
  omega

theorem nan_iff {x : F32} : Ref.nan x ↔ infMag < f32Mag x := by
  simp only [Ref.nan, Ref.expField, Ref.fracField, f32Mag, infMag]
  omega

/-! ### The magnitude in units -/

@[simp] theorem magUnits_zero : magUnits 0 = 0 := rfl

/-- Magnitude bits as an exponent step `k` and a significand `s`, both ends of the binade included. -/
theorem magUnits_significand {k s : Nat} (hs : s ≤ 2 ^ 24) (hk : k = 0 ∨ 2 ^ 23 ≤ s) :
    magUnits (k * 2 ^ 23 + s) = s * 2 ^ k := by
  unfold magUnits
  split
  · obtain rfl : k = 0 := by omega
    simp
  · obtain rfl | hlt : s = 2 ^ 24 ∨ s < 2 ^ 24 := by omega
    · have hmod : (k * 2 ^ 23 + 2 ^ 24) % 2 ^ 23 = 0 := by omega
      have hdiv : (k * 2 ^ 23 + 2 ^ 24) / 2 ^ 23 - 1 = k + 1 := by omega
      rw [hmod, hdiv, pow_succ]
      ring
    · have hsig : 2 ^ 23 + (k * 2 ^ 23 + s) % 2 ^ 23 = s := by omega
      have hdiv : (k * 2 ^ 23 + s) / 2 ^ 23 - 1 = k := by omega
      rw [hsig, hdiv]

/-- Every magnitude has an exponent step and a significand of at most 24 bits. -/
theorem exists_significand (m : Nat) : ∃ k s, m = k * 2 ^ 23 + s ∧ s < 2 ^ 24 ∧ (k = 0 ∨ 2 ^ 23 ≤ s) :=
  ⟨m / 2 ^ 23 - 1, m - (m / 2 ^ 23 - 1) * 2 ^ 23, by omega, by omega, by omega⟩

theorem magUnits_strictMono : StrictMono magUnits := by
  refine strictMono_nat_of_lt_succ fun m => ?_
  obtain ⟨k, s, rfl, hs, hk⟩ := exists_significand m
  rw [add_assoc, magUnits_significand hs.le hk, magUnits_significand hs (by omega)]
  exact Nat.mul_lt_mul_of_pos_right (Nat.lt_succ_self s) (by positivity)

theorem magUnits_le_iff {m n : Nat} : magUnits m ≤ magUnits n ↔ m ≤ n := magUnits_strictMono.le_iff_le

theorem magUnits_eq_zero {m : Nat} : magUnits m = 0 ↔ m = 0 :=
  magUnits_strictMono.injective.eq_iff' magUnits_zero

theorem magUnits_oneMag : magUnits oneMag = unitsOfOne := by
  rw [show oneMag = 126 * 2 ^ 23 + 2 ^ 23 from rfl, magUnits_significand (by decide) (by decide), unitsOfOne,
    ← pow_add]

theorem magUnits_infMag : magUnits infMag = 2 ^ 24 * 2 ^ 253 :=
  magUnits_significand (k := 253) (s := 2 ^ 24) le_rfl (by decide)

/-- The greatest finite magnitude. -/
theorem magUnits_infMag_pred : magUnits (infMag - 1) = (2 ^ 24 - 1) * 2 ^ 253 :=
  magUnits_significand (k := 253) (s := 2 ^ 24 - 1) (by decide) (by decide)

/-! ### The value -/

theorem unitsOfOne_cast_pos : (0 : ℚ) < (unitsOfOne : ℚ) := by exact_mod_cast unitsOfOne_pos

theorem value_eq (x : F32) :
    Ref.value x = signFactor (f32Neg x) * (magUnits (f32Mag x) / unitsOfOne) := by
  have hx := x.isLt
  have hunit : (2 : ℚ) ^ (-149 : ℤ) = 1 / unitsOfOne := by norm_num [unitsOfOne]
  have hfrac : f32Mag x % 2 ^ 23 = Ref.fracField x := by simp only [f32Mag, Ref.fracField]; omega
  have hexp : f32Mag x / 2 ^ 23 = Ref.expField x := by simp only [f32Mag, Ref.expField]; omega
  rw [Ref.value, msb_eq_f32Neg, magUnits, hfrac, hexp]
  congr 1
  by_cases h0 : Ref.expField x = 0
  · have hmag : f32Mag x = Ref.fracField x := by simp only [f32Mag, Ref.fracField, Ref.expField] at *; omega
    have hlt : Ref.fracField x < 2 ^ 23 := Nat.mod_lt _ (by decide)
    rw [if_pos h0, hmag, if_pos hlt, hunit]
    ring
  · have hlt : ¬ f32Mag x < 2 ^ 23 := by simp only [f32Mag, Ref.expField] at *; omega
    have hstep : ((Ref.expField x : ℤ) - 150) = ((Ref.expField x - 1 : ℕ) : ℤ) + (-149 : ℤ) := by omega
    rw [if_neg h0, if_neg hlt, hstep, zpow_add₀ two_ne_zero, zpow_natCast, hunit]
    push_cast
    ring

theorem value_eq_units (x : F32) : Ref.value x = f32Units x / unitsOfOne := by
  rw [value_eq, f32Units]
  cases f32Neg x <;> simp [neg_div]

theorem value_eq_zero {x : F32} : Ref.value x = 0 ↔ f32Mag x = 0 := by
  have hU := unitsOfOne_cast_pos.ne'
  rw [value_eq, ← magUnits_eq_zero]
  cases f32Neg x <;> simp [hU]

theorem value_pack {neg : Bool} {mag : Nat} (h : mag ≤ infMag) :
    Ref.value (f32Pack neg mag) = signFactor neg * (magUnits mag / unitsOfOne) := by
  have h31 : mag < 0x80000000 := by unfold infMag at h; omega
  rw [value_eq, f32Neg_pack h31, f32Mag_pack h31]

/-! ### Changing the sign -/

@[simp] theorem f32Mag_fneg (x : F32) : f32Mag (fneg x) = f32Mag x := f32Mag_pack (f32Mag_lt x)

@[simp] theorem f32Neg_fneg (x : F32) : f32Neg (fneg x) = !f32Neg x := f32Neg_pack (f32Mag_lt x)

theorem fneg_pack {neg : Bool} {mag : Nat} (h : mag < 0x80000000) :
    fneg (f32Pack neg mag) = f32Pack (!neg) mag := by
  rw [fneg, f32Neg_pack h, f32Mag_pack h]

theorem value_fneg (x : F32) : Ref.value (fneg x) = -Ref.value x := by
  rw [value_eq, value_eq, f32Neg_fneg, f32Mag_fneg, signFactor_not, neg_mul]

theorem finite_fneg {x : F32} : Ref.finite (fneg x) ↔ Ref.finite x := by
  rw [finite_iff, finite_iff, f32Mag_fneg]

theorem nan_fneg {x : F32} : Ref.nan (fneg x) ↔ Ref.nan x := by
  rw [nan_iff, nan_iff, f32Mag_fneg]

end Sys2Proof.Machine
end

section
/-! PROOFS. Rounding a magnitude `num / den` units: the result is nearest, a tie goes to the even one, and it is
infinite from half a last place above the greatest finite magnitude on (R10). -/

namespace Sys2Proof.Machine

/-- The scale chosen for an integer part `q` leaves at most 24 bits of it, and exactly 24 when it drops any. -/
theorem excessBits_spec (q : Nat) :
    q < 2 ^ 24 * 2 ^ excessBits q ∧ (excessBits q = 0 ∨ 2 ^ 23 * 2 ^ excessBits q ≤ q) := by
  unfold excessBits
  split
  · simpa
  · rename_i hq
    have hq0 : q ≠ 0 := by omega
    have hlog : 24 ≤ Nat.log2 q := (Nat.le_log2 hq0).2 (by omega)
    rw [← pow_add, ← pow_add, show 24 + (Nat.log2 q - 23) = Nat.log2 q + 1 by omega,
      show 23 + (Nat.log2 q - 23) = Nat.log2 q by omega]
    exact ⟨Nat.lt_log2_self, .inr (Nat.log2_self_le hq0)⟩

/-- The magnitude bits of the rounded result, before those past infinity are brought down to it. -/
def nearestMag (num den : Nat) : Nat :=
  excessBits (num / den) * 2 ^ 23 + divNearestEven num (den * 2 ^ excessBits (num / den))

theorem roundUnits_eq (num den : Nat) : roundUnits num den = min (nearestMag num den) infMag := rfl

@[simp] theorem roundUnits_zero (den : Nat) : roundUnits 0 den = 0 := by
  simp [roundUnits, divNearestEven, excessBits]

/-- A quotient with exactly half left over is rounded to an even number. -/
theorem divNearestEven_tie {num den : Nat} (h : 2 * (num % den) = den) : divNearestEven num den % 2 = 0 := by
  simp only [divNearestEven, h]
  split <;> simp_all
  omega

/-- The two ways `num / den` is rounded: down, when at most half is left over, or up, when at least half is. -/
theorem divNearestEven_cases (num den : Nat) :
    (divNearestEven num den = num / den ∧ 2 * (num % den) ≤ den) ∨
    (divNearestEven num den = num / den + 1 ∧ den ≤ 2 * (num % den)) := by
  simp only [divNearestEven]
  split <;> simp_all
  omega

/-- The division behind a rounding: `num` is `n` steps of `2 ^ k` units and a rest `r` (in units of `1 / den`), `k`
and `n` are the exponent step and the significand of a magnitude, and the rest decides between `n` and `n + 1`. -/
theorem nearestMag_division (num : Nat) {den : Nat} (hden : 0 < den) :
    ∃ k n r, num = den * 2 ^ k * n + r ∧ r < den * 2 ^ k ∧ n < 2 ^ 24 ∧ (k = 0 ∨ 2 ^ 23 ≤ n) ∧
      ((nearestMag num den = k * 2 ^ 23 + n ∧ 2 * r ≤ den * 2 ^ k) ∨
        (nearestMag num den = k * 2 ^ 23 + n + 1 ∧ den * 2 ^ k ≤ 2 * r)) ∧
      (2 * r = den * 2 ^ k → nearestMag num den % 2 = 0) := by
  obtain ⟨hq, hk⟩ := excessBits_spec (num / den)
  unfold nearestMag
  generalize excessBits (num / den) = k at hq hk ⊢
  have hpow : 0 < 2 ^ k := by positivity
  have hn : num / (den * 2 ^ k) = num / den / 2 ^ k := (Nat.div_div_eq_div_mul ..).symm
  refine ⟨k, num / (den * 2 ^ k), num % (den * 2 ^ k), (Nat.div_add_mod ..).symm, Nat.mod_lt _ (by positivity),
    ?_, ?_, ?_, fun h => ?_⟩
  · rwa [hn, Nat.div_lt_iff_lt_mul hpow]
  · rwa [hn, Nat.le_div_iff_mul_le hpow]
  · have hcases := divNearestEven_cases num (den * 2 ^ k)
    omega
  · have htie := divNearestEven_tie h
    omega

/-- Neighbouring magnitudes `m`, `m + 1` enclose `num / den`; it is rounded to the one it is not further from, and
to the even one from halfway between them. -/
theorem nearestMag_bracket (num : Nat) {den : Nat} (hden : 0 < den) :
    ∃ m, (magUnits m : ℚ) ≤ num / den ∧ (num / den : ℚ) < magUnits (m + 1) ∧
      ((nearestMag num den = m ∧ 2 * (num / den : ℚ) ≤ magUnits m + magUnits (m + 1)) ∨
        (nearestMag num den = m + 1 ∧ (magUnits m + magUnits (m + 1) : ℚ) ≤ 2 * (num / den))) ∧
      (2 * (num / den : ℚ) = magUnits m + magUnits (m + 1) → nearestMag num den % 2 = 0) := by
  obtain ⟨k, n, r, hsum, hr, hn, hk, hdir, htie⟩ := nearestMag_division num hden
  have hden' : (0 : ℚ) < den := by exact_mod_cast hden
  have hw : (num / den : ℚ) = n * 2 ^ k + r / den := by
    rw [hsum]; push_cast; field_simp
  have hlt : (r / den : ℚ) < 2 ^ k := by
    rw [div_lt_iff₀ hden', mul_comm]; exact_mod_cast hr
  have hdown : 2 * r ≤ den * 2 ^ k ↔ 2 * (r / den : ℚ) ≤ 2 ^ k := by
    rw [← mul_div_assoc, div_le_iff₀ hden', mul_comm _ (den : ℚ)]; norm_cast
  have hup : den * 2 ^ k ≤ 2 * r ↔ 2 ^ k ≤ 2 * (r / den : ℚ) := by
    rw [← mul_div_assoc, le_div_iff₀ hden', mul_comm _ (den : ℚ)]; norm_cast
  have hbelow : (magUnits (k * 2 ^ 23 + n) : ℚ) = n * 2 ^ k := by
    rw [magUnits_significand hn.le hk, Nat.cast_mul, Nat.cast_pow, Nat.cast_ofNat]
  have habove : (magUnits (k * 2 ^ 23 + n + 1) : ℚ) = n * 2 ^ k + 2 ^ k := by
    rw [add_assoc, magUnits_significand hn (by omega)]
    push_cast
    ring
  refine ⟨k * 2 ^ 23 + n, ?_⟩
  rw [hbelow, habove, hw]
  refine ⟨le_add_of_nonneg_right (by positivity), by linarith, ?_, fun h => ?_⟩
  · exact hdir.imp (And.imp_right fun h => by linarith [hdown.1 h]) (And.imp_right fun h => by linarith [hup.1 h])
  · exact htie (le_antisymm (hdown.2 (by linarith)) (hup.2 (by linarith)))

/-- `y` is no nearer to `v` than `r`, and as near only when it equals `r` or `r` is the even choice (R10). -/
def NearestEven (v r y : ℚ) (even : Prop) : Prop :=
  |v - r| ≤ |v - y| ∧ (|v - r| = |v - y| → y = r ∨ even)

theorem NearestEven.div {v r y c : ℚ} {even : Prop} (hc : 0 < c) (h : NearestEven v r y even) :
    NearestEven (v / c) (r / c) (y / c) even := by
  simpa only [NearestEven, ← sub_div, abs_div, abs_of_pos hc, div_le_div_iff_of_pos_right hc, div_left_inj' hc.ne']
    using h

/-- No magnitude is nearer to `num / den` than the one it is rounded to, and of two nearest that one is even. -/
theorem nearestMag_nearest (num : Nat) {den : Nat} (hden : 0 < den) (m : Nat) :
    NearestEven (num / den) (magUnits (nearestMag num den)) (magUnits m) (nearestMag num den % 2 = 0) := by
  obtain ⟨m₀, hlo, hhi, hdir, htie⟩ := nearestMag_bracket num hden
  have hout : (magUnits m : ℚ) ≤ magUnits m₀ ∨ (magUnits (m₀ + 1) : ℚ) ≤ magUnits m := by
    simp only [Nat.cast_le, magUnits_le_iff]; omega
  generalize nearestMag num den = r at *
  generalize (num / den : ℚ) = w at *
  generalize (magUnits m : ℚ) = x at *
  unfold NearestEven
  obtain ⟨rfl, hnear⟩ | ⟨rfl, hnear⟩ := hdir
  · rw [abs_of_nonneg (sub_nonneg.2 hlo)]
    obtain hx | hx := hout
    · rw [abs_of_nonneg (by linarith)]
      exact ⟨by linarith, fun h => .inl (by linarith)⟩
    · rw [abs_of_nonpos (by linarith)]
      exact ⟨by linarith, fun h => .inr (htie (by linarith))⟩
  · rw [abs_of_neg (sub_neg.2 hhi)]
    obtain hx | hx := hout
    · rw [abs_of_nonneg (by linarith)]
      exact ⟨by linarith, fun h => .inr (htie (by linarith))⟩
    · rw [abs_of_nonpos (by linarith)]
      exact ⟨by linarith, fun h => .inl (by linarith)⟩

/-- Above an odd magnitude `t`, rounding passes to `t + 1` exactly from halfway on. -/
theorem lt_nearestMag_iff (num : Nat) {den t : Nat} (hden : 0 < den) (ht : t % 2 = 1) :
    t < nearestMag num den ↔ (magUnits t + magUnits (t + 1) : ℚ) ≤ 2 * (num / den) := by
  obtain ⟨m, hlo, hhi, hdir, htie⟩ := nearestMag_bracket num hden
  generalize nearestMag num den = r at *
  generalize (num / den : ℚ) = w at *
  have mono {a b : Nat} (h : a ≤ b) : (magUnits a : ℚ) ≤ magUnits b := Nat.cast_le.2 (magUnits_le_iff.2 h)
  obtain hmt | rfl | hmt := lt_trichotomy m t
  · have := mono hmt
    have := mono (Nat.le_succ t)
    exact iff_of_false (by omega) (by linarith)
  · obtain ⟨rfl, hnear⟩ | ⟨rfl, hnear⟩ := hdir
    · exact iff_of_false (lt_irrefl _) fun h => by have := htie (by linarith); omega
    · exact iff_of_true (Nat.lt_succ_self _) hnear
  · have := mono hmt
    have := mono (Nat.le_succ t)
    exact iff_of_true (by omega) (by linarith)

/-- The rounded magnitude is finite below half a last place above the greatest finite one, 2^128 - 2^103. -/
theorem nearestMag_lt_infMag_iff (num : Nat) {den : Nat} (hden : 0 < den) :
    nearestMag num den < infMag ↔ (num / den / unitsOfOne : ℚ) < 2 ^ 128 - 2 ^ 103 := by
  have hiff := lt_nearestMag_iff num (t := infMag - 1) hden (by decide)
  rw [show infMag - 1 + 1 = infMag from rfl, magUnits_infMag_pred, magUnits_infMag] at hiff
  rw [div_lt_iff₀ unitsOfOne_cast_pos]
  have hcast : (unitsOfOne : ℚ) = 2 ^ 149 := by norm_num [unitsOfOne]
  rw [← not_iff_not, not_lt, not_lt, hcast, show infMag ≤ nearestMag num den ↔ _ from hiff]
  push_cast
  constructor <;> intro h <;> linarith

theorem f32Pack_mod_two (neg : Bool) (mag : Nat) : (f32Pack neg mag).toNat % 2 = mag % 2 := by
  simp only [f32Pack, BitVec.toNat_ofNat]
  cases neg
  · simp
  · simp; omega

/-- No binary32 of either sign is nearer to the exact result than the rounded one. -/
theorem value_pack_nearest (neg : Bool) (num : Nat) {den : Nat} (hden : 0 < den) (hfin : nearestMag num den ≤ infMag)
    (y : F32) :
    NearestEven (signFactor neg * (num / den / unitsOfOne)) (Ref.value (f32Pack neg (nearestMag num den)))
      (Ref.value y) (nearestMag num den % 2 = 0) := by
  have hnear := (nearestMag_nearest num hden (f32Mag y)).div unitsOfOne_cast_pos
  have hzero := (nearestMag_nearest num hden 0).div unitsOfOne_cast_pos
  have hw : (0 : ℚ) ≤ num / den / unitsOfOne := by positivity
  have hy : (0 : ℚ) ≤ magUnits (f32Mag y) / unitsOfOne := by positivity
  rw [value_pack hfin, value_eq y]
  simp only [NearestEven, magUnits_zero, Nat.cast_zero, zero_div, sub_zero, abs_of_nonneg hw] at hnear hzero ⊢
  rw [← mul_sub, abs_signFactor_mul]
  generalize (num / den / unitsOfOne : ℚ) = w at *
  generalize (magUnits (nearestMag num den) / unitsOfOne : ℚ) = r at *
  generalize (magUnits (f32Mag y) / unitsOfOne : ℚ) = u at *
  obtain hs | hs : f32Neg y = neg ∨ f32Neg y = !neg := by cases f32Neg y <;> cases neg <;> simp
  · rw [hs, ← mul_sub, abs_signFactor_mul]
    exact ⟨hnear.1, fun h => (hnear.2 h).imp_left fun h => by rw [h]⟩
  · -- A value of the other sign is no nearer than 0, and as near only when it is 0.
    have hfar : |signFactor neg * w - signFactor (!neg) * u| = w + u := by
      rw [signFactor_not, neg_mul, sub_neg_eq_add, ← mul_add, abs_signFactor_mul, abs_of_nonneg (add_nonneg hw hy)]
    obtain ⟨hle, htie⟩ := hzero
    rw [hs, hfar]
    refine ⟨by linarith, fun h => ?_⟩
    obtain rfl : u = 0 := by linarith
    exact (htie (by linarith)).imp_left fun h => by rw [← h, mul_zero, mul_zero]

/-- The exact result `num / den` units of 2^-149, with its sign, is rounded once. -/
theorem roundsTo_pack (neg : Bool) (num : Nat) {den : Nat} (hden : 0 < den) :
    Ref.roundsTo (signFactor neg * (num / den / unitsOfOne)) (f32Pack neg (roundUnits num den)) := by
  have hU := unitsOfOne_cast_pos
  have hle := roundUnits_le num den
  have h31 : roundUnits num den < 0x80000000 := by unfold infMag at hle; omega
  have hw : (0 : ℚ) ≤ num / den / unitsOfOne := by positivity
  rw [Ref.roundsTo, abs_signFactor_mul, abs_of_nonneg hw, ← nearestMag_lt_infMag_iff num hden]
  refine ⟨fun hfin => ?_, fun hinf => ?_, fun hne => ?_⟩
  · have hr : roundUnits num den = nearestMag num den := by rw [roundUnits_eq, min_eq_left hfin.le]
    rw [hr] at h31 ⊢
    refine ⟨by rwa [finite_iff, f32Mag_pack h31], fun y _ => ?_⟩
    rw [f32Pack_mod_two]
    exact value_pack_nearest neg num hden hfin.le y
  · rw [← not_lt, ← nearestMag_lt_infMag_iff num hden, not_lt] at hinf
    have hr : roundUnits num den = infMag := by rw [roundUnits_eq, min_eq_right hinf]
    exact (f32Mag_pack h31).trans hr
  · rw [msb_eq_f32Neg, f32Neg_pack h31]
    have hpos : (0 : ℚ) < num / den / unitsOfOne := hw.lt_of_ne' (right_ne_zero_of_mul hne)
    cases neg
    · simp [hw]
    · simp [hpos]

end Sys2Proof.Machine
end

section
/-! PROOFS. The four binary32 operations and `i2f` round once (R10, R11). -/

namespace Sys2Proof.Machine

theorem f32IsNaN_of_finite {x : F32} (h : Ref.finite x) : f32IsNaN x = false := by
  rw [finite_iff] at h
  simp [f32IsNaN, h.le]

theorem f32IsInf_of_finite {x : F32} (h : Ref.finite x) : f32IsInf x = false := by
  rw [finite_iff] at h
  simp [f32IsInf, h.ne]

/-! ### The operations on finite operands -/

theorem fadd_of_finite {a b : F32} (ha : Ref.finite a) (hb : Ref.finite b) :
    fadd a b = if f32Units a + f32Units b = 0 then f32Pack (f32Neg a && f32Neg b) 0
      else f32OfUnits (f32Units a + f32Units b) := by
  simp [fadd, f32IsNaN_of_finite, f32IsInf_of_finite, ha, hb]

theorem fmul_of_finite {a b : F32} (ha : Ref.finite a) (hb : Ref.finite b) :
    fmul a b = f32Pack (f32Neg a != f32Neg b)
      (roundUnits (magUnits (f32Mag a) * magUnits (f32Mag b)) unitsOfOne) := by
  simp [fmul, f32IsNaN_of_finite, f32IsInf_of_finite, ha, hb]

theorem fdiv_of_finite {a b : F32} (ha : Ref.finite a) (hb : Ref.finite b) (h0 : f32Mag b ≠ 0) :
    fdiv a b = f32Pack (f32Neg a != f32Neg b)
      (roundUnits (magUnits (f32Mag a) * unitsOfOne) (magUnits (f32Mag b))) := by
  simp [fdiv, f32IsNaN_of_finite, f32IsInf_of_finite, ha, hb, h0]

/-! ### Each rounds the exact result once -/

/-- An integer from its sign and its absolute value. -/
theorem signFactor_mul_natAbs (n : ℤ) : signFactor (n < 0) * (n.natAbs : ℚ) = n := by
  rw [Nat.cast_natAbs, Int.cast_abs]
  by_cases hn : n < 0
  · have hq : (n : ℚ) < 0 := by exact_mod_cast hn
    simp [hn, abs_of_neg hq]
  · have hq : (0 : ℚ) ≤ n := by exact_mod_cast not_lt.1 hn
    simp [hn, abs_of_nonneg hq]

/-- A whole number of units is rounded once. -/
theorem roundsTo_f32OfUnits (n : ℤ) : Ref.roundsTo (n / unitsOfOne) (f32OfUnits n) := by
  have h := roundsTo_pack (n < 0) n.natAbs one_pos
  rwa [Nat.cast_one, div_one, ← mul_div_assoc, signFactor_mul_natAbs] at h

/-- The exact result 0 is rounded to a zero of either sign. -/
theorem roundsTo_zero (neg : Bool) : Ref.roundsTo 0 (f32Pack neg 0) := by
  simpa using roundsTo_pack neg 0 one_pos

theorem roundsTo_fadd {a b : F32} (ha : Ref.finite a) (hb : Ref.finite b) :
    Ref.roundsTo (Ref.value a + Ref.value b) (fadd a b) := by
  rw [fadd_of_finite ha hb, value_eq_units, value_eq_units, ← add_div, ← Int.cast_add]
  split
  · rename_i h0
    rw [h0, Int.cast_zero, zero_div]
    exact roundsTo_zero _
  · exact roundsTo_f32OfUnits _

theorem roundsTo_fsub {a b : F32} (ha : Ref.finite a) (hb : Ref.finite b) :
    Ref.roundsTo (Ref.value a - Ref.value b) (fsub a b) := by
  rw [sub_eq_add_neg, ← value_fneg]
  exact roundsTo_fadd ha (finite_fneg.2 hb)

theorem roundsTo_fmul {a b : F32} (ha : Ref.finite a) (hb : Ref.finite b) :
    Ref.roundsTo (Ref.value a * Ref.value b) (fmul a b) := by
  have h := roundsTo_pack (f32Neg a != f32Neg b) (magUnits (f32Mag a) * magUnits (f32Mag b)) unitsOfOne_pos
  rw [fmul_of_finite ha hb, value_eq, value_eq]
  convert h using 1
  rw [signFactor_bne]
  push_cast
  ring

theorem roundsTo_fdiv {a b : F32} (ha : Ref.finite a) (hb : Ref.finite b) (h0 : Ref.value b ≠ 0) :
    Ref.roundsTo (Ref.value a / Ref.value b) (fdiv a b) := by
  rw [Ne, value_eq_zero] at h0
  have hpos : 0 < magUnits (f32Mag b) := Nat.pos_of_ne_zero (magUnits_eq_zero.not.2 h0)
  have h := roundsTo_pack (f32Neg a != f32Neg b) (magUnits (f32Mag a) * unitsOfOne) hpos
  rw [fdiv_of_finite ha hb h0, value_eq, value_eq]
  convert h using 1
  have hU := unitsOfOne_cast_pos.ne'
  have hb' : (magUnits (f32Mag b) : ℚ) ≠ 0 := by exact_mod_cast hpos.ne'
  rw [mul_div_mul_comm, signFactor_div]
  push_cast
  field_simp

/-- Settles O45: each operation is one rounding of the exact result in units of 2^-149. -/
theorem arithmeticRoundsOnce : Obligations.ArithmeticRoundsOnce :=
  fun _ _ ha hb => ⟨roundsTo_fadd ha hb, roundsTo_fsub ha hb, roundsTo_fmul ha hb, roundsTo_fdiv ha hb⟩

/-! ### `i2f` -/

theorem roundsTo_i2f (n : ℤ) : Ref.roundsTo (n : ℚ) (i2f n) := by
  have h := roundsTo_f32OfUnits (n * unitsOfOne)
  rwa [Int.cast_mul, Int.cast_natCast, mul_div_cancel_right₀ _ unitsOfOne_cast_pos.ne'] at h

/-- A magnitude whose bits below the 24 leading ones are all 0 is that of a binary32. -/
theorem exists_magUnits_eq {q : Nat} (h : 2 ^ excessBits q ∣ q) : ∃ m, magUnits m = q := by
  obtain ⟨hq, hk⟩ := excessBits_spec q
  obtain ⟨s, hs⟩ := h
  generalize excessBits q = k at *
  subst hs
  have hpow : 0 < 2 ^ k := by positivity
  rw [mul_comm (2 ^ k) s] at hq hk ⊢
  exact ⟨k * 2 ^ 23 + s, magUnits_significand (Nat.lt_of_mul_lt_mul_right hq).le
    (hk.imp_right fun h => Nat.le_of_mul_le_mul_right h hpow)⟩

/-- The whole numbers up to 2^24 have magnitudes. -/
theorem exists_magUnits_eq_mul_unitsOfOne {n : Nat} (h : n ≤ 2 ^ 24) : ∃ m, magUnits m = n * unitsOfOne := by
  obtain rfl | hlt := h.eq_or_lt
  · exact ⟨150 * 2 ^ 23 + 2 ^ 23, by rw [magUnits_significand (by decide) (by decide), unitsOfOne]; ring⟩
  · refine exists_magUnits_eq (dvd_mul_of_dvd_right (pow_dvd_pow 2 ?_) n)
    obtain ⟨-, h0 | hk⟩ := excessBits_spec (n * unitsOfOne)
    · omega
    · have hbound : 2 ^ (23 + excessBits (n * unitsOfOne)) < 2 ^ (24 + 149) := by
        rw [pow_add, pow_add]
        exact hk.trans_lt (Nat.mul_lt_mul_of_pos_right hlt unitsOfOne_pos)
      have := (Nat.pow_lt_pow_iff_right one_lt_two).1 hbound
      omega

/-- The whole numbers up to 2^24 are values. -/
theorem exists_value_eq_int {n : ℤ} (h : |n| ≤ 2 ^ 24) : ∃ y, Ref.finite y ∧ Ref.value y = n := by
  have hn : n.natAbs ≤ 2 ^ 24 := by rw [Int.abs_eq_natAbs] at h; omega
  obtain ⟨m, hm⟩ := exists_magUnits_eq_mul_unitsOfOne hn
  have hlt : m < infMag := by
    rw [← magUnits_strictMono.lt_iff_lt, hm, magUnits_infMag]
    calc n.natAbs * unitsOfOne ≤ 2 ^ 24 * unitsOfOne := Nat.mul_le_mul_right _ hn
      _ < 2 ^ 24 * 2 ^ 253 := by rw [unitsOfOne]; norm_num
  refine ⟨f32Pack (n < 0) m, ?_, ?_⟩
  · rwa [finite_iff, f32Mag_pack (hlt.trans (by decide))]
  · rw [value_pack hlt.le, hm, Nat.cast_mul, mul_div_cancel_right₀ _ unitsOfOne_cast_pos.ne', signFactor_mul_natAbs]

/-- A finite binary32 is its own rounding. -/
theorem value_of_roundsTo_value {y r : F32} (hy : Ref.finite y) (h : Ref.roundsTo (Ref.value y) r)
    (hlt : |Ref.value y| < 2 ^ 128 - 2 ^ 103) : Ref.value r = Ref.value y := by
  have hle := ((h.1 hlt).2 y hy).1
  rw [sub_self, abs_zero] at hle
  linarith [abs_nonpos_iff.1 hle]

/-- Settles O47: `i2f` is one rounding, which keeps what is a value already and is finite below 2^128 - 2^103. -/
theorem integerToFloat : Obligations.IntegerToFloat := by
  intro n
  have hround := roundsTo_i2f n
  have hbelow (h : |n| < 2 ^ 127) : |(n : ℚ)| < 2 ^ 128 - 2 ^ 103 := by
    have hq : |(n : ℚ)| < 2 ^ 127 := by exact_mod_cast h
    linarith
  refine ⟨hround, fun hexact => ?_, fun hlt => (hround.1 (hbelow hlt)).1⟩
  obtain ⟨y, hy, hval⟩ := exists_value_eq_int hexact
  rw [← hval] at hround ⊢
  refine value_of_roundsTo_value hy hround ?_
  rw [hval]
  exact hbelow (hexact.trans_lt (by norm_num))

end Sys2Proof.Machine
end

section
/-! PROOFS. The results of IEEE 754 on infinities, NaNs and zeros (R10). -/

namespace Sys2Proof.Machine

/-! ### NaN -/

theorem f32IsNaN_iff {x : F32} : f32IsNaN x = true ↔ Ref.nan x := by
  rw [nan_iff, f32IsNaN, decide_eq_true_eq]

theorem nan_f32NaN : Ref.nan f32NaN := f32IsNaN_iff.1 (by decide)

/-- Every operation answers the one NaN when an operand is a NaN. -/
theorem arithmetic_of_nan {a b : F32} (h : Ref.nan a ∨ Ref.nan b) :
    fadd a b = f32NaN ∧ fmul a b = f32NaN ∧ fdiv a b = f32NaN := by
  have hnan : (f32IsNaN a || f32IsNaN b) = true := by rwa [Bool.or_eq_true, f32IsNaN_iff, f32IsNaN_iff]
  exact ⟨if_pos hnan, if_pos hnan, if_pos hnan⟩

theorem arithmetic_nan {a b : F32} (h : Ref.nan a ∨ Ref.nan b) :
    Ref.nan (fadd a b) ∧ Ref.nan (fsub a b) ∧ Ref.nan (fmul a b) ∧ Ref.nan (fdiv a b) := by
  obtain ⟨hadd, hmul, hdiv⟩ := arithmetic_of_nan h
  obtain ⟨hsub, -⟩ := arithmetic_of_nan (h.imp_right nan_fneg.2)
  rw [fsub, hadd, hsub, hmul, hdiv]
  exact ⟨nan_f32NaN, nan_f32NaN, nan_f32NaN, nan_f32NaN⟩

/-! ### Infinities and zeros as operands -/

theorem infMag_lt : infMag < 0x80000000 := by decide

@[simp] theorem f32Mag_inf (n : Bool) : f32Mag (f32Pack n infMag) = infMag := f32Mag_pack infMag_lt

@[simp] theorem f32Neg_inf (n : Bool) : f32Neg (f32Pack n infMag) = n := f32Neg_pack infMag_lt

@[simp] theorem fneg_inf (n : Bool) : fneg (f32Pack n infMag) = f32Pack (!n) infMag := fneg_pack infMag_lt

@[simp] theorem f32IsNaN_inf (n : Bool) : f32IsNaN (f32Pack n infMag) = false := by simp [f32IsNaN]

@[simp] theorem f32IsInf_inf (n : Bool) : f32IsInf (f32Pack n infMag) = true := by simp [f32IsInf]

@[simp] theorem infMag_ne_zero : infMag ≠ 0 := by decide

@[simp] theorem f32Mag_zero (n : Bool) : f32Mag (f32Pack n 0) = 0 := f32Mag_pack (by decide)

@[simp] theorem f32Neg_zero (n : Bool) : f32Neg (f32Pack n 0) = n := f32Neg_pack (by decide)

theorem finite_zero (n : Bool) : Ref.finite (f32Pack n 0) := by rw [finite_iff, f32Mag_zero]; decide

section FiniteAndInfinity

variable {a : F32} (ha : Ref.finite a) (n : Bool)
include ha

theorem fadd_finite_inf : fadd a (f32Pack n infMag) = f32Pack n infMag := by
  simp [fadd, f32IsNaN_of_finite ha, f32IsInf_of_finite ha]

theorem fadd_inf_finite : fadd (f32Pack n infMag) a = f32Pack n infMag := by
  simp [fadd, f32IsNaN_of_finite ha, f32IsInf_of_finite ha]

theorem fsub_finite_inf : fsub a (f32Pack n infMag) = f32Pack (!n) infMag := by
  rw [fsub, fneg_inf, fadd_finite_inf ha]

theorem fsub_inf_finite : fsub (f32Pack n infMag) a = f32Pack n infMag :=
  fadd_inf_finite (finite_fneg.2 ha) n

theorem fdiv_finite_inf : fdiv a (f32Pack n infMag) = f32Pack (f32Neg a != n) 0 := by
  simp [fdiv, f32IsNaN_of_finite ha, f32IsInf_of_finite ha]

theorem fdiv_inf_finite : fdiv (f32Pack n infMag) a = f32Pack (f32Neg a != n) infMag := by
  simp [fdiv, f32IsNaN_of_finite ha, f32IsInf_of_finite ha, bne_comm (a := n)]

theorem fmul_finite_inf : fmul a (f32Pack n infMag) =
    if f32Mag a = 0 then f32NaN else f32Pack (f32Neg a != n) infMag := by
  simp [fmul, f32IsNaN_of_finite ha]

theorem fmul_inf_finite : fmul (f32Pack n infMag) a =
    if f32Mag a = 0 then f32NaN else f32Pack (f32Neg a != n) infMag := by
  simp [fmul, f32IsNaN_of_finite ha, bne_comm (a := n)]

theorem fdiv_finite_zero : fdiv a (f32Pack n 0) =
    if f32Mag a = 0 then f32NaN else f32Pack (f32Neg a != n) infMag := by
  simp [fdiv, f32IsNaN_of_finite, f32IsInf_of_finite, ha, finite_zero]

end FiniteAndInfinity

theorem fadd_inf_inf (n m : Bool) :
    fadd (f32Pack n infMag) (f32Pack m infMag) = if n = m then f32Pack n infMag else f32NaN := by
  simp [fadd]

theorem fsub_inf_inf (n m : Bool) :
    fsub (f32Pack n infMag) (f32Pack m infMag) = if n = m then f32NaN else f32Pack n infMag := by
  rw [fsub, fneg_inf, fadd_inf_inf]
  cases n <;> cases m <;> rfl

theorem fmul_inf_inf (n m : Bool) :
    fmul (f32Pack n infMag) (f32Pack m infMag) = f32Pack (n != m) infMag := by
  simp [fmul]

theorem fdiv_inf_inf (n m : Bool) : fdiv (f32Pack n infMag) (f32Pack m infMag) = f32NaN := by
  simp [fdiv]

/-! ### The sign of an exact zero -/

section ExactZero

variable {a b : F32} (ha : Ref.finite a) (hb : Ref.finite b)
include ha hb

theorem fadd_exact_zero (h : Ref.value a + Ref.value b = 0) : fadd a b = f32Pack (f32Neg a && f32Neg b) 0 := by
  rw [value_eq_units, value_eq_units, ← add_div, div_eq_zero_iff, or_iff_left unitsOfOne_cast_pos.ne'] at h
  rw [fadd_of_finite ha hb, if_pos (by exact_mod_cast h)]

theorem fsub_exact_zero (h : Ref.value a - Ref.value b = 0) : fsub a b = f32Pack (f32Neg a && !f32Neg b) 0 := by
  rw [sub_eq_add_neg, ← value_fneg] at h
  rw [fsub, fadd_exact_zero ha (finite_fneg.2 hb) h, f32Neg_fneg]

theorem fmul_exact_zero (h : Ref.value a * Ref.value b = 0) : fmul a b = f32Pack (f32Neg a != f32Neg b) 0 := by
  have hunits : magUnits (f32Mag a) * magUnits (f32Mag b) = 0 := by
    rwa [mul_eq_zero, value_eq_zero, value_eq_zero, ← magUnits_eq_zero, ← @magUnits_eq_zero (f32Mag b),
      ← mul_eq_zero] at h
  rw [fmul_of_finite ha hb, hunits, roundUnits_zero]

theorem fdiv_exact_zero (h : Ref.value a = 0) (h0 : Ref.value b ≠ 0) :
    fdiv a b = f32Pack (f32Neg a != f32Neg b) 0 := by
  rw [value_eq_zero] at h
  rw [Ne, value_eq_zero] at h0
  rw [fdiv_of_finite ha hb h0, h, magUnits_zero, zero_mul, roundUnits_zero]

end ExactZero

/-- Settles O46: one lemma per operation and class of operands. -/
theorem arithmeticOnSpecials : Obligations.ArithmeticOnSpecials := by
  unfold Obligations.ArithmeticOnSpecials
  simp only [msb_eq_f32Neg]
  refine ⟨fun _ _ => arithmetic_nan, fun a n ha => ?_, fun n m => ?_, fun a b ha hb => ?_⟩
  · refine ⟨fadd_finite_inf ha n, fadd_inf_finite ha n, fsub_finite_inf ha n, fsub_inf_finite ha n,
      fdiv_finite_inf ha n, fdiv_inf_finite ha n, ?_⟩
    rw [fmul_finite_inf ha, fmul_inf_finite ha, fdiv_finite_zero ha, Ne, value_eq_zero]
    refine ⟨fun h => ?_, fun h => ?_⟩
    · simp [h]
    · simp [h, nan_f32NaN]
  · rw [fadd_inf_inf, fsub_inf_inf, fdiv_inf_inf]
    refine ⟨nan_f32NaN, fmul_inf_inf n m, fun h => ?_, fun h => ?_⟩
    · simp [h, nan_f32NaN]
    · simp [h, nan_f32NaN]
  · exact ⟨fadd_exact_zero ha hb, fsub_exact_zero ha hb, fmul_exact_zero ha hb, fdiv_exact_zero ha hb⟩

end Sys2Proof.Machine
end

section
/-! PROOFS. The model's exponential has the four properties of R16, whatever its free values are. -/

namespace Sys2Proof.Machine

/-- At and below the low end the value is `top`. -/
theorem monotoneFill_of_le (f : Nat → Nat) (fuel hi top bottom : Nat) {lo m : Nat} (h : m ≤ lo) :
    monotoneFill f fuel lo hi top bottom m = top := by
  cases fuel <;> simp [monotoneFill, h]

/-- At the high end the value is `bottom`. -/
theorem monotoneFill_high (f : Nat → Nat) (fuel top bottom : Nat) {lo hi : Nat} (h : lo < hi) :
    monotoneFill f fuel lo hi top bottom hi = bottom := by
  cases fuel <;> simp [monotoneFill, h.not_ge]

/-- The magnitude bits of the exponential at the non-positive argument with magnitude bits `mag`. -/
def expMag (mag : Nat) : Nat := monotoneFill Config.expBits 32 0 infMag oneMag 0 mag

theorem expMag_antitone : Antitone expMag :=
  fun _ _ => monotoneFill_antitone _ _ _ _ _ _ _ _ (Nat.zero_le _)

theorem expMag_le_oneMag (mag : Nat) : expMag mag ≤ oneMag :=
  (monotoneFill_bounds _ _ _ _ _ _ _ (Nat.zero_le _)).2

theorem oneMag_lt_infMag : oneMag < infMag := by decide

/-- Both zeros, the negative values and -infinity are where R16 determines `exp32`. -/
theorem exp32_eq {x : F32} (hx : f32Mag x = 0 ∨ (f32Neg x = true ∧ f32Mag x ≤ infMag)) :
    exp32 x = f32Pack false (expMag (f32Mag x)) := by
  by_cases h0 : f32Mag x = 0
  · have hone : expMag 0 = oneMag := monotoneFill_of_le _ _ _ _ _ le_rfl
    simp only [exp32, exp32Of, h0, hone]
    rfl
  · obtain ⟨hneg, hle⟩ := hx.resolve_left h0
    simp [exp32, exp32Of, h0, hneg, hle, expMag]

/-- A finite value that is not above 0 is a zero or has its sign bit set. -/
theorem f32Mag_eq_zero_or_neg {x : F32} (hx : Ref.value x ≤ 0) : f32Mag x = 0 ∨ f32Neg x = true := by
  cases hneg : f32Neg x
  · have hnonneg : 0 ≤ Ref.value x := by rw [value_eq, hneg, signFactor_false]; positivity
    exact .inl (value_eq_zero.1 (le_antisymm hx hnonneg))
  · exact .inr rfl

theorem exp32_of_nonpos {x : F32} (hfin : Ref.finite x) (hx : Ref.value x ≤ 0) :
    exp32 x = f32Pack false (expMag (f32Mag x)) :=
  exp32_eq ((f32Mag_eq_zero_or_neg hx).imp_right fun hneg => ⟨hneg, (finite_iff.1 hfin).le⟩)

/-- The magnitude of a value that is not above 0. -/
theorem value_of_nonpos {x : F32} (hx : Ref.value x ≤ 0) :
    Ref.value x = -(magUnits (f32Mag x) / unitsOfOne) := by
  obtain h0 | hneg := f32Mag_eq_zero_or_neg hx
  · rw [value_eq_zero.2 h0, h0, magUnits_zero, Nat.cast_zero, zero_div, neg_zero]
  · rw [value_eq, hneg, signFactor_true, neg_one_mul]

theorem f32Mag_le_of_value_le {x y : F32} (hxy : Ref.value x ≤ Ref.value y) (hy : Ref.value y ≤ 0) :
    f32Mag y ≤ f32Mag x := by
  have hx := hxy.trans hy
  rw [value_of_nonpos hx, value_of_nonpos hy, neg_le_neg_iff,
    div_le_div_iff_of_pos_right unitsOfOne_cast_pos, Nat.cast_le, magUnits_le_iff] at hxy
  exact hxy

/-- Among values that are not negative, those of lower magnitude bits are lower. -/
theorem value_pack_false_le {m n : Nat} (hmn : m ≤ n) (hn : n ≤ infMag) :
    Ref.value (f32Pack false m) ≤ Ref.value (f32Pack false n) := by
  rw [value_pack hn, value_pack (hmn.trans hn), signFactor_false, one_mul, one_mul,
    div_le_div_iff_of_pos_right unitsOfOne_cast_pos, Nat.cast_le, magUnits_le_iff]
  exact hmn

theorem value_one : Ref.value (f32Pack false oneMag) = 1 := by
  rw [value_pack oneMag_lt_infMag.le, magUnits_oneMag, div_self unitsOfOne_cast_pos.ne', signFactor_false, one_mul]

/-- Settles O44: on x ≤ 0 the exponential is the bounded antitone `expMag` of the magnitude bits. -/
theorem exponentialProperties : Obligations.ExponentialProperties := by
  refine ⟨⟨rfl, rfl⟩, fun x hfin hx => ?_, fun x y hfx hfy hxy hy => ?_, ?_⟩
  · have hle := expMag_le_oneMag (f32Mag x)
    have hinf := oneMag_lt_infMag
    have hzero : Ref.value (f32Pack false 0) = 0 := value_eq_zero.2 (f32Mag_zero false)
    rw [exp32_of_nonpos hfin hx, ← hzero, ← value_one]
    refine ⟨?_, value_pack_false_le (Nat.zero_le _) (hle.trans hinf.le), value_pack_false_le hle hinf.le⟩
    rw [finite_iff, f32Mag_pack (hle.trans_lt (by decide))]
    exact hle.trans_lt hinf
  · rw [exp32_of_nonpos hfx (hxy.trans hy), exp32_of_nonpos hfy hy]
    exact value_pack_false_le (expMag_antitone (f32Mag_le_of_value_le hxy hy))
      ((expMag_le_oneMag _).trans oneMag_lt_infMag.le)
  · have hinf : expMag infMag = 0 := monotoneFill_high _ _ _ _ (by decide)
    exact (exp32_eq (.inr ⟨rfl, le_rfl⟩)).trans (congrArg _ hinf)

end Sys2Proof.Machine
end

section
/-! PROOFS. What a command can do, said once: it ends the pass, raises an error other than `IllegalCommand`, latches
the registry, or stores its whole output (R22, R28, R32, R251). What commands leave unchanged follows by cases. -/

namespace Sys2Proof.Machine

/-! ### No check of a command raises `IllegalCommand`: the fetch alone does (R256) -/

/-- The computation does not raise `IllegalCommand`. -/
def NotIllegal {α : Type} (r : Except Stop α) : Prop := r ≠ .error (.error .illegalCommand)

theorem NotIllegal.bind {α β : Type} {x : Except Stop α} {f : α → Except Stop β} (hx : NotIllegal x)
    (hf : ∀ a, NotIllegal (f a)) : NotIllegal (x >>= f) := fun h =>
  (bind_error_iff.1 h).elim hx fun ⟨a, _, ha⟩ => hf a ha

theorem notIllegal_ok {α : Type} (a : α) : NotIllegal (.ok a) := nofun

theorem notIllegal_require {c : Bool} {e : EngineError} (he : e ≠ .illegalCommand) : NotIllegal (require c e) :=
  fun h => he (Stop.error.inj (require_error_iff.1 h).2).symm

theorem notIllegal_insideMemory (s : State) (a n : Nat) : NotIllegal (s.insideMemory a n) :=
  fun h => nomatch (insideMemory_error_iff.1 h).2

/-- What stops with refusals alone raises no error. -/
theorem notIllegal_of_refuse {α : Type} {r : Except Stop α} (h : ∀ {x}, r = .error x → ∃ q, x = .refuse q) :
    NotIllegal r := fun hr => nomatch h hr

theorem notIllegal_readDesc (s : State) (d : Word) : NotIllegal (readDesc s d) := fun h => nomatch readDesc_error h

theorem notIllegal_lookup (s : State) (pos : Word) : NotIllegal (lookup s pos) :=
  (notIllegal_require (by decide)).bind fun _ => (notIllegal_insideMemory _ _ _).bind fun _ =>
    (notIllegal_require (by decide)).bind fun _ => (notIllegal_require (by decide)).bind fun _ =>
      (notIllegal_insideMemory _ _ _).bind fun _ => notIllegal_ok _

theorem notIllegal_dwChecks (s : State) (c : ConvOperands) : NotIllegal (dwChecks s c) :=
  (notIllegal_lookup _ _).bind fun _ => (notIllegal_readDesc _ _).bind fun _ => (notIllegal_readDesc _ _).bind fun _ =>
    (notIllegal_require (by decide)).bind fun _ => (notIllegal_require (by decide)).bind fun _ =>
      (notIllegal_require (by decide)).bind fun _ => notIllegal_ok _

theorem notIllegal_pwChecks (s : State) (c : ConvOperands) : NotIllegal (pwChecks s c) :=
  (notIllegal_lookup _ _).bind fun _ => (notIllegal_readDesc _ _).bind fun _ => (notIllegal_readDesc _ _).bind fun _ =>
    (notIllegal_require (by decide)).bind fun _ => (notIllegal_require (by decide)).bind fun _ =>
      (notIllegal_require (by decide)).bind fun _ => notIllegal_ok _

theorem notIllegal_gapChecks (s : State) (o : TensorOperands) : NotIllegal (gapChecks s o) :=
  (notIllegal_readDesc _ _).bind fun _ => (notIllegal_readDesc _ _).bind fun _ =>
    (notIllegal_require (by decide)).bind fun _ => notIllegal_ok _

theorem notIllegal_softmaxChecks (s : State) (o : TensorOperands) : NotIllegal (softmaxChecks s o) :=
  (notIllegal_readDesc _ _).bind fun _ => (notIllegal_readDesc _ _).bind fun _ =>
    (notIllegal_require (by decide)).bind fun _ => (notIllegal_require (by decide)).bind fun _ =>
      (notIllegal_require (by decide)).bind fun _ => notIllegal_ok _

theorem notIllegal_ldmetaResult (s : State) (m : MetaOperands) : NotIllegal (ldmetaResult s m) :=
  NotIllegal.bind
    ((notIllegal_require (by decide)).bind fun _ => (notIllegal_require (by decide)).bind fun _ =>
      (notIllegal_require (by decide)).bind fun _ => fun h => nomatch checkRecords_error h)
    fun _ => notIllegal_ok _

theorem notIllegal_dwResult (s : State) (c : ConvOperands) : NotIllegal (dwResult s c) :=
  (notIllegal_dwChecks _ _).bind fun _ => (notIllegal_of_refuse convPreconditions_error).bind fun _ =>
    (notIllegal_of_refuse dwBytes_error).bind fun _ => notIllegal_ok _

theorem notIllegal_pwResult (s : State) (c : ConvOperands) : NotIllegal (pwResult s c) :=
  (notIllegal_pwChecks _ _).bind fun _ => (notIllegal_of_refuse convPreconditions_error).bind fun _ =>
    (notIllegal_of_refuse pwBytes_error).bind fun _ => notIllegal_ok _

theorem notIllegal_gapResult (s : State) (o : TensorOperands) : NotIllegal (gapResult s o) :=
  (notIllegal_gapChecks _ _).bind fun _ => (notIllegal_of_refuse gapPreconditions_error).bind fun _ =>
    (notIllegal_of_refuse gapBytes_error).bind fun _ => notIllegal_ok _

theorem notIllegal_softmaxResult (s : State) (o : TensorOperands) : NotIllegal (softmaxResult s o) :=
  (notIllegal_softmaxChecks _ _).bind fun _ => (notIllegal_of_refuse softmaxPreconditions_error).bind fun _ =>
    (notIllegal_of_refuse softmaxBytes_error).bind fun _ => notIllegal_ok _

/-! ### The effects of a command -/

/-- The next states a command can give: see `exec_next`. -/
inductive CommandEffect (s : State) : Instr → State → Prop
  /-- `END` (R226) -/
  | ended : CommandEffect s .endPass { s with status := endStatus s.status }
  /-- error entry (R251, R258) -/
  | raised {i : Instr} {e : EngineError} (hi : i ≠ .endPass) (he : e ≠ .illegalCommand) :
      CommandEffect s i (raise e s)
  /-- an `LDMETA` whose checks pass (R208) -/
  | latched {m : MetaOperands} (hchecks : ldmetaChecks s m = .ok ()) :
      CommandEffect s (.ldmeta m) (s.latchRegistry m).advance
  /-- a tensor command that stores all bytes of its output data, which lies in memory (R32, R57) -/
  | stored {i : Instr} {bs : List Byte} (hi : i ≠ .endPass) (hlen : bs.length = (Ref.storeRange s i).2)
      (hin : (Ref.storeRange s i).1 + bs.length ≤ s.memBytes) :
      CommandEffect s i (s.store (Ref.storeRange s i).1 bs).advance

/-- A result concluded is error entry, or the state the result holds. -/
theorem CommandEffect.of_conclude {s t : State} {i : Instr} {r : Except Stop State} (hi : i ≠ .endPass)
    (hr : NotIllegal r) (hok : ∀ {u}, r = .ok u → CommandEffect s i u) (h : s.conclude r = .next t) :
    CommandEffect s i t := by
  obtain h | ⟨e, rfl, rfl⟩ := conclude_next h
  · exact hok h
  · exact .raised hi fun he => hr (he ▸ rfl)

/-- A store of as many bytes as the output tensor has, at its data, is what the command's store range says. -/
theorem CommandEffect.of_output {s : State} {i : Instr} {output : Word} {dout : TensorDesc} {bs : List Byte}
    (hi : i ≠ .endPass) (hout : readDesc s output = .ok dout) (hlen : bs.length = dout.size)
    (hrange : Ref.storeRange s i =
      ((descFields s.mem output.toNat).data, (descFields s.mem output.toNat).size)) :
    CommandEffect s i (s.store dout.data bs).advance := by
  obtain ⟨-, -, hin, rfl⟩ := readDesc_ok_iff.1 hout
  have heffect := CommandEffect.stored (s := s) (bs := bs) hi (by rw [hrange, hlen]) (by rwa [hrange, hlen])
  rwa [hrange] at heffect

/-- The size of a tensor of one position. -/
theorem size_of_one_position {d : TensorDesc} (hh : d.height = 1) (hw : d.width = 1) : d.size = d.channels := by
  simp [TensorDesc.size, hh, hw]

/-- What a command that answers a next state does. -/
theorem exec_next {i : Instr} {s t : State} (h : exec i s = .next t) : CommandEffect s i t := by
  cases i with
  | endPass => cases h; exact .ended
  | ldmeta m =>
    refine .of_conclude nofun (notIllegal_ldmetaResult s m) (fun hok => ?_) h
    obtain ⟨hchecks, rfl⟩ := ldmetaResult_ok hok
    exact .latched hchecks
  | dwconv c =>
    refine .of_conclude nofun (notIllegal_dwResult s c) (fun hok => ?_) h
    obtain ⟨p, bs, hchecks, -, hbytes, rfl⟩ := dwResult_ok hok
    obtain ⟨-, -, hout, -⟩ := dwChecks_ok_iff.1 hchecks
    exact .of_output nofun hout (tensorBytes_length hbytes) rfl
  | pwconv c =>
    refine .of_conclude nofun (notIllegal_pwResult s c) (fun hok => ?_) h
    obtain ⟨p, bs, hchecks, -, hbytes, rfl⟩ := pwResult_ok hok
    obtain ⟨-, -, hout, -⟩ := pwChecks_ok_iff.1 hchecks
    exact .of_output nofun hout (tensorBytes_length hbytes) rfl
  | gap o =>
    refine .of_conclude nofun (notIllegal_gapResult s o) (fun hok => ?_) h
    obtain ⟨p, bs, hchecks, -, hbytes, rfl⟩ := gapResult_ok hok
    obtain ⟨-, hout, hh, hw, hc⟩ := gapChecks_ok_iff.1 hchecks
    exact .of_output nofun hout (by rw [gapBytes_length hbytes, size_of_one_position hh hw, hc]) rfl
  | softmax o =>
    refine .of_conclude nofun (notIllegal_softmaxResult s o) (fun hok => ?_) h
    obtain ⟨p, bs, hchecks, -, hbytes, rfl⟩ := softmaxResult_ok hok
    obtain ⟨-, hout, -, ⟨hh, hw, hc⟩, -⟩ := softmaxChecks_ok_iff.1 hchecks
    exact .of_output nofun hout (by rw [softmaxBytes_length hbytes, size_of_one_position hh hw, hc]) rfl

/-! ### The statements that follow by cases on the effect -/

/-- Settles O9: the three cases are `END`, error entry, and the two effects that advance the pointer. -/
theorem execEndsRaisesOrAdvances : Obligations.ExecEndsRaisesOrAdvances := by
  intro i s t h
  cases exec_next h with
  | ended => exact .inl ⟨rfl, rfl⟩
  | raised hi he => exact .inr (.inl ⟨hi, _, he, rfl⟩)
  | latched => exact .inr (.inr ⟨nofun, rfl, rfl, rfl, rfl⟩)
  | stored hi => exact .inr (.inr ⟨hi, rfl, rfl, rfl, rfl⟩)

/-- The number of records fits the register it is latched in. -/
theorem latchRegistry_metaCount_toNat (s : State) (m : MetaOperands) :
    (s.latchRegistry m).metaCount.toNat = m.metaLen.toNat / 16 := by
  have := m.metaLen.isLt
  rw [latchRegistry_metaCount, BitVec.toNat_ofNat, Nat.mod_eq_of_lt (by omega)]

/-- Settles O10: of the effects only the latch touches the registry. -/
theorem onlyLdmetaWritesRegistry : Obligations.OnlyLdmetaWritesRegistry := by
  intro i s t h
  cases exec_next h with
  | ended | raised | stored => exact .inl ⟨rfl, rfl, rfl, rfl⟩
  | @latched m => exact .inr ⟨m, rfl, rfl, latchRegistry_metaCount_toNat s m, rfl, rfl⟩

/-- The command pointer of a command that advances it is another one. -/
theorem advance_cmdPtr_ne (s : State) : s.advance.cmdPtr ≠ s.cmdPtr := by
  rw [advance_cmdPtr]
  bv_omega

/-- Settles O11: memory is written by the store alone, which stays in its range and advances the pointer. -/
theorem commandsWriteOnlyOutputData : Obligations.CommandsWriteOnlyOutputData := by
  intro i s t hwf h
  cases exec_next h with
  | ended | raised | latched => exact ⟨⟨rfl, rfl, rfl⟩, fun _ _ => rfl, fun _ => rfl⟩
  | @stored _ bs _ hlen hin =>
    refine ⟨⟨rfl, rfl, rfl⟩, fun a ha => ?_, fun hptr => absurd hptr (advance_cmdPtr_ne _)⟩
    rw [← hlen] at ha
    exact readByte_writeBytes_outside hwf hin ha

end Sys2Proof.Machine
end

section
/-! PROOFS. The invariant holds at reset, and the engine's turn and every host move keep it (R26, R27, R34, R209). -/

namespace Sys2Proof.Machine

/-! ### Resets -/

/-- With every register 0 the invariant is left to the memory: it holds after each reset. -/
theorem inv_of_registersZero {s : State} (hsize : s.sizeLegal) (hmem : Memory.wf s.memBytes s.mem = true)
    (hzero : s.registersZero) : s.Inv := by
  obtain ⟨hstatus, -, hcode, hpc, hbase, hcount, hblob, hlen⟩ := hzero
  refine ⟨hsize, hmem, .inl hstatus, ?_, ?_, ?_⟩
  · rw [State.errorLegal, if_neg (by rw [hstatus]; decide)]
    exact ⟨hcode, hpc⟩
  · simp [hbase, hcount]
  · simp [hblob, hlen]

theorem reset_registersZero : State.reset.registersZero := ⟨rfl, rfl, rfl, rfl, rfl, rfl, rfl, rfl⟩

theorem softReset_registersZero (s : State) : s.softReset.registersZero := ⟨rfl, rfl, rfl, rfl, rfl, rfl, rfl, rfl⟩

/-- Settles O4: every register is 0 at reset, and its memory lists nothing. -/
theorem resetMeetsInvariant : Obligations.ResetMeetsInvariant :=
  inv_of_registersZero ⟨by decide, by decide⟩ rfl reset_registersZero

/-- Settles O5: both resets zero the registers, and the soft reset writes nothing else. -/
theorem resetsZeroEveryRegister : Obligations.ResetsZeroEveryRegister :=
  ⟨reset_registersZero, fun s => ⟨softReset_registersZero s, softReset_mem s, rfl, rfl, rfl⟩⟩

theorem softReset_inv {s : State} (h : s.Inv) : s.softReset.Inv := by
  obtain ⟨hsize, hmem, -⟩ := h
  exact inv_of_registersZero hsize hmem (softReset_registersZero s)

theorem hardwareReset_inv {s : State} (h : s.Inv) (cells : List Host.Cell) : (s.hardwareReset cells).Inv := by
  obtain ⟨hsize, -⟩ := h
  exact inv_of_registersZero hsize (wf_memoryOf s.memBytes cells) (softReset_registersZero s)

/-! ### `STATUS` and the error registers -/

/-- Of the four legal values of `STATUS` one has BUSY set. -/
theorem status_of_busy {s : State} (h : s.statusLegal) (hb : s.busy = true) : s.status = busyBit := by
  obtain h | h | h | h := h
  · simp [State.busy, h] at hb
  · exact h
  · simp [State.busy, h, doneBit] at hb
  · simp [State.busy, h, errBit] at hb

/-- Outside the ERROR state the error registers hold 0. -/
theorem errorLegal_iff_of_ne {s : State} (h : s.status ≠ errBit) : s.errorLegal ↔ s.errCode = 0 ∧ s.errPc = 0 := by
  rw [State.errorLegal, if_neg h]

theorem errorCode_bounds (e : EngineError) : 1 ≤ (errorCode e).toNat ∧ (errorCode e).toNat ≤ 5 := by
  cases e <;> decide

/-- Error entry in a pass leads to the ERROR state. -/
theorem raise_inv {s : State} (h : s.Inv) (hb : s.busy = true) (e : EngineError) : (raise e s).Inv := by
  obtain ⟨hsize, hmem, hstatus, -, hreg⟩ := h
  have herr : (raise e s).status = errBit := by rw [raise_status, status_of_busy hstatus hb, errorStatus_of_busy]
  refine ⟨hsize, hmem, .inr (.inr (.inr herr)), ?_, hreg⟩
  rw [State.errorLegal, if_pos herr]
  exact errorCode_bounds e

/-- `END` in a pass leads to the DONE state. -/
theorem end_inv {s : State} (h : s.Inv) (hb : s.busy = true) : { s with status := endStatus s.status }.Inv := by
  obtain ⟨hsize, hmem, hstatus, herror, hreg⟩ := h
  have hbusy := status_of_busy hstatus hb
  have hdone : endStatus s.status = doneBit := by rw [hbusy, endStatus_of_busy]
  have hzero := (errorLegal_iff_of_ne (by rw [hbusy]; decide)).1 herror
  exact ⟨hsize, hmem, .inr (.inr (.inl hdone)), (errorLegal_iff_of_ne (by simp only [hdone]; decide)).2 hzero, hreg⟩

/-- `START` leads to the BUSY state. -/
theorem start_inv {s : State} (h : s.Inv) : s.start.Inv := by
  obtain ⟨hsize, hmem, hstatus, -, hreg⟩ := h
  have hbusy : s.start.status = busyBit := startStatus_of_legal hstatus
  refine ⟨hsize, hmem, .inr (.inl hbusy), ?_, hreg⟩
  rw [errorLegal_iff_of_ne (by rw [hbusy]; decide)]
  exact ⟨rfl, rfl⟩

/-! ### Memory and the registry -/

/-- The invariant asks of memory its canonical form alone. -/
theorem setMem_inv {s : State} (h : s.Inv) {mem : List Host.Cell} (hmem : Memory.wf s.memBytes mem = true) :
    { s with mem := mem }.Inv := by
  obtain ⟨hsize, -, hrest⟩ := h
  exact ⟨hsize, hmem, hrest⟩

theorem store_inv {s : State} (h : s.Inv) {a : Nat} {bs : List Byte} (hin : a + bs.length ≤ s.memBytes) :
    (s.store a bs).Inv := by
  have ⟨_, hmem, _⟩ := h
  exact setMem_inv h (wf_writeBytes bs hmem hin)

/-- What the checks of R207 establish. -/
theorem ldmetaChecks_ok_iff {s : State} {m : MetaOperands} :
    ldmetaChecks s m = .ok () ↔ m.metaLen.toNat % 16 = 0 ∧ m.metaAddr.toNat + m.metaLen.toNat ≤ s.memBytes ∧
      m.blobAddr.toNat + m.blobLen.toNat ≤ s.memBytes ∧
      checkRecords s.mem m.blobLen.toNat (m.metaLen.toNat / 16) m.metaAddr.toNat none = .ok () := by
  simp [ldmetaChecks, bind_ok_iff, require_ok_iff]

/-- The table and the blob that `LDMETA` latches lie in memory (R209). -/
theorem latchRegistry_inv {s : State} (h : s.Inv) {m : MetaOperands} (hchecks : ldmetaChecks s m = .ok ()) :
    (s.latchRegistry m).Inv := by
  obtain ⟨hsize, hmem, hstatus, herror, -⟩ := h
  obtain ⟨-, htable, hblob, -⟩ := ldmetaChecks_ok_iff.1 hchecks
  refine ⟨hsize, hmem, hstatus, herror, ?_, hblob⟩
  rw [latchRegistry_metaCount_toNat, latchRegistry_metaBase, latchRegistry_memBytes]
  omega

/-! ### The engine's turn -/

/-- A command in a pass keeps the invariant. -/
theorem exec_inv {i : Instr} {s t : State} (hs : s.Inv) (hb : s.busy = true) (h : exec i s = .next t) : t.Inv := by
  cases exec_next h with
  | ended => exact end_inv hs hb
  | raised => exact raise_inv hs hb _
  | latched hchecks => exact latchRegistry_inv hs hchecks
  | stored _ _ hin => exact store_inv hs hin

/-- The engine's turn is nothing, error entry at a failing fetch, or a command. -/
theorem engineTurn_next {s t : State} (h : engineTurn exec s = .next t) :
    (s.busy = false ∧ t = s) ∨
    (s.busy = true ∧ s.fetched = none ∧ t = raise .illegalCommand s) ∨
    ∃ i, s.busy = true ∧ s.fetched = some i ∧ exec i s = .next t := by
  cases hb : s.busy with
  | false =>
    rw [engineTurn_idle hb] at h
    cases h
    exact .inl ⟨rfl, rfl⟩
  | true =>
    rw [engineTurn_busy hb, engineStep] at h
    split at h
    next hf => cases h; exact .inr (.inl ⟨rfl, hf, rfl⟩)
    next i hf => exact .inr (.inr ⟨i, rfl, hf, h⟩)

theorem engineTurn_inv {s t : State} (hs : s.Inv) (h : engineTurn exec s = .next t) : t.Inv := by
  obtain ⟨-, rfl⟩ | ⟨hb, -, rfl⟩ | ⟨i, hb, -, h⟩ := engineTurn_next h
  · exact hs
  · exact raise_inv hs hb _
  · exact exec_inv hs hb h

/-! ### The host's moves -/

theorem writeCtrl_inv {s : State} (h : s.Inv) (value : Word) : (s.writeCtrl value).Inv := by
  unfold State.writeCtrl
  split_ifs
  · exact h
  · exact softReset_inv h
  · exact start_inv h
  · exact h

theorem writeRegister_inv {s : State} (h : s.Inv) (offset value : Word) : (s.writeRegister offset value).Inv := by
  unfold State.writeRegister
  split
  · exact writeCtrl_inv h value
  · split_ifs
    · exact h
    · exact h
  · exact h

theorem hostMemoryStop_eq_none {s : State} {addr : Word} (h : s.hostMemoryStop addr = none) :
    s.busy = false ∧ addr.toNat < s.memBytes := by
  unfold State.hostMemoryStop at h
  split_ifs at h with hb hin
  exact ⟨by simpa using hb, (inRange_eq_true ..).1 hin⟩

theorem hostMove_inv {m : HostMove} {s t : State} (hs : s.Inv)
    (h : hostMove (engineTurn exec) m s = .next t) : t.Inv := by
  obtain ⟨-, h⟩ | ⟨offset, value, -, rfl⟩ | ⟨offset, -, rfl⟩ | ⟨addr, value, -, hstop, rfl⟩ | ⟨addr, -, -, rfl⟩ |
    ⟨cells, -, rfl⟩ := hostMove_next h
  · exact engineTurn_inv hs h
  · exact writeRegister_inv hs offset value
  · exact hs
  · have ⟨_, hmem, _⟩ := hs
    exact setMem_inv hs (wf_writeByte hmem (hostMemoryStop_eq_none hstop).2 value)
  · exact hs
  · exact hardwareReset_inv hs cells

/-- Settles O6: a step is the engine's turn or a host move, and each keeps the invariant. -/
theorem stepKeepsInvariant : Obligations.StepKeepsInvariant := by
  intro s t hs h
  obtain ⟨-, h⟩ | ⟨m, rest, -, h⟩ := step_next h
  · exact engineTurn_inv hs h
  · exact hostMove_inv (s := { s with hostMoves := rest }) hs h

end Sys2Proof.Machine
end

section
/-! PROOFS. The register window: what a read returns and what a write does, offset by offset (R24, R29). -/

namespace Sys2Proof.Machine

/-- A step with a host move at the head of the list makes that move. -/
theorem step_of_hostMoves {s : State} {m : HostMove} {rest : List HostMove} (h : s.hostMoves = m :: rest) :
    step s = hostMove (engineTurn exec) m { s with hostMoves := rest } := by
  simp only [step, h]

section Window

variable (turn : State → Host.Outcome State Fault Refusal) (s : State) (offset value : Word)

theorem hostMove_readReg_refused {width : Nat} (h : width ≠ 4) :
    hostMove turn (.readReg width offset) s = .refused .hostRegisterAccessWidth := by
  simp [hostMove, h]

theorem hostMove_writeReg_refused {width : Nat} (h : width ≠ 4) :
    hostMove turn (.writeReg width offset value) s = .refused .hostRegisterAccessWidth := by
  simp [hostMove, h]

theorem hostMove_readReg_word :
    hostMove turn (.readReg 4 offset) s = .next { s with hostRead := s.readRegister offset } := rfl

theorem hostMove_writeReg_word :
    hostMove turn (.writeReg 4 offset value) s = .next (s.writeRegister offset value) := rfl

/-- The window as R24 lists it. -/
theorem readRegister_eq : s.readRegister offset =
    if offset = 0x04#32 then s.status else if offset = 0x08#32 then s.cmdPtr else if offset = 0x0C#32 then s.errCode
    else if offset = 0x10#32 then s.errPc else if offset = 0x14#32 then s.metaBase
    else if offset = 0x18#32 then s.metaCount else if offset = 0x1C#32 then s.blobBase
    else if offset = 0x20#32 then s.blobLen else 0#32 := by
  simp only [BitVec.toNat_eq, BitVec.toNat_ofNat]
  unfold State.readRegister
  split <;> simp_all

theorem writeRegister_cmdPtr (h : s.busy = false) : s.writeRegister 8#32 value = { s with cmdPtr := value } := by
  simp [State.writeRegister, h]

/-- Every offset other than those of `CTRL` and `CMD_PTR` ignores a write. -/
theorem writeRegister_ignored (h0 : offset ≠ 0#32) (h8 : offset ≠ 8#32) : s.writeRegister offset value = s := by
  simp only [ne_eq, BitVec.toNat_eq, BitVec.toNat_ofNat] at h0 h8
  unfold State.writeRegister
  split <;> simp_all

end Window

/-- Settles O54: a width other than 4 is refused, and at width 4 the value read is that of the listed register. -/
theorem registerReads : Obligations.RegisterReads := by
  intro s width offset rest h
  rw [step_of_hostMoves h]
  refine ⟨fun hw => hostMove_readReg_refused _ _ _ hw, ?_⟩
  rintro rfl
  rw [hostMove_readReg_word, readRegister_eq]

/-- Settles O55: only the write to `CMD_PTR` outside a pass has an effect, `CTRL` apart. -/
theorem registerWrites : Obligations.RegisterWrites := by
  intro s width offset value rest h
  rw [step_of_hostMoves h]
  refine ⟨fun hw => hostMove_writeReg_refused _ _ _ _ hw, ?_, ?_⟩
  · rintro rfl h0 hignored
    rw [hostMove_writeReg_word]
    obtain h8 | hb := hignored
    · exact congrArg _ (writeRegister_ignored _ offset value h0 h8)
    · exact congrArg _ (writeRegister_busy (s := { s with hostMoves := rest }) hb offset value)
  · rintro rfl rfl hb
    rw [hostMove_writeReg_word]
    exact congrArg _ (writeRegister_cmdPtr _ value hb)

end Sys2Proof.Machine
end

section
/-! PROOFS. Reads of memory: the little-endian word (R51), `ReadDesc` (R57), and the host's own access (R53, R64). -/

namespace Sys2Proof.Machine

/-! ### Words -/

/-- The bytes above sit 8 bits higher. -/
theorem append_byte_toNat {n : Nat} (x : BitVec n) (b : Byte) : (x ++ b).toNat = 256 * x.toNat + b.toNat := by
  rw [BitVec.toNat_append, ← Nat.shiftLeft_add_eq_or_of_lt b.isLt, Nat.shiftLeft_eq, Nat.mul_comm]

theorem wordOfBytes_toNat (b0 b1 b2 b3 : Byte) : (wordOfBytes b0 b1 b2 b3).toNat =
    b0.toNat + 256 * b1.toNat + 65536 * b2.toNat + 16777216 * b3.toNat := by
  simp only [wordOfBytes, append_byte_toNat]
  omega

/-- Settles O20: a word read joins its four bytes, the one at the lowest address the least significant. -/
theorem wordReadIsLittleEndian : Obligations.WordReadIsLittleEndian :=
  fun _ _ => wordOfBytes_toNat _ _ _ _

/-! ### Tensor descriptors -/

theorem require_bind {α : Type} (c : Bool) (e : EngineError) (f : Unit → Except Stop α) :
    (require c e >>= f) = if c = false then .error (.error e) else f () := by
  cases c <;> rfl

theorem descPositive_eq_false_iff {mem : List Host.Cell} {d : Nat} : descPositive mem d = false ↔
    s32 (readWord mem d) ≤ 0 ∨ s32 (readWord mem (d + 4)) ≤ 0 ∨ s32 (readWord mem (d + 8)) ≤ 0 := by
  simp only [descPositive, Bool.and_eq_false_iff, decide_eq_false_iff_not, not_lt, or_assoc]

/-- Without a negative dimension the natural `H·W·C` is the product of the signed fields. -/
theorem descFields_size_eq_mul {mem : List Host.Cell} {d : Nat} (hh : 0 ≤ s32 (readWord mem d))
    (hw : 0 ≤ s32 (readWord mem (d + 4))) (hc : 0 ≤ s32 (readWord mem (d + 8))) :
    ((descFields mem d).size : ℤ) =
      s32 (readWord mem d) * s32 (readWord mem (d + 4)) * s32 (readWord mem (d + 8)) := by
  simp [TensorDesc.size, descFields, hh, hw, hc]

/-- `ReadDesc` as a chain of its three checks. -/
theorem readDesc_eq_ite (s : State) (d : Word) : readDesc s d =
    if s.inRange d.toNat 24 = false then .error (.error .invalidDimensions)
    else if descPositive s.mem d.toNat = false then .error (.error .invalidDimensions)
    else if s.inRange (descFields s.mem d.toNat).data (descFields s.mem d.toNat).size = false then
      .error (.error .invalidDimensions)
    else .ok (descFields s.mem d.toNat) := by
  simp only [readDesc, require_bind, pure_eq_ok]

/-- The range test of the data, with the size on the signed fields. -/
theorem dataInRange_eq_false_iff {s : State} {d : Nat} (h : descPositive s.mem d ≠ false) :
    s.inRange (descFields s.mem d).data (descFields s.mem d).size = false ↔
      (s.memBytes : ℤ) < (readWord s.mem (d + 12)).toNat +
        s32 (readWord s.mem d) * s32 (readWord s.mem (d + 4)) * s32 (readWord s.mem (d + 8)) := by
  simp only [ne_eq, descPositive_eq_false_iff, not_or, not_le] at h
  obtain ⟨hh, hw, hc⟩ := h
  rw [inRange_eq_false, ← Int.ofNat_lt, Nat.cast_add, descFields_size_eq_mul hh.le hw.le hc.le]
  rfl

/-- Settles O21 check by check; the third is the statement's only past the second, where the dimensions are
positive. -/
theorem readDescResult : Obligations.ReadDescResult := by
  rintro s d _ _ _ _ rfl rfl rfl rfl
  rw [readDesc_eq_ite]
  refine ite_congr (propext (inRange_eq_false ..)) (fun _ => rfl) fun _ => ?_
  refine ite_congr (propext descPositive_eq_false_iff) (fun _ => rfl) fun hpositive => ?_
  exact if_congr (dataInRange_eq_false_iff (mt descPositive_eq_false_iff.1 hpositive)) rfl rfl

/-! ### The host's access to `M` -/

theorem hostMemoryStop_of_busy {s : State} (h : s.busy = true) (addr : Word) :
    s.hostMemoryStop addr = some .hostMemoryAccessWhileBusy := by
  simp [State.hostMemoryStop, h]

theorem hostMemoryStop_of_idle {s : State} {addr : Word} (hb : s.busy = false) (hin : addr.toNat < s.memBytes) :
    s.hostMemoryStop addr = none := by
  simp [State.hostMemoryStop, hb, Nat.succ_le_of_lt hin]

section Access

variable (turn : State → Host.Outcome State Fault Refusal) {s : State} {addr : Word} (value : Byte)

theorem hostMove_writeByte_refused {r : Refusal} (h : s.hostMemoryStop addr = some r) :
    hostMove turn (.writeByte addr value) s = .refused r := by
  simp only [hostMove, h]

theorem hostMove_readByte_refused {r : Refusal} (h : s.hostMemoryStop addr = some r) :
    hostMove turn (.readByte addr) s = .refused r := by
  simp only [hostMove, h]

theorem hostMove_writeByte_next (h : s.hostMemoryStop addr = none) :
    hostMove turn (.writeByte addr value) s = .next { s with mem := writeByte s.mem addr.toNat value } := by
  simp only [hostMove, h]

theorem hostMove_readByte_next (h : s.hostMemoryStop addr = none) :
    hostMove turn (.readByte addr) s =
      .next { s with hostRead := (readByte s.mem addr.toNat).setWidth 32 } := by
  simp only [hostMove, h]

end Access

/-- Settles O56: BUSY stops both accesses; otherwise the write is one `writeByte` of a canonical memory. -/
theorem hostMemoryAccess : Obligations.HostMemoryAccess := by
  intro s a v rest hmem
  rw [step_of_hostMoves (m := .writeByte a v) rfl, step_of_hostMoves (m := .readByte a) rfl,
    BitVec.ofNat_toNat]
  constructor
  · intro hb
    have hstop := hostMemoryStop_of_busy (s := { s with hostMoves := rest }) hb a
    exact ⟨hostMove_writeByte_refused _ v hstop, hostMove_readByte_refused _ hstop⟩
  · intro hb hin
    have hfree : { s with hostMoves := rest }.hostMemoryStop a = none := hostMemoryStop_of_idle hb hin
    have hread := fun b => readByte_writeByte hmem a.toNat b v
    refine ⟨⟨_, hostMove_writeByte_next _ v hfree, (hread _).trans (if_pos rfl),
      fun b hne => (hread b).trans (if_neg hne), ?_⟩, hostMove_readByte_next _ hfree⟩
    exact ⟨rfl, rfl, ⟨rfl, rfl, rfl⟩, ⟨rfl, rfl, rfl, rfl⟩, rfl, rfl⟩

end Sys2Proof.Machine
end

section
/-! PROOFS. The encoding: what the fields say of a first word (R81), what is decoded and what is illegal (R83, R84,
R86), and that decoder, encoder and table agree (R82, R84, R85). -/

namespace Sys2Proof

/-! ### The first word and its fields -/

/-- The flags put back where the mask of a convolution's row leaves them out (R84). -/
theorem encodeFirst_and_mask (w : Word) :
    encodeFirst (w &&& 0xFFFFFCFF#32) (relu6Field w) (hasBiasField w) = w :=
  calc encodeFirst (w &&& 0xFFFFFCFF#32) (relu6Field w) (hasBiasField w)
    _ = w &&& 0xFFFFFCFF#32 ||| w &&& BitVec.twoPow 32 8 ||| w &&& BitVec.twoPow 32 9 := by
        rw [BitVec.and_twoPow, BitVec.and_twoPow]; rfl
    _ = w &&& (0xFFFFFCFF#32 ||| BitVec.twoPow 32 8 ||| BitVec.twoPow 32 9) := by
        rw [BitVec.and_or_distrib_left, BitVec.and_or_distrib_left]
    _ = w := BitVec.and_allOnes

theorem opcodeField_eq_mod (w : Word) : opcodeField w = w.toNat % 256 := by
  simp [opcodeField]

theorem reservedField_eq_div (w : Word) : reservedField w = w.toNat / 2 ^ 10 := by
  have := w.isLt
  rw [reservedField, BitVec.extractLsb'_toNat, Nat.shiftRight_eq_div_pow]
  omega

theorem reservedField_ne_zero_iff (w : Word) : reservedField w ≠ 0 ↔ 2 ^ 10 ≤ w.toNat := by
  rw [reservedField_eq_div]
  omega

/-- Without reserved bits, what a convolution's mask keeps is the opcode. -/
theorem and_mask_eq_opcodeField {w : Word} (h : reservedField w = 0) :
    w &&& 0xFFFFFCFF#32 = BitVec.ofNat 32 (opcodeField w) := by
  have hw : w.toNat < 2 ^ 10 := Nat.lt_of_not_le (mt (reservedField_ne_zero_iff w).2 (not_not_intro h))
  have hmask : ∀ k < 10, (0xFFFFFCFF#32).getLsbD k = decide (k < 8) := by decide
  apply BitVec.eq_of_getLsbD_eq
  intro k hk
  rw [BitVec.getLsbD_and, opcodeField_eq_mod, show 256 = 2 ^ 8 from rfl, BitVec.getLsbD_ofNat (x := w.toNat % 2 ^ 8),
    Nat.testBit_mod_two_pow]
  by_cases hk10 : k < 10
  · rw [hmask k hk10, Bool.and_comm]
    simp [hk, BitVec.getLsbD]
  · have hbit : w.toNat.testBit k = false :=
      Nat.testBit_lt_two_pow (hw.trans_le (Nat.pow_le_pow_right (by decide) (by omega)))
    simp [hbit, BitVec.getLsbD]

/-- Without reserved bits a first word is its opcode and its two flags (R81). -/
theorem eq_encodeFirst_of_opcode {w : Word} {opcode : Nat} (hres : reservedField w = 0) (hop : opcodeField w = opcode) :
    w = encodeFirst (BitVec.ofNat 32 opcode) (relu6Field w) (hasBiasField w) := by
  rw [← hop, ← and_mask_eq_opcodeField hres, encodeFirst_and_mask]

@[simp] theorem encodeFirst_false_false (opcode : Word) : encodeFirst opcode false false = opcode := by
  simp [encodeFirst]

/-! ### What is decoded -/

theorem decodeUnflagged_eq_ok {w : Word} {i j : Instr} (h : decodeUnflagged w i = .ok j) :
    j = i ∧ relu6Field w = false ∧ hasBiasField w = false := by
  unfold decodeUnflagged at h
  split at h
  · cases h
  next hflags =>
    cases h
    simpa using hflags

theorem exists_decodeUnflagged_eq_error_iff (w : Word) (i : Instr) :
    (∃ e, decodeUnflagged w i = .error e) ↔ relu6Field w = true ∨ hasBiasField w = true := by
  rw [decodeUnflagged, ← Bool.or_eq_true]
  split <;> simp [*]

theorem firstWord_of_decodeUnflagged {w : Word} {opcode : Nat} {i j : Instr} (hres : reservedField w = 0)
    (hop : opcodeField w = opcode) (h : decodeUnflagged w i = .ok j) : j = i ∧ w = BitVec.ofNat 32 opcode := by
  obtain ⟨hij, hrelu, hbias⟩ := decodeUnflagged_eq_ok h
  have hw := eq_encodeFirst_of_opcode hres hop
  rw [hrelu, hbias, encodeFirst_false_false] at hw
  exact ⟨hij, hw⟩

/-- The six forms of a decoded command, each with its first word and with its operands among the words (R82, R84). -/
inductive DecodesTo (c : CommandWords) : Instr → Prop
  | endPass (hw : c.w0 = 0) : DecodesTo c .endPass
  | ldmeta (hw : c.w0 = 1) : DecodesTo c (.ldmeta ⟨c.w1, c.w2, c.w3, c.w4⟩)
  | dwconv (hw : c.w0 = encodeFirst 2 (relu6Field c.w0) (hasBiasField c.w0)) : DecodesTo c (.dwconv (decodeConv c))
  | pwconv (hw : c.w0 = encodeFirst 3 (relu6Field c.w0) (hasBiasField c.w0)) : DecodesTo c (.pwconv (decodeConv c))
  | gap (hw : c.w0 = 4) : DecodesTo c (.gap ⟨c.w1, c.w2⟩)
  | softmax (hw : c.w0 = 5) : DecodesTo c (.softmax ⟨c.w1, c.w2⟩)

/-- What `decodeWords` answers has one of the six forms (R83, R84). -/
theorem decodesTo_of_decodeWords {c : CommandWords} {i : Instr} (h : decodeWords c = .ok i) : DecodesTo c i := by
  unfold decodeWords at h
  split at h
  · cases h
  next hres =>
    have hres : reservedField c.w0 = 0 := by simpa using hres
    split at h
    next hop => obtain ⟨rfl, hw⟩ := firstWord_of_decodeUnflagged hres hop h; exact .endPass hw
    next hop => obtain ⟨rfl, hw⟩ := firstWord_of_decodeUnflagged hres hop h; exact .ldmeta hw
    next hop => cases h; exact .dwconv (eq_encodeFirst_of_opcode hres hop)
    next hop => cases h; exact .pwconv (eq_encodeFirst_of_opcode hres hop)
    next hop => obtain ⟨rfl, hw⟩ := firstWord_of_decodeUnflagged hres hop h; exact .gap hw
    next hop => obtain ⟨rfl, hw⟩ := firstWord_of_decodeUnflagged hres hop h; exact .softmax hw
    · cases h

/-- The three causes of an illegal command, on the fields of its first word (R86). -/
theorem exists_decodeWords_eq_error_iff (c : CommandWords) :
    (∃ e, decodeWords c = .error e) ↔
      6 ≤ opcodeField c.w0 ∨ reservedField c.w0 ≠ 0 ∨
      ((relu6Field c.w0 = true ∨ hasBiasField c.w0 = true) ∧ opcodeField c.w0 ≠ 2 ∧ opcodeField c.w0 ≠ 3) := by
  unfold decodeWords
  split
  next hres => simp [bne_iff_ne.1 hres]
  next hres =>
    have hres : reservedField c.w0 = 0 := by simpa using hres
    split
    case h_1 hop | h_2 hop | h_5 hop | h_6 hop => simp [hres, hop, exists_decodeUnflagged_eq_error_iff]
    case h_3 hop | h_4 hop => simp [hres, hop]
    case h_7 h0 h1 h2 h3 h4 h5 =>
      simp only [imp_false] at h0 h1 h2 h3 h4 h5
      have hop : 6 ≤ opcodeField c.w0 := by omega
      simp [hop]

/-! ### The operands of a convolution -/

theorem decodeConv_wellFormed (c : CommandWords) : (decodeConv c).wellFormed = true := by
  cases h : hasBiasField c.w0 <;> simp [ConvOperands.wellFormed, decodeConv, h]

/-- A well-formed convolution without a bias has 0 in `W6`, where the decoder reads no operand (R82). -/
theorem ConvOperands.bias_of_wellFormed {c : ConvOperands} (h : c.wellFormed = true) :
    (if c.hasBias then c.bias else 0#32) = c.bias := by
  cases hb : c.hasBias with
  | true => rfl
  | false => exact (eq_of_beq (by simpa [ConvOperands.wellFormed, hb] using h)).symm

theorem decodeConv_encodeConv {opcode : Word} {c : ConvOperands} (h : c.wellFormed = true)
    (hrelu : relu6Field (encodeFirst opcode c.relu6 c.hasBias) = c.relu6)
    (hbias : hasBiasField (encodeFirst opcode c.relu6 c.hasBias) = c.hasBias) :
    decodeConv (encodeConv opcode c) = c := by
  simp [decodeConv, encodeConv, hrelu, hbias, ConvOperands.bias_of_wellFormed h]

theorem decodeWords_of_opcode_two {c : CommandWords} (hres : reservedField c.w0 = 0) (hop : opcodeField c.w0 = 2) :
    decodeWords c = .ok (.dwconv (decodeConv c)) := by
  simp [decodeWords, hres, hop]

theorem decodeWords_of_opcode_three {c : CommandWords} (hres : reservedField c.w0 = 0) (hop : opcodeField c.w0 = 3) :
    decodeWords c = .ok (.pwconv (decodeConv c)) := by
  simp [decodeWords, hres, hop]

/-! ### Decoder, encoder and table agree -/

theorem decodeWords_encode {i : Instr} (h : i.wellFormed = true) : decodeWords (encode i) = .ok i := by
  cases i with
  | endPass => rfl
  | ldmeta _ | gap _ | softmax _ =>
    simp [encode, decodeWords, decodeUnflagged, opcodeField, relu6Field, hasBiasField, reservedField]
  | dwconv c =>
    have hdecode := decodeWords_of_opcode_two (c := encodeConv 2 c) (reservedField_encodeFirst_two _ _)
      (opcodeField_encodeFirst_two _ _)
    rwa [decodeConv_encodeConv h (relu6Field_encodeFirst_two _ _) (hasBiasField_encodeFirst_two _ _)] at hdecode
  | pwconv c =>
    have hdecode := decodeWords_of_opcode_three (c := encodeConv 3 c) (reservedField_encodeFirst_three _ _)
      (opcodeField_encodeFirst_three _ _)
    rwa [decodeConv_encodeConv h (relu6Field_encodeFirst_three _ _) (hasBiasField_encodeFirst_three _ _)] at hdecode

/-- Settles O14: the bytes are read back as the words, and the words as the instruction, form by form. -/
theorem encodeDecodeRoundTrip : Obligations.EncodeDecodeRoundTrip := fun i h =>
  (decodeBytes_commandBytes (encode i)).trans (decodeWords_encode h)

/-- Settles O15 form by form: each fixes the first word, and its operands are the words. -/
theorem decodedWordsReencode : Obligations.DecodedWordsReencode := by
  intro w i h
  cases decodesTo_of_decodeWords h with
  | endPass hw => exact ⟨rfl, hw.symm, trivial⟩
  | ldmeta hw => exact ⟨rfl, hw.symm, rfl, rfl, rfl, rfl⟩
  | dwconv hw => exact ⟨decodeConv_wellFormed w, hw.symm, rfl, rfl, rfl, rfl, rfl, fun hb => if_pos hb⟩
  | pwconv hw => exact ⟨decodeConv_wellFormed w, hw.symm, rfl, rfl, rfl, rfl, rfl, fun hb => if_pos hb⟩
  | gap hw => exact ⟨rfl, hw.symm, rfl, rfl⟩
  | softmax hw => exact ⟨rfl, hw.symm, rfl, rfl⟩

/-- The per-instruction statements of `Laws.OpcodeRow`, for every instruction. -/
theorem encode_selected_by_own_row (i : Instr) : Laws.OpcodeRow.Statement i := by
  cases i with
  | endPass => exact Laws.OpcodeRow.endPass
  | ldmeta m => exact Laws.OpcodeRow.ldmeta m
  | dwconv c => exact Laws.OpcodeRow.dwconv c
  | pwconv c => exact Laws.OpcodeRow.pwconv c
  | gap t => exact Laws.OpcodeRow.gap t
  | softmax t => exact Laws.OpcodeRow.softmax t

theorem pattern_eq_of_selects {r : OpcodeRow} {w : Word} (hmask : r.mask = BitVec.allOnes 32)
    (h : r.selects w = true) : r.pattern = w := by
  rw [← eq_of_beq h, hmask, BitVec.and_allOnes]

theorem encodeFirst_eq_of_selects {r : OpcodeRow} {w : Word} (hmask : r.mask = 0xFFFFFCFF#32)
    (h : r.selects w = true) : encodeFirst r.pattern (relu6Field w) (hasBiasField w) = w := by
  rw [← eq_of_beq h, hmask, encodeFirst_and_mask]

/-- Every first word a row selects is that of a well-formed instruction. -/
theorem exists_encode_of_selects {r : OpcodeRow} {w : Word} (hr : r ∈ opcodeTable) (h : r.selects w = true) :
    ∃ i : Instr, i.wellFormed = true ∧ (encode i).w0 = w := by
  simp only [opcodeTable, List.mem_cons, List.not_mem_nil, or_false] at hr
  obtain rfl | rfl | rfl | rfl | rfl | rfl := hr
  · exact ⟨.endPass, rfl, pattern_eq_of_selects rfl h⟩
  · exact ⟨.ldmeta ⟨0, 0, 0, 0⟩, rfl, pattern_eq_of_selects rfl h⟩
  · exact ⟨.dwconv ⟨relu6Field w, hasBiasField w, 0, 0, 0, 0, 0, 0⟩, Bool.or_true _, encodeFirst_eq_of_selects rfl h⟩
  · exact ⟨.pwconv ⟨relu6Field w, hasBiasField w, 0, 0, 0, 0, 0, 0⟩, Bool.or_true _, encodeFirst_eq_of_selects rfl h⟩
  · exact ⟨.gap ⟨0, 0⟩, rfl, pattern_eq_of_selects rfl h⟩
  · exact ⟨.softmax ⟨0, 0⟩, rfl, pattern_eq_of_selects rfl h⟩

/-- Whether a command is illegal depends on its first word alone. -/
theorem decodeWords_error_of_w0_eq {c d : CommandWords} (hw : d.w0 = c.w0) (h : ∃ e, decodeWords c = .error e) :
    ∃ e, decodeWords d = .error e := by
  rw [exists_decodeWords_eq_error_iff] at h ⊢
  rwa [hw]

/-- Settles O16: a decoded command's first word is its encoding's (O15), which one row selects; a word some row
selects is that of an instruction, which decodes (O14). -/
theorem decoderFollowsTable : Obligations.DecoderFollowsTable := by
  intro w
  constructor
  · intro i h
    obtain ⟨-, hw, -⟩ := decodedWordsReencode w i h
    exact hw ▸ encode_selected_by_own_row i
  · intro e h
    refine List.filter_eq_nil_iff.2 fun r hr hsel => ?_
    obtain ⟨i, hwf, hw⟩ := exists_encode_of_selects hr hsel
    obtain ⟨e', herr⟩ := decodeWords_error_of_w0_eq hw ⟨e, h⟩
    rw [decodeWords_encode hwf] at herr
    cases herr

/-- Settles O17: the causes on the fields, with each field read as a number. -/
theorem illegalEncodings : Obligations.IllegalEncodings := by
  intro w
  rw [exists_decodeWords_eq_error_iff, reservedField_ne_zero_iff, opcodeField_eq_mod]
  rfl

/-- Settles O13 by evaluating the decoder on each word. -/
theorem specWordsDecode : Obligations.SpecWordsDecode := by
  unfold Obligations.SpecWordsDecode
  decide

end Sys2Proof
end

section
/-! PROOFS. The quantization primitives: the rounding function, `dequantize`, `requantize` and the round trip
(spec/40_quant_primitives.md R110 to R112, R115, R116). -/

namespace Sys2Proof.Machine

/-! ### The rounding function -/

theorem roundMag_eq_floor (mag : Nat) : (roundMag mag : ℤ) = ⌊(magUnits mag / unitsOfOne : ℚ) + 1 / 2⌋ := by
  have hU := unitsOfOne_cast_pos.ne'
  have hsum : (magUnits mag / unitsOfOne : ℚ) + 1 / 2 =
      ((2 * magUnits mag + unitsOfOne : ℕ) : ℚ) / ((2 * unitsOfOne : ℕ) : ℚ) := by
    push_cast
    field_simp
  rw [hsum, Rat.floor_natCast_div_natCast, roundMag, Int.natCast_div]

theorem rnd_eq_floor (t : F32) :
    rnd t = if 0 ≤ Ref.value t then ⌊Ref.value t + 1 / 2⌋ else -⌊-Ref.value t + 1 / 2⌋ := by
  have hnonneg : (0 : ℚ) ≤ magUnits (f32Mag t) / unitsOfOne := by positivity
  rw [rnd, roundMag_eq_floor, value_eq]
  cases f32Neg t
  · simp [hnonneg]
  · obtain h0 | hpos := hnonneg.eq_or_lt
    · rw [← h0]
      norm_num
    · simp [hpos]

/-- Settles O48: the sign and the floor of the magnitude plus a half. -/
theorem roundHalfAwayFromZero : Obligations.RoundHalfAwayFromZero :=
  fun t _ => rnd_eq_floor t

theorem abs_rnd_sub_value_le (t : F32) : |(rnd t : ℚ) - Ref.value t| ≤ 1 / 2 := by
  rw [rnd_eq_floor, abs_le]
  split
  · have hle := Int.floor_le (Ref.value t + 1 / 2)
    have hlt := Int.lt_floor_add_one (Ref.value t + 1 / 2)
    constructor <;> linarith
  · have hle := Int.floor_le (-Ref.value t + 1 / 2)
    have hlt := Int.lt_floor_add_one (-Ref.value t + 1 / 2)
    push_cast
    constructor <;> linarith

theorem rnd_le_of_value_le {t : F32} {n : ℤ} (h : Ref.value t ≤ n) : rnd t ≤ n := by
  have hnear := (abs_le.1 (abs_rnd_sub_value_le t)).2
  rw [← Int.lt_add_one_iff, ← Int.cast_lt (R := ℚ)]
  push_cast
  linarith

theorem le_rnd_of_le_value {t : F32} {n : ℤ} (h : n ≤ Ref.value t) : n ≤ rnd t := by
  have hnear := (abs_le.1 (abs_rnd_sub_value_le t)).1
  rw [← Int.lt_add_one_iff, ← Int.cast_lt (R := ℚ)]
  push_cast
  linarith

/-- A value nearer than a half to an integer is rounded to it. -/
theorem rnd_eq_of_abs_sub_lt {t : F32} {n : ℤ} (h : |Ref.value t - n| < 1 / 2) : rnd t = n := by
  have hlt : |(rnd t : ℚ) - n| < 1 := by
    linarith [abs_sub_le (rnd t : ℚ) (Ref.value t) n, abs_rnd_sub_value_le t]
  exact sub_eq_zero.1 (Int.abs_lt_one_iff.1 (by exact_mod_cast hlt))

theorem rnd_of_value_zero {t : F32} (h : Ref.value t = 0) : rnd t = 0 :=
  rnd_eq_of_abs_sub_lt (by norm_num [h])

/-! ### Legal scales and zero-points -/

theorem exists_pack_of_scaleBelow {bound : Nat} {x : F32} (h : Ref.scaleBelow bound x) :
    ∃ m, x = f32Pack false m ∧ 0 < m ∧ m < bound := by
  obtain ⟨hpos, hlt⟩ := h
  exact ⟨x.toNat, by simp [f32Pack], hpos, hlt⟩

theorem legalScale_of_scaleBelow {bound : Nat} {x : F32} (hb : bound ≤ infMag) (h : Ref.scaleBelow bound x) :
    Ref.legalScale x :=
  ⟨h.1, h.2.trans_le hb⟩

theorem legalScale_spec {scale : F32} (h : Ref.legalScale scale) :
    Ref.finite scale ∧ f32Neg scale = false ∧ 0 < Ref.value scale := by
  obtain ⟨m, rfl, hpos, hlt⟩ := exists_pack_of_scaleBelow h
  have h31 : m < 0x80000000 := hlt.trans (by decide)
  have hunits : (0 : ℚ) < magUnits m := by
    exact_mod_cast Nat.pos_of_ne_zero (magUnits_eq_zero.not.2 hpos.ne')
  refine ⟨by rwa [finite_iff, f32Mag_pack h31], f32Neg_pack h31, ?_⟩
  rw [value_pack hlt.le, signFactor_false, one_mul]
  exact div_pos hunits unitsOfOne_cast_pos

/-- The greatest scale of which 255 times does not overflow. -/
theorem value_greatestScale : Ref.value (f32Pack false 0x7B808080) = 0x808080 * 2 ^ 97 := by
  have hunits : magUnits 0x7B808080 = 0x808080 * 2 ^ 246 :=
    magUnits_significand (k := 246) (s := 0x808080) (by decide) (by decide)
  rw [value_pack (by decide), hunits, signFactor_false, unitsOfOne]
  norm_num

theorem value_scale_le {scale : F32} (h : Ref.scaleBelow 0x7B808081 scale) :
    Ref.value scale ≤ 0x808080 * 2 ^ 97 := by
  obtain ⟨m, rfl, -, hlt⟩ := exists_pack_of_scaleBelow h
  rw [← value_greatestScale]
  exact value_pack_false_le (Nat.le_of_lt_succ hlt) (by decide)

theorem abs_code_sub_zp_le (q : Byte) {zp : ℤ} (hz : Ref.legalZp zp) : |(q.toNat : ℤ) - zp| ≤ 255 := by
  obtain ⟨h0, h255⟩ := hz
  have hq := q.isLt
  rw [abs_le]
  omega

/-! ### `dequantize` -/

section Dequantize

variable (q : Byte) {scale : F32} {zp : ℤ} (hz : Ref.legalZp zp)
include hz

/-- The integer `q - zp` is exact in binary32, so the multiplication is the one rounding (R110). -/
theorem roundsTo_dequantize (hs : Ref.legalScale scale) :
    Ref.roundsTo (Ref.value scale * ((q.toNat : ℤ) - zp : ℤ)) (dequantize q scale zp) := by
  obtain ⟨hfin, -, -⟩ := legalScale_spec hs
  have hd := abs_code_sub_zp_le q hz
  obtain ⟨-, hexact, hifin⟩ := integerToFloat ((q.toNat : ℤ) - zp)
  rw [← hexact (hd.trans (by norm_num))]
  exact roundsTo_fmul hfin (hifin (hd.trans_lt (by norm_num)))

theorem abs_scale_mul_code_lt (hs : Ref.scaleBelow 0x7B808081 scale) :
    |Ref.value scale * ((q.toNat : ℤ) - zp : ℤ)| < 2 ^ 128 - 2 ^ 103 := by
  obtain ⟨-, -, hpos⟩ := legalScale_spec (legalScale_of_scaleBelow (by decide) hs)
  have hd : |(((q.toNat : ℤ) - zp : ℤ) : ℚ)| ≤ 255 := by exact_mod_cast abs_code_sub_zp_le q hz
  calc |Ref.value scale * ((q.toNat : ℤ) - zp : ℤ)|
      = Ref.value scale * |(((q.toNat : ℤ) - zp : ℤ) : ℚ)| := by rw [abs_mul, abs_of_pos hpos]
    _ ≤ 0x808080 * 2 ^ 97 * 255 := mul_le_mul (value_scale_le hs) hd (abs_nonneg _) (by norm_num)
    _ < 2 ^ 128 - 2 ^ 103 := by norm_num

theorem finite_dequantize (hs : Ref.scaleBelow 0x7B808081 scale) : Ref.finite (dequantize q scale zp) :=
  ((roundsTo_dequantize q hz (legalScale_of_scaleBelow (by decide) hs)).1 (abs_scale_mul_code_lt q hz hs)).1

end Dequantize

theorem dequantize_zp {q : Byte} {scale : F32} {zp : ℤ} (hs : Ref.legalScale scale) (h : (q.toNat : ℤ) = zp) :
    dequantize q scale zp = 0#32 := by
  obtain ⟨hfin, hneg, -⟩ := legalScale_spec hs
  have hzero : i2f 0 = f32Pack false 0 := by decide
  have hmul := fmul_exact_zero hfin (finite_zero false) (by rw [value_eq_zero.2 (f32Mag_zero false), mul_zero])
  rw [dequantize, h, sub_self, hzero, hmul, hneg, f32Neg_zero]
  rfl

/-- Settles O49: an exact conversion and one multiplication, which is exact at 0. -/
theorem dequantizeResult : Obligations.DequantizeResult :=
  fun q _ _ hs hz => ⟨roundsTo_dequantize q hz hs, dequantize_zp hs, finite_dequantize q hz⟩

/-! ### `requantize` -/

theorem clamp_of_le {v lo hi : Int} (hv : v ≤ lo) (h : lo ≤ hi) : clamp v lo hi = lo := by
  simp only [clamp]; split_ifs <;> omega

theorem clamp_of_ge {v lo hi : Int} (hv : hi ≤ v) (h : lo ≤ hi) : clamp v lo hi = hi := by
  simp only [clamp]; split_ifs <;> omega

section Requantize

variable {real scale : F32} {zp : ℤ}

theorem requantize_of_nan (h : Ref.nan (fdiv real scale)) :
    requantize real scale zp = .error (.refuse .nanToRequantize) := by
  simp [requantize, codeOfQuotient, f32IsNaN_iff.2 h]

theorem requantize_of_inf {neg : Bool} (h : fdiv real scale = f32Pack neg infMag) :
    requantize real scale zp = .ok (if neg then 0 else 255) := by
  simp [requantize, codeOfQuotient, h]

theorem requantize_of_finite (h : Ref.finite (fdiv real scale)) :
    requantize real scale zp = .ok (clamp (zp + rnd (fdiv real scale)) 0 255) := by
  simp [requantize, codeOfQuotient, f32IsNaN_of_finite h, f32IsInf_of_finite h]

/-- At and below `-zp` a finite quotient gives 0. -/
theorem requantize_low (h : Ref.finite (fdiv real scale)) (hlow : Ref.value (fdiv real scale) ≤ -zp) :
    requantize real scale zp = .ok 0 := by
  have hrnd : rnd (fdiv real scale) ≤ -zp := rnd_le_of_value_le (by exact_mod_cast hlow)
  rw [requantize_of_finite h, clamp_of_le (by omega) (by decide)]

/-- At and above `255 - zp` a finite quotient gives 255. -/
theorem requantize_high (h : Ref.finite (fdiv real scale)) (hhigh : 255 - zp ≤ Ref.value (fdiv real scale)) :
    requantize real scale zp = .ok 255 := by
  have hrnd : 255 - zp ≤ rnd (fdiv real scale) := le_rnd_of_le_value (by exact_mod_cast hhigh)
  rw [requantize_of_finite h, clamp_of_ge (by omega) (by decide)]

theorem requantize_between (h : Ref.finite (fdiv real scale)) (hlow : -zp ≤ Ref.value (fdiv real scale))
    (hhigh : Ref.value (fdiv real scale) ≤ 255 - zp) :
    requantize real scale zp = .ok (zp + rnd (fdiv real scale)) := by
  have hle : -zp ≤ rnd (fdiv real scale) := le_rnd_of_le_value (by exact_mod_cast hlow)
  have hge : rnd (fdiv real scale) ≤ 255 - zp := rnd_le_of_value_le (by exact_mod_cast hhigh)
  rw [requantize_of_finite h, clamp_of_mem (by omega) (by omega)]

/-- A quotient nearer than a half to `q - zp` gives the code `q`. -/
theorem requantize_of_near {q : Byte} (h : Ref.finite (fdiv real scale))
    (hnear : |Ref.value (fdiv real scale) - ((q.toNat : ℤ) - zp : ℤ)| < 1 / 2) :
    requantize real scale zp = .ok (q.toNat : ℤ) := by
  have hq := q.isLt
  rw [requantize_of_finite h, rnd_eq_of_abs_sub_lt hnear, add_sub_cancel, clamp_of_mem (by omega) (by omega)]

/-- The code of +0 is the zero-point (R116). -/
theorem requantize_zero (hs : Ref.legalScale scale) (hz : Ref.legalZp zp) : requantize 0#32 scale zp = .ok zp := by
  obtain ⟨hfin, -, hpos⟩ := legalScale_spec hs
  obtain ⟨h0, h255⟩ := hz
  have hzero : Ref.value 0#32 = 0 := value_eq_zero.2 rfl
  have hdiv := fdiv_exact_zero (a := 0#32) (by unfold Ref.finite; decide) hfin hzero hpos.ne'
  have hrnd : rnd (fdiv 0#32 scale) = 0 := rnd_of_value_zero (by rw [hdiv, value_eq_zero, f32Mag_zero])
  rw [requantize_of_finite (hdiv ▸ finite_zero _), hrnd, add_zero, clamp_of_mem h0 h255]

end Requantize

/-- Settles O50: one lemma per class of the quotient. -/
theorem requantizeResult : Obligations.RequantizeResult := by
  intro real scale zp hs hz
  refine ⟨fun hnan => requantize_of_nan (arithmetic_nan (.inl hnan)).2.2.2, requantize_of_inf (neg := false),
    requantize_of_inf (neg := true), fun hfin => ⟨fun h => requantize_low hfin h.le,
      fun h => requantize_high hfin h.le, requantize_between hfin⟩, requantize_zero hs hz⟩

/-! ### The round trip -/

/-- A whole number of units, cut to 24 bits, loses at most one part in 2^23. -/
theorem exists_magUnits_near (q : Nat) : ∃ m, magUnits m ≤ q ∧ 2 ^ 23 * (q - magUnits m) ≤ q := by
  obtain ⟨k, n, r, hsum, hr, hn, hk, -⟩ := nearestMag_division q one_pos
  rw [one_mul] at hsum hr
  refine ⟨k * 2 ^ 23 + n, ?_⟩
  rw [magUnits_significand hn.le hk, mul_comm n, hsum, Nat.add_sub_cancel_left]
  refine ⟨Nat.le_add_right _ _, ?_⟩
  obtain rfl | hsig := hk
  · omega
  · calc 2 ^ 23 * r ≤ n * 2 ^ k := Nat.mul_le_mul hsig hr.le
      _ ≤ 2 ^ k * n + r := by rw [mul_comm]; exact Nat.le_add_right _ _

/-- A whole number of units that does not overflow has a value within one part in 2^23. -/
theorem exists_value_near (n : ℤ) (h : |(n / unitsOfOne : ℚ)| < 2 ^ 128 - 2 ^ 103) :
    ∃ y, Ref.finite y ∧ 2 ^ 23 * |n / unitsOfOne - Ref.value y| ≤ |(n / unitsOfOne : ℚ)| := by
  obtain ⟨m, hle, hnear⟩ := exists_magUnits_near n.natAbs
  have hU := unitsOfOne_cast_pos
  rw [← signFactor_mul_natAbs, mul_div_assoc, abs_signFactor_mul, abs_of_nonneg (by positivity)] at h ⊢
  have hfin : m < infMag := by
    have hcast : (unitsOfOne : ℚ) = 2 ^ 149 := by norm_num [unitsOfOne]
    rw [div_lt_iff₀ hU, hcast] at h
    rw [← magUnits_strictMono.lt_iff_lt, magUnits_infMag, ← Nat.cast_lt (α := ℚ)]
    have hle' : (magUnits m : ℚ) ≤ n.natAbs := by exact_mod_cast hle
    push_cast
    linarith
  refine ⟨f32Pack (n < 0) m, by rwa [finite_iff, f32Mag_pack (hfin.trans infMag_lt)], ?_⟩
  rw [value_pack hfin.le, ← mul_sub, abs_signFactor_mul, ← sub_div, ← Nat.cast_sub hle,
    abs_of_nonneg (by positivity), ← mul_div_assoc, div_le_div_iff_of_pos_right hU]
  exact_mod_cast hnear

/-- The result is no further from the exact value than any value is. -/
theorem abs_sub_le_of_roundsTo {v : ℚ} {r y : F32} (h : Ref.roundsTo v r) (hv : |v| < 2 ^ 128 - 2 ^ 103)
    (hy : Ref.finite y) : |v - Ref.value r| ≤ |v - Ref.value y| :=
  ((h.1 hv).2 y hy).1

section RoundTrip

variable (q : Byte) {scale : F32} {zp : ℤ} (hs : Ref.scaleBelow 0x7B808081 scale) (hz : Ref.legalZp zp)
include hs hz

/-- The one rounding of `dequantize` is off by less than a quarter of the scale: the exact product is a whole number
of units, and at most 255 times the scale. -/
theorem abs_dequantize_sub_lt :
    |Ref.value scale * ((q.toNat : ℤ) - zp : ℤ) - Ref.value (dequantize q scale zp)| < Ref.value scale / 4 := by
  have hlegal := legalScale_of_scaleBelow (by decide) hs
  obtain ⟨-, -, hpos⟩ := legalScale_spec hlegal
  have hlt := abs_scale_mul_code_lt q hz hs
  have hd : |(((q.toNat : ℤ) - zp : ℤ) : ℚ)| ≤ 255 := by exact_mod_cast abs_code_sub_zp_le q hz
  have hunits : Ref.value scale * ((q.toNat : ℤ) - zp : ℤ) =
      ((f32Units scale * ((q.toNat : ℤ) - zp) : ℤ) : ℚ) / unitsOfOne := by
    rw [value_eq_units, Int.cast_mul, div_mul_eq_mul_div]
  obtain ⟨y, hy, hnear⟩ := exists_value_near _ (hunits ▸ hlt)
  rw [← hunits, abs_mul (Ref.value scale), abs_of_pos hpos] at hnear
  have hround := abs_sub_le_of_roundsTo (roundsTo_dequantize q hz hlegal) hlt hy
  have hbound := mul_le_mul_of_nonneg_left hd hpos.le
  linarith

/-- The quotient of the dequantized code by its scale is finite and nearer than a half to the integer `q - zp`: the
exact quotient is nearer than a quarter, and its rounding no further from it than that integer, which is a value. -/
theorem quotient_near :
    Ref.finite (fdiv (dequantize q scale zp) scale) ∧
      |Ref.value (fdiv (dequantize q scale zp) scale) - ((q.toNat : ℤ) - zp : ℤ)| < 1 / 2 := by
  obtain ⟨hfin, -, hpos⟩ := legalScale_spec (legalScale_of_scaleBelow (by decide) hs)
  have hclose := abs_dequantize_sub_lt q hs hz
  have hround := roundsTo_fdiv (finite_dequantize q hz hs) hfin hpos.ne'
  have hd := abs_code_sub_zp_le q hz
  obtain ⟨y, hy, hval⟩ := exists_value_eq_int (hd.trans (by norm_num))
  have hd' : |(((q.toNat : ℤ) - zp : ℤ) : ℚ)| ≤ 255 := by exact_mod_cast hd
  generalize (((q.toNat : ℤ) - zp : ℤ) : ℚ) = d at *
  generalize Ref.value (dequantize q scale zp) = r at *
  have hexact : |r / Ref.value scale - d| < 1 / 4 := by
    rw [div_sub' hpos.ne', abs_div, abs_of_pos hpos, div_lt_iff₀ hpos, abs_sub_comm]
    linarith
  have hlt : |r / Ref.value scale| < 2 ^ 128 - 2 ^ 103 := by
    linarith [abs_sub_abs_le_abs_sub (r / Ref.value scale) d]
  have hnear := abs_sub_le_of_roundsTo hround hlt hy
  rw [hval] at hnear
  refine ⟨(hround.1 hlt).1, ?_⟩
  rw [abs_sub_comm] at hnear
  linarith [abs_sub_le (Ref.value (fdiv (dequantize q scale zp) scale)) (r / Ref.value scale) d]

end RoundTrip

/-- Settles O51: the quotient is nearer than a half to `q - zp`. -/
theorem quantizationRoundTrip : Obligations.QuantizationRoundTrip := by
  intro q scale zp hs hz
  obtain ⟨hfin, hnear⟩ := quotient_near q hs hz
  exact requantize_of_near hfin hnear

end Sys2Proof.Machine
end

section
/-! PROOFS. The bit-serial loop in closed form, the bounds on the sums of both convolutions, and why neither is
refused for its accumulator (spec/41_bitserial_mac.md R132, R134, spec/42_dwconv.md R145, spec/43_pwconv.md R165). -/

namespace Sys2Proof.Machine

/-! ### The multiply-accumulate unit -/

/-- The loop multiplies by the masked weight: bit `i` of the weight is what `2 ^ (i + 1)` adds to the mask `2 ^ i`. -/
theorem macLoop_eq_mul_mod (a : Nat) (w : Byte) : ∀ bits, macLoop a w bits = a * (w.toNat % 2 ^ bits)
  | 0 => by simp [macLoop, Nat.mod_one]
  | i + 1 => by
    have hbit : w.toNat % 2 ^ (i + 1) = w.toNat % 2 ^ i + 2 ^ i * (w.getLsbD i).toNat := by
      rw [Nat.mod_pow_succ, BitVec.getLsbD, Nat.toNat_testBit]
    rw [macLoop, macLoop_eq_mul_mod a w i, hbit]
    cases w.getLsbD i <;> simp [mul_add]

theorem mac_eq_mul_sub (a w : Byte) (bits : Nat) (wZp : ℤ) :
    mac a w bits wZp = (a.toNat : ℤ) * (((w.toNat % 2 ^ bits : ℕ) : ℤ) - wZp) := by
  rw [mac, macLoop_eq_mul_mod, Nat.cast_mul]
  ring

/-- Settles O52: the closed form needs no bound on the width. -/
theorem macClosedForm : Obligations.MacClosedForm := fun a w bits wZp _ _ => mac_eq_mul_sub a w bits wZp

/-- One product of the sum (R134): both factors have a magnitude of at most 255. A masked weight is at most the
weight byte, whatever the width. -/
theorem abs_mac_le (a w : Byte) (bits : Nat) {wZp : ℤ} (hz : Ref.legalZp wZp) : |mac a w bits wZp| ≤ 65025 := by
  have hweight : |((w.toNat % 2 ^ bits : ℕ) : ℤ) - wZp| ≤ 255 := by
    obtain ⟨h0, h255⟩ := hz
    have hmask := Nat.mod_le w.toNat (2 ^ bits)
    have hbyte := w.isLt
    rw [abs_le]
    omega
  have hactivation : (a.toNat : ℤ) ≤ 255 := by have := a.isLt; omega
  rw [mac_eq_mul_sub, abs_mul, Nat.abs_cast]
  exact mul_le_mul hactivation hweight (abs_nonneg _) (by norm_num)

/-! ### The sums of a convolution -/

theorem abs_sum_map_range_le {f : ℕ → ℤ} {b : ℤ} (h : ∀ k, |f k| ≤ b) (n : ℕ) :
    |((List.range n).map f).sum| ≤ n * b := by
  induction n with
  | zero => simp
  | succ n ih =>
    rw [List.range_succ, List.map_append, List.sum_append, List.map_singleton, List.sum_singleton]
    calc |((List.range n).map f).sum + f n| ≤ |((List.range n).map f).sum| + |f n| := abs_add_le _ _
      _ ≤ n * b + b := add_le_add ih (h n)
      _ = ((n + 1 : ℕ) : ℤ) * b := by push_cast; ring

section Bounds

variable (mem : List Host.Cell) {c : ConvOperands} {p : ConvPlan} (hz : Ref.legalZp (s32 c.wZp)) (y x ch : Nat)
include hz

/-- A tap outside the tensor adds 0, one inside it a product (R144). -/
theorem abs_dwTap_le (t : Nat) : |dwTap mem c p y x ch t| ≤ 65025 := by
  simp only [dwTap]
  split
  · exact abs_mac_le _ _ _ hz
  · simp

theorem abs_dwAcc_le : |dwAcc mem c p y x ch| ≤ 585225 :=
  abs_sum_map_range_le (abs_dwTap_le mem hz y x ch) 9

/-- `33025 * 65025` is the greatest multiple of a product's bound that an i32 holds. -/
theorem abs_pwAcc_le (hchannels : p.din.channels ≤ 33025) : |pwAcc mem c p y x ch| ≤ 2 ^ 31 - 1 := by
  have hsum : |pwAcc mem c p y x ch| ≤ p.din.channels * 65025 :=
    abs_sum_map_range_le (fun _ => abs_mac_le _ _ _ hz) _
  omega

end Bounds

/-! ### What can stop a convolution with `accumulatorOverflow` -/

theorem bind_ne_error {α β : Type} {r : Except Stop α} {f : α → Except Stop β} {x : Stop} (hr : r ≠ .error x)
    (hf : ∀ a, r = .ok a → f a ≠ .error x) : (r >>= f) ≠ .error x := fun h =>
  (bind_error_iff.1 h).elim hr fun ⟨a, ha, h⟩ => hf a ha h

section Checks

variable (s : State) (c : ConvOperands) (q : Refusal)

theorem require_ne_refuse (b : Bool) (e : EngineError) : require b e ≠ .error (.refuse q) :=
  fun h => nomatch (require_error_iff.1 h).2

theorem readDesc_ne_refuse (d : Word) : readDesc s d ≠ .error (.refuse q) := fun h => nomatch readDesc_error h

theorem insideMemory_ne_refuse (a n : Nat) : s.insideMemory a n ≠ .error (.refuse q) :=
  fun h => nomatch (insideMemory_error_iff.1 h).2

theorem lookup_ne_refuse (pos : Word) : lookup s pos ≠ .error (.refuse q) :=
  bind_ne_error (require_ne_refuse _ _ _) fun _ _ => bind_ne_error (insideMemory_ne_refuse _ _ _ _) fun _ _ =>
    bind_ne_error (require_ne_refuse _ _ _) fun _ _ => bind_ne_error (require_ne_refuse _ _ _) fun _ _ =>
      bind_ne_error (insideMemory_ne_refuse _ _ _ _) fun _ _ => nofun

theorem dwChecks_ne_refuse : dwChecks s c ≠ .error (.refuse q) :=
  bind_ne_error (lookup_ne_refuse _ _ _) fun _ _ => bind_ne_error (readDesc_ne_refuse _ _ _) fun _ _ =>
    bind_ne_error (readDesc_ne_refuse _ _ _) fun _ _ => bind_ne_error (require_ne_refuse _ _ _) fun _ _ =>
      bind_ne_error (require_ne_refuse _ _ _) fun _ _ => bind_ne_error (require_ne_refuse _ _ _) fun _ _ => nofun

theorem pwChecks_ne_refuse : pwChecks s c ≠ .error (.refuse q) :=
  bind_ne_error (lookup_ne_refuse _ _ _) fun _ _ => bind_ne_error (readDesc_ne_refuse _ _ _) fun _ _ =>
    bind_ne_error (readDesc_ne_refuse _ _ _) fun _ _ => bind_ne_error (require_ne_refuse _ _ _) fun _ _ =>
      bind_ne_error (require_ne_refuse _ _ _) fun _ _ => bind_ne_error (require_ne_refuse _ _ _) fun _ _ => nofun

end Checks

theorem legalParams_ne_accumulatorOverflow (scale : F32) (zp : ℤ) :
    legalParams scale zp ≠ .error (.refuse .accumulatorOverflow) :=
  fun h => (legalParams_error h).elim (fun h => nomatch h.2) fun h => nomatch h.2

theorem convPreconditions_ne_accumulatorOverflow (s : State) (c : ConvOperands) (p : ConvPlan) (wlen : Nat) :
    convPreconditions s c p wlen ≠ .error (.refuse .accumulatorOverflow) :=
  bind_ne_error (legalParams_ne_accumulatorOverflow _ _) fun _ _ =>
    bind_ne_error (legalParams_ne_accumulatorOverflow _ _) fun _ _ =>
      bind_ne_error (legalParams_ne_accumulatorOverflow _ _) fun _ _ h => nomatch noOverlap_error h

/-- The preconditions give the reference's legality of the weight zero-point (R69). -/
theorem legalZp_of_convPreconditions {s : State} {c : ConvOperands} {p : ConvPlan} {wlen : Nat} {u : Unit}
    (h : convPreconditions s c p wlen = .ok u) : Ref.legalZp (s32 c.wZp) := by
  obtain ⟨-, -, ⟨-, hzp⟩, -⟩ := convPreconditions_ok_iff.1 h
  simpa [legalZp, Ref.legalZp] using hzp

/-- A tensor whose sums all fit i32 is not refused for its accumulator. -/
theorem convBytes_ne_accumulatorOverflow {mem : List Host.Cell} {c : ConvOperands} {din dout : TensorDesc}
    {acc : Nat → Nat → Nat → ℤ} (hacc : ∀ y x ch, |acc y x ch| ≤ 2 ^ 31 - 1) :
    tensorBytes dout (fun y x ch => convByte mem c din dout ch (acc y x ch)) ≠
      .error (.refuse .accumulatorOverflow) := by
  intro h
  obtain ⟨k, -, hk⟩ := collect_error h
  obtain ⟨houtside, -⟩ | hnan := convByte_error hk
  · have hfits := abs_le.1 (hacc (k / (dout.width * dout.channels)) (k / dout.channels % dout.width)
      (k % dout.channels))
    omega
  · cases hnan

theorem dwResult_ne_accumulatorOverflow (s : State) (c : ConvOperands) :
    dwResult s c ≠ .error (.refuse .accumulatorOverflow) :=
  bind_ne_error (dwChecks_ne_refuse _ _ _) fun _ _ =>
    bind_ne_error (convPreconditions_ne_accumulatorOverflow _ _ _ _) fun _ hpre =>
      bind_ne_error (convBytes_ne_accumulatorOverflow fun y x ch =>
        (abs_dwAcc_le _ (legalZp_of_convPreconditions hpre) y x ch).trans (by norm_num)) fun _ _ => nofun

theorem pwResult_ne_accumulatorOverflow {s : State} {c : ConvOperands}
    (hchannels : ∀ din, readDesc s c.input = .ok din → din.channels ≤ 33025) :
    pwResult s c ≠ .error (.refuse .accumulatorOverflow) :=
  bind_ne_error (pwChecks_ne_refuse _ _ _) fun _ hchecks =>
    bind_ne_error (convPreconditions_ne_accumulatorOverflow _ _ _ _) fun _ hpre =>
      have ⟨_, hdin, _⟩ := pwChecks_ok_iff.1 hchecks
      bind_ne_error (convBytes_ne_accumulatorOverflow fun y x ch =>
        abs_pwAcc_le _ (legalZp_of_convPreconditions hpre) y x ch (hchannels _ hdin)) fun _ _ => nofun

/-- Settles O32: nine products, or up to 33025 of them, of at most `255 * 255` each; a convolution that reaches its
sums has passed the precondition on the weight zero-point. -/
theorem accumulatorFits : Obligations.AccumulatorFits :=
  ⟨fun mem _ _ y x ch hz _ => ⟨abs_dwAcc_le mem hz y x ch, abs_pwAcc_le mem hz y x ch⟩, fun s c =>
    ⟨fun h => dwResult_ne_accumulatorOverflow s c (conclude_eq_refused h),
      fun hchannels h => pwResult_ne_accumulatorOverflow hchannels (conclude_eq_refused h)⟩⟩

end Sys2Proof.Machine
end

section
/-! PROOFS. The real-domain sum of a convolution is finite for modest scales: bounds by powers of two go through
every rounding (spec/42_dwconv.md R152). -/

namespace Sys2Proof.Machine

/-! ### Bounds by powers of two -/

/-- A finite value of magnitude at most `2 ^ k`. -/
def FiniteUpTo (k : Nat) (x : F32) : Prop := Ref.finite x ∧ |Ref.value x| ≤ 2 ^ k

/-- The powers of two from 1 to the greatest finite one are values. -/
theorem value_two_pow {k : Nat} (hk : k < 128) : Ref.finite (f32Pack false ((126 + k) * 2 ^ 23 + 2 ^ 23)) ∧
    Ref.value (f32Pack false ((126 + k) * 2 ^ 23 + 2 ^ 23)) = 2 ^ k := by
  have hlt : (126 + k) * 2 ^ 23 + 2 ^ 23 < infMag := by unfold infMag; omega
  have hunits : magUnits ((126 + k) * 2 ^ 23 + 2 ^ 23) = 2 ^ k * unitsOfOne := by
    rw [magUnits_significand (by decide) (.inr le_rfl), unitsOfOne, ← pow_add, ← pow_add]
    congr 1
    omega
  refine ⟨by rwa [finite_iff, f32Mag_pack (hlt.trans infMag_lt)], ?_⟩
  rw [value_pack hlt.le, hunits, signFactor_false, one_mul, Nat.cast_mul,
    mul_div_cancel_right₀ _ unitsOfOne_cast_pos.ne', Nat.cast_pow, Nat.cast_ofNat]

/-- Rounding does not pass a power of two: it and its negative are values, and the result is no further from the
exact one than either. -/
theorem FiniteUpTo.of_roundsTo {v : ℚ} {r : F32} {k : Nat} (hk : k < 128) (h : Ref.roundsTo v r)
    (hv : |v| ≤ 2 ^ k) : FiniteUpTo k r := by
  have hlt : |v| < 2 ^ 128 - 2 ^ 103 := by
    have hpow : (2 : ℚ) ^ k ≤ 2 ^ 127 := pow_le_pow_right₀ one_le_two (Nat.le_of_lt_succ hk)
    linarith
  obtain ⟨hfin, hval⟩ := value_two_pow hk
  have habove := abs_sub_le_of_roundsTo h hlt hfin
  have hbelow := abs_sub_le_of_roundsTo h hlt (finite_fneg.2 hfin)
  obtain ⟨hlo, hhi⟩ := abs_le.1 hv
  rw [hval, abs_of_nonpos (sub_nonpos.2 hhi)] at habove
  rw [value_fneg, hval, abs_of_nonneg (sub_nonneg.2 hlo)] at hbelow
  obtain ⟨h1, -⟩ := abs_le.1 habove
  obtain ⟨-, h2⟩ := abs_le.1 hbelow
  exact ⟨(h.1 hlt).1, abs_le.2 ⟨by linarith, by linarith⟩⟩

theorem FiniteUpTo.i2f {n : ℤ} {k : Nat} (hk : k < 128) (h : |n| ≤ 2 ^ k) : FiniteUpTo k (i2f n) :=
  .of_roundsTo hk (roundsTo_i2f n) (by exact_mod_cast h)

theorem FiniteUpTo.fmul {a b : F32} {k l : Nat} (hkl : k + l < 128) (ha : FiniteUpTo k a) (hb : FiniteUpTo l b) :
    FiniteUpTo (k + l) (fmul a b) := by
  refine .of_roundsTo hkl (roundsTo_fmul ha.1 hb.1) ?_
  rw [abs_mul, pow_add]
  exact mul_le_mul ha.2 hb.2 (abs_nonneg _) (by positivity)

theorem FiniteUpTo.fadd {a b : F32} {k : Nat} (hk : k + 1 < 128) (ha : FiniteUpTo k a) (hb : FiniteUpTo k b) :
    FiniteUpTo (k + 1) (fadd a b) := by
  refine .of_roundsTo hk (roundsTo_fadd ha.1 hb.1) ?_
  rw [pow_succ, mul_two]
  exact (abs_add_le _ _).trans (add_le_add ha.2 hb.2)

theorem finiteUpTo_zero (k : Nat) : FiniteUpTo k 0#32 := by
  refine ⟨finite_zero false, ?_⟩
  rw [value_eq_zero.2 rfl, abs_zero]
  positivity

/-! ### The real-domain sum -/

/-- `0x53800000` are the bits of 2^40. -/
theorem FiniteUpTo.of_scaleBelow {x : F32} (h : Ref.scaleBelow 0x53800000 x) : FiniteUpTo 40 x := by
  obtain ⟨hfin, -, hpos⟩ := legalScale_spec (legalScale_of_scaleBelow (by decide) h)
  obtain ⟨m, rfl, -, hlt⟩ := exists_pack_of_scaleBelow h
  obtain ⟨-, hval⟩ := value_two_pow (k := 40) (by decide)
  refine ⟨hfin, ?_⟩
  rw [abs_of_pos hpos, ← hval]
  exact value_pack_false_le hlt.le (by decide)

/-- A word read in two's complement has a magnitude of at most 2^31. -/
theorem abs_s32_le (w : Word) : |s32 w| ≤ 2 ^ 31 := by
  have hlo := BitVec.le_toInt w
  have hhi := BitVec.toInt_lt (x := w)
  rw [s32, abs_le]
  omega

/-- Settles O33: the combined scale is at most 2^80, each of the two terms at most 2^111, and so the sum at most
2^112. -/
theorem modestScalesStayFinite : Obligations.ModestScalesStayFinite := by
  intro s c din ch acc hdin hweight hlo hhi
  have hscale : FiniteUpTo 80 (fmul din.scale c.wScale) :=
    .fmul (by decide) (.of_scaleBelow hdin) (.of_scaleBelow hweight)
  have hterm {n : ℤ} (hn : |n| ≤ 2 ^ 31) : FiniteUpTo 111 (fmul (i2f n) (fmul din.scale c.wScale)) :=
    .fmul (by decide) (.i2f (by decide) hn) hscale
  have hbias : FiniteUpTo 111 (if c.hasBias then
      fmul (i2f (s32 (readWord s.mem (c.bias.toNat + 4 * ch)))) (fmul din.scale c.wScale) else 0#32) := by
    split
    · exact hterm (abs_s32_le _)
    · exact finiteUpTo_zero _
  obtain ⟨hfin, -⟩ := hbias.fadd (by decide) (hterm (abs_le.2 ⟨hlo, by omega⟩))
  exact hfin

end Sys2Proof.Machine
end

section
/-! PROOFS. The nine taps of a depthwise sum, against the reference and at a single pixel (spec/42_dwconv.md R144,
R145, R151). -/

namespace Sys2Proof.Machine

/-! ### The sum against the reference -/

/-- What the tap `(ky, kx)` adds to the sum of R145. -/
def dwTapAt (s : State) (c : ConvOperands) (v : LayerView) (din : TensorDesc) (y x ch : Nat) (ky kx : ℤ) : ℤ :=
  if 0 ≤ (y : ℤ) + ky ∧ (y : ℤ) + ky < din.height ∧ 0 ≤ (x : ℤ) + kx ∧ (x : ℤ) + kx < din.width then
    Ref.product s (din.data + (((y : ℤ) + ky) * din.width + ((x : ℤ) + kx)).toNat * din.channels + ch)
      (v.wbase + 9 * ch + (3 * (ky + 1) + (kx + 1)).toNat) v.bits (s32 c.wZp)
  else 0

/-- The tap of index `t` is the tap `(t / 3 - 1, t % 3 - 1)`. -/
theorem dwTap_eq_dwTapAt (s : State) (c : ConvOperands) (v : LayerView) (din dout : TensorDesc) (y x ch t : Nat) :
    dwTap s.mem c ⟨v, din, dout⟩ y x ch t =
      dwTapAt s c v din y x ch ((t / 3 : ℕ) - 1) ((t % 3 : ℕ) - 1) := by
  have hindex : (3 * (((t / 3 : ℕ) : ℤ) - 1 + 1) + (((t % 3 : ℕ) : ℤ) - 1 + 1)).toNat = t := by omega
  simp only [dwTap, dwTapAt, ← add_sub_assoc (y : ℤ), ← add_sub_assoc (x : ℤ)]
  refine ite_congr rfl (fun ⟨hy, _, hx, _⟩ => ?_) fun _ => rfl
  obtain ⟨iy, hiy⟩ := Int.eq_ofNat_of_zero_le hy
  obtain ⟨ix, hix⟩ := Int.eq_ofNat_of_zero_le hx
  rw [mac_eq_mul_sub, Ref.product, hindex, hiy, hix]
  rfl

/-- The three rows of three taps, in the order of their indices. -/
theorem sum_taps (f : ℤ → ℤ → ℤ) :
    ((List.range 9).map fun t => f ((t / 3 : ℕ) - 1) ((t % 3 : ℕ) - 1)).sum =
      (([-1, 0, 1] : List ℤ).map fun ky => (([-1, 0, 1] : List ℤ).map fun kx => f ky kx).sum).sum := by
  simp [List.range_succ, add_assoc]

theorem dwAcc_eq (s : State) (c : ConvOperands) (v : LayerView) (din dout : TensorDesc) (y x ch : Nat) :
    dwAcc s.mem c ⟨v, din, dout⟩ y x ch = Ref.dwAcc s c v din y x ch := by
  rw [dwAcc, funext (dwTap_eq_dwTapAt s c v din dout y x ch)]
  exact sum_taps (dwTapAt s c v din y x ch)

/-! ### A single pixel -/

/-- At the only position of a 1×1 tensor the centre tap, of index 4, is the only one inside. -/
theorem dwTap_of_single_pixel (mem : List Host.Cell) (c : ConvOperands) {p : ConvPlan} (ch t : Nat)
    (hh : p.din.height = 1) (hw : p.din.width = 1) : dwTap mem c p 0 0 ch t =
      if t = 4 then mac (sample mem p.din 0 0 ch) (dwWeight mem p.view ch 4) p.view.bits (s32 c.wZp) else 0 := by
  simp only [dwTap, hh, hw]
  split_ifs with hinside hcentre hcentre
  · subst hcentre
    rfl
  · omega
  · omega
  · rfl

/-- Settles O34: of the nine taps only the centre one adds to the sum. -/
theorem singlePixelUsesCentreWeight : Obligations.SinglePixelUsesCentreWeight := by
  intro mem c p ch hh hw
  rw [dwAcc, List.map_congr_left fun t _ => dwTap_of_single_pixel mem c ch t hh hw]
  simp [List.range_succ, sample, TensorDesc.sampleAddr, dwWeight]

end Sys2Proof.Machine
end

section
/-! PROOFS. What the preconditions and the output bytes of both convolutions come to, in the terms of the reference
(spec/20_memory.md R68, R69, spec/42_dwconv.md R142, R146 to R148, R152). -/

namespace Sys2Proof.Machine

/-! ### Legal parameters and disjoint regions -/

theorem f32FinitePositive_iff {x : F32} : f32FinitePositive x = true ↔ Ref.legalScale x := by
  have hx := x.isLt
  simp only [f32FinitePositive, f32Neg, f32IsFinite, Bool.and_eq_true, Bool.not_eq_true', decide_eq_true_eq,
    decide_eq_false_iff_not]
  simp only [f32Mag, infMag, Ref.legalScale, Ref.scaleBelow]
  omega

theorem legalZp_iff {z : ℤ} : legalZp z = true ↔ Ref.legalZp z := by
  simp [legalZp, Ref.legalZp]

/-- What stops on a scale and a zero-point breaches their legality, under one of the two names. -/
theorem legalParams_error_cases {scale : F32} {zp : ℤ} {x : Stop} (h : legalParams scale zp = .error x) :
    ¬ (f32FinitePositive scale = true ∧ legalZp zp = true) ∧
      (x = .refuse .illegalScale ∨ x = .refuse .illegalZeroPoint) := by
  obtain ⟨hs, hx⟩ | ⟨hz, hx⟩ := legalParams_error h
  · exact ⟨by simp [hs], .inl hx⟩
  · exact ⟨by simp [hz], .inr hx⟩

theorem region_disjoint_iff {a b : Region} : a.disjoint b = true ↔ Ref.apart a.base a.len b.base b.len :=
  disjoint_iff

/-! ### The preconditions of a convolution -/

section Preconditions

variable {s : State} {c : ConvOperands} {v : LayerView} {din dout : TensorDesc} {wlen : Nat}

theorem convLegal_iff : Ref.convLegal c din dout ↔
    (f32FinitePositive din.scale = true ∧ legalZp din.zp = true) ∧
    (f32FinitePositive dout.scale = true ∧ legalZp dout.zp = true) ∧
    (f32FinitePositive c.wScale = true ∧ legalZp (s32 c.wZp) = true) := by
  simp only [f32FinitePositive_iff, legalZp_iff, Ref.convLegal]
  tauto

theorem convApart_iff : Ref.convApart s c v din dout wlen dout.channels ↔
    ∀ r ∈ s.commonReads c.input c.output ++ [⟨s.recordAddr c.layer, 16⟩, din.region, ⟨v.wbase, wlen⟩] ++
      (if c.hasBias then [⟨c.bias.toNat, 4 * dout.channels⟩] else []), dout.region.disjoint r = true := by
  cases hb : c.hasBias <;>
    simp [Ref.convApart, hb, State.commonReads, State.recordAddr, TensorDesc.region, region_disjoint_iff]

theorem convPreconditions_ok_iff_legal_apart : convPreconditions s c ⟨v, din, dout⟩ wlen = .ok () ↔
    Ref.convLegal c din dout ∧ Ref.convApart s c v din dout wlen dout.channels := by
  rw [convPreconditions_ok_iff, convLegal_iff, convApart_iff]
  tauto

/-- Illegal parameters stop a convolution before the overlap rule does. -/
theorem convPreconditions_error_cases {x : Stop} (h : convPreconditions s c ⟨v, din, dout⟩ wlen = .error x) :
    (¬ Ref.convLegal c din dout ∧ (x = .refuse .illegalScale ∨ x = .refuse .illegalZeroPoint)) ∨
      (Ref.convLegal c din dout ∧ x = .refuse .regionOverlap) := by
  simp only [convPreconditions, bind_error_iff, legalParams_ok_iff] at h
  rw [convLegal_iff]
  obtain h | ⟨-, hdin, h | ⟨-, hdout, h | ⟨-, hweight, h⟩⟩⟩ := h
  · obtain ⟨hbad, hx⟩ := legalParams_error_cases h
    exact .inl ⟨fun ⟨hgood, _, _⟩ => hbad hgood, hx⟩
  · obtain ⟨hbad, hx⟩ := legalParams_error_cases h
    exact .inl ⟨fun ⟨_, hgood, _⟩ => hbad hgood, hx⟩
  · obtain ⟨hbad, hx⟩ := legalParams_error_cases h
    exact .inl ⟨fun ⟨_, _, hgood⟩ => hbad hgood, hx⟩
  · exact .inr ⟨⟨hdin, hdout, hweight⟩, noOverlap_error h⟩

theorem convPreconditions_of_illegal (h : ¬ Ref.convLegal c din dout) :
    convPreconditions s c ⟨v, din, dout⟩ wlen = .error (.refuse .illegalScale) ∨
      convPreconditions s c ⟨v, din, dout⟩ wlen = .error (.refuse .illegalZeroPoint) := by
  cases hr : convPreconditions s c ⟨v, din, dout⟩ wlen with
  | ok u => exact absurd (convPreconditions_ok_iff_legal_apart.1 hr).1 h
  | error x =>
    obtain ⟨-, rfl | rfl⟩ | ⟨hlegal, -⟩ := convPreconditions_error_cases hr
    · exact .inl rfl
    · exact .inr rfl
    · exact absurd hlegal h

theorem convPreconditions_of_overlap (hlegal : Ref.convLegal c din dout)
    (h : ¬ Ref.convApart s c v din dout wlen dout.channels) :
    convPreconditions s c ⟨v, din, dout⟩ wlen = .error (.refuse .regionOverlap) := by
  cases hr : convPreconditions s c ⟨v, din, dout⟩ wlen with
  | ok u => exact absurd (convPreconditions_ok_iff_legal_apart.1 hr).2 h
  | error x =>
    obtain ⟨hillegal, -⟩ | ⟨-, rfl⟩ := convPreconditions_error_cases hr
    · exact absurd hlegal hillegal
    · rfl

end Preconditions

/-! ### The output bytes of a convolution -/

theorem nan_fdiv_of_nan {real scale : F32} (h : Ref.nan real) : Ref.nan (fdiv real scale) := by
  obtain ⟨-, -, -, hdiv⟩ := arithmetic_nan (b := scale) (.inl h)
  exact hdiv

/-- A quotient by a legal scale is a NaN only when its numerator is. -/
theorem nan_fdiv_iff {real scale : F32} (hs : Ref.legalScale scale) : Ref.nan (fdiv real scale) ↔ Ref.nan real := by
  obtain ⟨hfin, -, hpos⟩ := legalScale_spec hs
  refine ⟨fun hnan => ?_, nan_fdiv_of_nan⟩
  by_contra hreal
  rw [← f32IsNaN_iff] at hnan
  rw [nan_iff, not_lt] at hreal
  obtain hlt | hinf := hreal.lt_or_eq
  · have hdiv := fdiv_of_finite (finite_iff.2 hlt) hfin (value_eq_zero.not.1 hpos.ne')
    simp [hdiv, f32IsNaN_pack_round] at hnan
  · rw [← f32Pack_fields real, hinf, fdiv_inf_finite hfin] at hnan
    simp at hnan

theorem convReal_eq (s : State) (c : ConvOperands) (din : TensorDesc) (ch : Nat) (acc : ℤ) :
    convReal s.mem c din ch acc = Ref.convReal s c din ch acc := rfl

theorem relu6Clamp_eq_clamped (relu6 : Bool) (q : ℤ) (scale : F32) (zp : ℤ) :
    (if relu6 then relu6Clamp q scale zp else q) = Ref.clamped relu6 q scale zp := by
  cases hinf : f32IsInf (fdiv 0x40C00000#32 scale) <;>
    simp [relu6Clamp, relu6Ceiling, Ref.clamped, f32Six, hinf]

/-- A code requantized is the byte stored, clamped or not: it stays in 0 to 255. -/
theorem outputCode_spec {relu6 : Bool} {real scale : F32} {zp : ℤ} {b : Byte} (hz : Ref.legalZp zp)
    (h : outputCode relu6 real scale zp = .ok b) :
    ∃ q, requantize real scale zp = .ok q ∧ (b.toNat : ℤ) = Ref.clamped relu6 q scale zp := by
  obtain ⟨q, hq, rfl⟩ := outputCode_ok_iff.1 h
  refine ⟨q, hq, ?_⟩
  rw [byteOfCode_toNat, relu6Clamp_eq_clamped]
  have hrange := requantize_range hq
  split_ifs
  · exact relu6Clamp_range hrange hz
  · exact hrange

section Bytes

variable {s : State} {c : ConvOperands} {din dout : TensorDesc} {ch : Nat} {acc : ℤ}

/-- An element whose exact sum is an i32 and whose real sum is no NaN has its byte. -/
theorem convByte_complete (hs : Ref.legalScale dout.scale) (hacc : -2147483648 ≤ acc ∧ acc ≤ 2147483647)
    (hnan : ¬ Ref.nan (Ref.convReal s c din ch acc)) : ∃ b, convByte s.mem c din dout ch acc = .ok b := by
  cases h : outputCode c.relu6 (convReal s.mem c din ch acc) dout.scale dout.zp with
  | ok b => exact ⟨b, convByte_ok_iff.2 ⟨hacc, h⟩⟩
  | error x => exact absurd ((nan_fdiv_iff hs).1 (f32IsNaN_iff.1 (outputCode_error h).1)) hnan

theorem convByte_ok_spec {b : Byte} (hz : Ref.legalZp dout.zp) (h : convByte s.mem c din dout ch acc = .ok b) :
    ∃ q, requantize (Ref.convReal s c din ch acc) dout.scale dout.zp = .ok q ∧
      (b.toNat : ℤ) = Ref.clamped c.relu6 q dout.scale dout.zp :=
  outputCode_spec hz (convByte_ok_iff.1 h).2

theorem convByte_of_nan (hnan : Ref.nan (Ref.convReal s c din ch acc)) (b : Byte) :
    convByte s.mem c din dout ch acc ≠ .ok b := by
  intro h
  obtain ⟨q, hq, -⟩ := outputCode_ok_iff.1 (convByte_ok_iff.1 h).2
  rw [convReal_eq, requantize_of_nan (nan_fdiv_of_nan hnan)] at hq
  cases hq

end Bytes

end Sys2Proof.Machine
end

section
/-! PROOFS. `DWCONV`: its errors, its refusals and its result (spec/42_dwconv.md R141, R142, R149, R152). -/

namespace Sys2Proof.Machine

/-! ### Errors -/

variable {s : State} {c : ConvOperands} {v : LayerView} {din dout : TensorDesc}

theorem exec_dwconv (s : State) (c : ConvOperands) : exec (.dwconv c) s = s.conclude (dwResult s c) := rfl

theorem exec_dwconv_of_error {e : EngineError} (h : dwChecks s c = .error (.error e)) :
    exec (.dwconv c) s = .next (raise e s) := by
  rw [exec_dwconv, dwResult, h, error_bind, conclude_error]

/-- Past the three reads the checks stop only with `InvalidDimensions`. -/
theorem dwChecks_error_of_reads (hlookup : lookup s c.layer = .ok v) (hdin : readDesc s c.input = .ok din)
    (hdout : readDesc s c.output = .ok dout) {x : Stop} (h : dwChecks s c = .error x) :
    x = .error .invalidDimensions := by
  simp only [dwChecks, hlookup, hdin, hdout, ok_bind, bind_error_iff, require_error_iff, pure_eq_ok] at h
  obtain ⟨-, hx⟩ | ⟨-, -, ⟨-, hx⟩ | ⟨-, -, ⟨-, hx⟩ | ⟨-, -, hx⟩⟩⟩ := h
  · exact hx
  · exact hx
  · exact hx
  · cases hx

theorem dwPasses_iff : Ref.dwPasses s c v din dout ↔ dwChecks s c = .ok ⟨v, din, dout⟩ := by
  rw [dwChecks_ok_iff, Ref.dwPasses]
  tauto

/-- Settles O27: each read is the first thing that can stop after those before it, and every later check raises the
same error. -/
theorem dwconvErrors : Obligations.DwconvErrors := by
  intro s c
  refine ⟨fun e h => exec_dwconv_of_error (bind_error_iff.2 (.inl h)), fun v hlookup => ?_⟩
  refine ⟨fun e h => ?_, fun din hdin => ⟨fun e h => ?_, fun dout hdout hfails => ?_⟩⟩
  · exact exec_dwconv_of_error (bind_error_iff.2 (.inr ⟨v, hlookup, bind_error_iff.2 (.inl h)⟩))
  · exact exec_dwconv_of_error (bind_error_iff.2 (.inr ⟨v, hlookup, bind_error_iff.2 (.inr ⟨din, hdin,
      bind_error_iff.2 (.inl h)⟩)⟩))
  · cases h : dwChecks s c with
    | ok p =>
      obtain ⟨hlookup', hdin', hdout', ⟨hheight, hwidth, hchannels⟩, hweights, hbias⟩ := dwChecks_ok_iff.1 h
      cases hlookup.symm.trans hlookup'
      cases hdin.symm.trans hdin'
      cases hdout.symm.trans hdout'
      obtain hne | hne | hne | hlt | ⟨hhas, hlt⟩ := hfails
      · exact absurd hheight hne
      · exact absurd hwidth hne
      · exact absurd hchannels hne
      · exact absurd hweights hlt.not_ge
      · exact absurd (hbias hhas) hlt.not_ge
    | error x => exact exec_dwconv_of_error (dwChecks_error_of_reads hlookup hdin hdout h ▸ h)

/-! ### Past the checks -/

section Passes

variable (hpasses : Ref.dwPasses s c v din dout)
include hpasses

/-- A `DWCONV` that passes its checks is concluded from its preconditions and its bytes. -/
theorem exec_dwconv_of_passes : exec (.dwconv c) s = s.conclude (do
    convPreconditions s c ⟨v, din, dout⟩ (9 * din.channels)
    let bytes ← dwBytes s.mem c ⟨v, din, dout⟩
    pure (s.store dout.data bytes).advance) := by
  rw [exec_dwconv, dwResult, dwPasses_iff.1 hpasses, ok_bind]

theorem exec_dwconv_of_preconditions_error {q : Refusal}
    (h : convPreconditions s c ⟨v, din, dout⟩ (9 * din.channels) = .error (.refuse q)) :
    exec (.dwconv c) s = .refused q := by
  rw [exec_dwconv_of_passes hpasses, h, error_bind, conclude_refuse]

theorem dwPasses_shape : dout.height = din.height ∧ dout.width = din.width ∧ dout.channels = din.channels := by
  obtain ⟨-, -, -, hheight, hwidth, hchannels, -⟩ := hpasses
  exact ⟨hheight, hwidth, hchannels⟩

theorem convPreconditions_of_dwPasses (hlegal : Ref.convLegal c din dout)
    (hapart : Ref.convApart s c v din dout (9 * din.channels) din.channels) :
    convPreconditions s c ⟨v, din, dout⟩ (9 * din.channels) = .ok () := by
  obtain ⟨-, -, hchannels⟩ := dwPasses_shape hpasses
  exact convPreconditions_ok_iff_legal_apart.2 ⟨hlegal, hchannels ▸ hapart⟩

end Passes

/-- Every sum of a legal `DWCONV` is an i32. -/
theorem dwAcc_mem_i32 (hlegal : Ref.convLegal c din dout) (y x ch : Nat) :
    -2147483648 ≤ Ref.dwAcc s c v din y x ch ∧ Ref.dwAcc s c v din y x ch ≤ 2147483647 := by
  obtain ⟨-, -, -, -, -, hzp⟩ := hlegal
  have habs := abs_le.1 (abs_dwAcc_le s.mem (p := ⟨v, din, dout⟩) hzp y x ch)
  rw [dwAcc_eq] at habs
  omega

/-- The bytes of a legal `DWCONV` stop only on a NaN. -/
theorem dwBytes_error_of_legal (hlegal : Ref.convLegal c din dout) {x : Stop}
    (h : dwBytes s.mem c ⟨v, din, dout⟩ = .error x) : x = .refuse .nanToRequantize := by
  obtain ⟨k, -, hk⟩ := collect_error h
  obtain ⟨houtside, -⟩ | hx := convByte_error hk
  · rw [dwAcc_eq] at houtside
    exact absurd (dwAcc_mem_i32 hlegal _ _ _) houtside
  · exact hx

/-- Settles O28: the first two clauses are the preconditions; with a NaN among the real sums the bytes cannot all be
computed, and only a NaN stops them. -/
theorem dwconvRefusals : Obligations.DwconvRefusals := by
  intro s c v din dout hpasses
  obtain ⟨hheight, hwidth, hchannels⟩ := dwPasses_shape hpasses
  refine ⟨fun hillegal => ?_, fun hlegal hoverlap => ?_, ?_⟩
  · exact (convPreconditions_of_illegal hillegal).imp (exec_dwconv_of_preconditions_error hpasses)
      (exec_dwconv_of_preconditions_error hpasses)
  · exact exec_dwconv_of_preconditions_error hpasses
      (convPreconditions_of_overlap hlegal (by rwa [hchannels]))
  · rintro hlegal hapart ⟨y, x, ch, hy, hx, hch, hnan⟩
    rw [exec_dwconv_of_passes hpasses, convPreconditions_of_dwPasses hpasses hlegal hapart, ok_bind]
    cases hbytes : dwBytes s.mem c ⟨v, din, dout⟩ with
    | ok bs =>
      rw [← hheight] at hy
      rw [← hwidth] at hx
      rw [← hchannels] at hch
      have hlt := (element_lt hy hx hch).trans_eq (tensorBytes_length hbytes).symm
      have hbyte := tensorBytes_element hbytes hy hx hch hlt
      rw [dwAcc_eq] at hbyte
      exact absurd hbyte (convByte_of_nan hnan _)
    | error e => rw [dwBytes_error_of_legal hlegal hbytes, error_bind, conclude_refuse]

/-- The bytes of a legal `DWCONV` without a NaN among its real sums. -/
theorem dwBytes_complete (hpasses : Ref.dwPasses s c v din dout) (hlegal : Ref.convLegal c din dout)
    (hreal : ∀ y x ch, y < din.height → x < din.width → ch < din.channels →
      ¬ Ref.nan (Ref.convReal s c din ch (Ref.dwAcc s c v din y x ch))) :
    ∃ bs, dwBytes s.mem c ⟨v, din, dout⟩ = .ok bs := by
  obtain ⟨hheight, hwidth, hchannels⟩ := dwPasses_shape hpasses
  have ⟨_, hscale, _⟩ := hlegal
  refine tensorBytes_complete fun y x ch hy hx hch => ?_
  rw [dwAcc_eq]
  exact convByte_complete hscale (dwAcc_mem_i32 hlegal y x ch)
    (hreal y x ch (hy.trans_eq hheight) (hx.trans_eq hwidth) (hch.trans_eq hchannels))

/-- The byte a completed `DWCONV` leaves at an element of its output. -/
theorem dwBytes_element {bs : List Byte} (hbytes : dwBytes s.mem c ⟨v, din, dout⟩ = .ok bs)
    (hlegal : Ref.convLegal c din dout) {y x ch : Nat} (hy : y < dout.height) (hx : x < dout.width)
    (hch : ch < dout.channels) (hlt : (y * dout.width + x) * dout.channels + ch < bs.length) :
    ∃ q, requantize (Ref.convReal s c din ch (Ref.dwAcc s c v din y x ch)) dout.scale dout.zp = .ok q ∧
      (bs[(y * dout.width + x) * dout.channels + ch].toNat : ℤ) = Ref.clamped c.relu6 q dout.scale dout.zp := by
  obtain ⟨-, -, -, -, hzp, -⟩ := hlegal
  have hbyte := tensorBytes_element hbytes hy hx hch hlt
  rw [dwAcc_eq] at hbyte
  exact convByte_ok_spec hzp hbyte

/-- Settles O26: every byte can be computed, and the store of them all is the only effect beside the pointer. -/
theorem dwconvResult : Obligations.DwconvResult := by
  intro s c v din dout hwf hpasses hlegal hapart hreal
  obtain ⟨bs, hbytes⟩ := dwBytes_complete hpasses hlegal hreal
  have hlen : bs.length = dout.size := tensorBytes_length hbytes
  have hpre := convPreconditions_of_dwPasses hpasses hlegal hapart
  obtain ⟨hheight, hwidth, hchannels⟩ := dwPasses_shape hpasses
  have ⟨_, _, hout, _⟩ := hpasses
  have hin : dout.data + bs.length ≤ s.memBytes := by
    obtain ⟨-, -, hin, rfl⟩ := readDesc_ok_iff.1 hout
    rwa [hlen]
  refine ⟨(s.store dout.data bs).advance, ?_, rfl, ⟨rfl, rfl, rfl⟩, ⟨rfl, rfl, rfl, rfl⟩, ⟨rfl, rfl, rfl⟩, ?_⟩
  · rw [exec_dwconv_of_passes hpasses, hpre, ok_bind, hbytes, ok_bind, pure_eq_ok, conclude_ok]
  rw [← hheight, ← hwidth, ← hchannels]
  refine ⟨fun a ha => readByte_writeBytes_outside hwf hin ?_, fun y x ch hy hx hch => ?_⟩
  · rwa [hlen]
  · have hlt := (element_lt hy hx hch).trans_eq hlen.symm
    rw [advance_mem, store_mem, add_assoc, readByte_writeBytes_inside hwf hin hlt]
    exact dwBytes_element hbytes hlegal hy hx hch hlt

end Sys2Proof.Machine
end

section
/-! PROOFS. `PWCONV`: its errors, its refusals and its result (spec/43_pwconv.md R161 to R170). -/

namespace Sys2Proof.Machine

/-! ### The bytes of a tensor, element by element -/

/-- Every index into the data of a tensor is that of a position inside it (spec/20_memory.md R58). -/
theorem index_position_lt {d : TensorDesc} {k : Nat} (hk : k < d.size) :
    k / (d.width * d.channels) < d.height ∧ k / d.channels % d.width < d.width ∧ k % d.channels < d.channels := by
  have hpos : 0 < d.height * d.width * d.channels := k.zero_le.trans_lt hk
  have hchannels : 0 < d.channels := Nat.pos_of_mul_pos_left hpos
  have hwidth : 0 < d.width := Nat.pos_of_mul_pos_left (Nat.pos_of_mul_pos_right hpos)
  refine ⟨Nat.div_lt_of_lt_mul ?_, Nat.mod_lt _ hwidth, Nat.mod_lt _ hchannels⟩
  calc k < d.height * d.width * d.channels := hk
    _ = d.width * d.channels * d.height := by ring

/-- What stops the bytes of a tensor stops one of its elements. -/
theorem tensorBytes_error {d : TensorDesc} {f : Nat → Nat → Nat → Except Stop Byte} {e : Stop}
    (h : tensorBytes d f = .error e) :
    ∃ y x ch, y < d.height ∧ x < d.width ∧ ch < d.channels ∧ f y x ch = .error e := by
  obtain ⟨k, hk, hf⟩ := collect_error h
  obtain ⟨hy, hx, hch⟩ := index_position_lt (List.mem_range.1 hk)
  exact ⟨_, _, _, hy, hx, hch, hf⟩

/-- One element without a byte stops the bytes of its tensor, at that element or at another. -/
theorem tensorBytes_stops {d : TensorDesc} {f : Nat → Nat → Nat → Except Stop Byte} {y x ch : Nat}
    (hy : y < d.height) (hx : x < d.width) (hch : ch < d.channels) (hf : ∀ b, f y x ch ≠ .ok b) :
    ∃ e, tensorBytes d f = .error e := by
  cases h : tensorBytes d f with
  | ok bs =>
    have hlt := (element_lt hy hx hch).trans_eq (tensorBytes_length h).symm
    exact absurd (tensorBytes_element h hy hx hch hlt) (hf _)
  | error e => exact ⟨e, rfl⟩

/-- Storing all bytes of an output tensor changes no byte outside its data and leaves each element's byte at the
element's address. -/
theorem store_tensorBytes {s : State} {output : Word} {dout : TensorDesc} {f : Nat → Nat → Nat → Except Stop Byte}
    {bs : List Byte} (hwf : Memory.wf s.memBytes s.mem = true) (hout : readDesc s output = .ok dout)
    (hbytes : tensorBytes dout f = .ok bs) :
    s.sameBytesOutside (s.store dout.data bs) dout.data dout.size ∧
      ∀ y x ch, y < dout.height → x < dout.width → ch < dout.channels →
        f y x ch = .ok (readByte (s.store dout.data bs).mem
          (dout.data + (y * dout.width + x) * dout.channels + ch)) := by
  have hlen : bs.length = dout.size := tensorBytes_length hbytes
  have hin : dout.data + bs.length ≤ s.memBytes := by
    obtain ⟨-, -, hin, rfl⟩ := readDesc_ok_iff.1 hout
    rwa [hlen]
  refine ⟨fun a ha => readByte_writeBytes_outside hwf hin (by rwa [hlen]), fun y x ch hy hx hch => ?_⟩
  have hlt := (element_lt hy hx hch).trans_eq hlen.symm
  rw [store_mem, add_assoc, readByte_writeBytes_inside hwf hin hlt]
  exact tensorBytes_element hbytes hy hx hch hlt

/-! ### The checks -/

variable {s : State} {c : ConvOperands} {v : LayerView} {din dout : TensorDesc}

theorem exec_pwconv (s : State) (c : ConvOperands) : exec (.pwconv c) s = s.conclude (pwResult s c) := rfl

theorem exec_pwconv_of_error {e : EngineError} (h : pwChecks s c = .error (.error e)) :
    exec (.pwconv c) s = .next (raise e s) := by
  rw [exec_pwconv, pwResult, h, error_bind, conclude_error]

theorem pwPasses_iff : Ref.pwPasses s c v din dout ↔ pwChecks s c = .ok ⟨v, din, dout⟩ := by
  rw [pwChecks_ok_iff, Ref.pwPasses]
  tauto

/-- Past the three reads every check of R161 that fails raises `InvalidDimensions`. -/
theorem pwChecks_of_reads (hlookup : lookup s c.layer = .ok v) (hdin : readDesc s c.input = .ok din)
    (hdout : readDesc s c.output = .ok dout) (hfails : ¬ Ref.pwPasses s c v din dout) :
    pwChecks s c = .error (.error .invalidDimensions) := by
  rw [pwPasses_iff] at hfails
  simp only [pwChecks, hlookup, hdin, hdout, ok_bind] at hfails ⊢
  cases hshape : require (dout.height == din.height && dout.width == din.width) .invalidDimensions with
  | error e => rw [(require_error_iff.1 hshape).2, error_bind]
  | ok _ =>
    cases hweights : require (decide (dout.channels * din.channels ≤ v.wlen)) .invalidDimensions with
    | error e => rw [(require_error_iff.1 hweights).2, ok_bind, error_bind]
    | ok _ =>
      cases hbias : require (!c.hasBias || s.inRange c.bias.toNat (4 * dout.channels)) .invalidDimensions with
      | error e => rw [(require_error_iff.1 hbias).2, ok_bind, ok_bind, error_bind]
      | ok _ => exact absurd (by rw [hshape, hweights, hbias]; rfl) hfails

/-- Settles O30: each read is the first thing that can stop after those before it, and every later check raises the
same error. -/
theorem pwconvErrors : Obligations.PwconvErrors := by
  intro s c
  refine ⟨fun e h => exec_pwconv_of_error (by simp [pwChecks, h]), fun v hlookup => ?_⟩
  refine ⟨fun e h => exec_pwconv_of_error (by simp [pwChecks, hlookup, h]), fun din hdin => ?_⟩
  refine ⟨fun e h => exec_pwconv_of_error (by simp [pwChecks, hlookup, hdin, h]), fun dout hdout hfails => ?_⟩
  refine exec_pwconv_of_error (pwChecks_of_reads hlookup hdin hdout ?_)
  rintro ⟨-, -, -, hheight, hwidth, hweights, hbias⟩
  obtain hne | hne | hlt | ⟨hhas, hlt⟩ := hfails
  · exact hne hheight
  · exact hne hwidth
  · exact hweights.not_gt hlt
  · exact (hbias hhas).not_gt hlt

/-! ### The sum against the reference -/

theorem pwAcc_eq (s : State) (c : ConvOperands) (v : LayerView) (din dout : TensorDesc) (y x co : Nat) :
    pwAcc s.mem c ⟨v, din, dout⟩ y x co = Ref.pwAcc s c v din y x co :=
  congrArg List.sum (List.map_congr_left fun _ _ => mac_eq_mul_sub ..)

/-- What an element of the output comes to with the reference's sum: its byte, or what stops it (R166 to R168). -/
def pwElement (s : State) (c : ConvOperands) (v : LayerView) (din dout : TensorDesc) (y x co : Nat) :
    Except Stop Byte :=
  convByte s.mem c din dout co (Ref.pwAcc s c v din y x co)

theorem pwBytes_eq (s : State) (c : ConvOperands) (v : LayerView) (din dout : TensorDesc) :
    pwBytes s.mem c ⟨v, din, dout⟩ = tensorBytes dout (pwElement s c v din dout) := by
  rw [pwBytes]
  simp only [pwAcc_eq]
  rfl

/-- Every exact sum of the output is an i32 (R165). -/
def pwSumsFit (s : State) (c : ConvOperands) (v : LayerView) (din dout : TensorDesc) : Prop :=
  ∀ y x co, y < din.height → x < din.width → co < dout.channels →
    -2147483648 ≤ Ref.pwAcc s c v din y x co ∧ Ref.pwAcc s c v din y x co ≤ 2147483647

/-! ### Past the checks -/

section Passes

variable (hpasses : Ref.pwPasses s c v din dout)
include hpasses

theorem pwPasses_shape : dout.height = din.height ∧ dout.width = din.width := by
  obtain ⟨-, -, -, hheight, hwidth, -⟩ := hpasses
  exact ⟨hheight, hwidth⟩

theorem exec_pwconv_of_preconditions_error {q : Refusal}
    (h : convPreconditions s c ⟨v, din, dout⟩ (dout.channels * din.channels) = .error (.refuse q)) :
    exec (.pwconv c) s = .refused q := by
  rw [exec_pwconv, pwResult, pwPasses_iff.1 hpasses, ok_bind, h, error_bind, conclude_refuse]

variable (hlegal : Ref.convLegal c din dout)
  (hapart : Ref.convApart s c v din dout (dout.channels * din.channels) dout.channels)
include hlegal hapart

/-- Past its checks and preconditions a `PWCONV` is concluded from its bytes. -/
theorem exec_pwconv_of_bytes : exec (.pwconv c) s = s.conclude (do
    let bytes ← tensorBytes dout (pwElement s c v din dout)
    pure (s.store dout.data bytes).advance) := by
  rw [exec_pwconv, pwResult, pwPasses_iff.1 hpasses, ok_bind,
    convPreconditions_ok_iff_legal_apart.2 ⟨hlegal, hapart⟩, ok_bind, pwBytes_eq]

/-- An element without a byte has the `PWCONV` refused, for a sum outside i32 or for a NaN (R165, R170). -/
theorem exec_pwconv_of_no_byte {y x co : Nat} (hy : y < din.height) (hx : x < din.width) (hco : co < dout.channels)
    (hbyte : ∀ b, pwElement s c v din dout y x co ≠ .ok b) :
    (¬ pwSumsFit s c v din dout ∧ exec (.pwconv c) s = .refused .accumulatorOverflow) ∨
      exec (.pwconv c) s = .refused .nanToRequantize := by
  obtain ⟨hheight, hwidth⟩ := pwPasses_shape hpasses
  obtain ⟨e, hbytes⟩ := tensorBytes_stops (hy.trans_eq hheight.symm) (hx.trans_eq hwidth.symm) hco hbyte
  obtain ⟨y', x', co', hy', hx', hco', hstop⟩ := tensorBytes_error hbytes
  rw [exec_pwconv_of_bytes hpasses hlegal hapart, hbytes, error_bind]
  obtain ⟨houtside, rfl⟩ | rfl := convByte_error hstop
  · refine .inl ⟨fun hfits => houtside ?_, rfl⟩
    exact hfits y' x' co' (hy'.trans_eq hheight) (hx'.trans_eq hwidth) hco'
  · exact .inr rfl

end Passes

/-- Settles O31: the first two clauses are the preconditions; an element whose sum is no i32, or whose real sum is a
NaN, has no byte, and with every sum an i32 only a NaN stops the bytes. -/
theorem pwconvRefusals : Obligations.PwconvRefusals := by
  intro s c v din dout hpasses
  refine ⟨fun hillegal => ?_, fun hlegal hoverlap => ?_, ?_, ?_⟩
  · exact (convPreconditions_of_illegal hillegal).imp (exec_pwconv_of_preconditions_error hpasses)
      (exec_pwconv_of_preconditions_error hpasses)
  · exact exec_pwconv_of_preconditions_error hpasses (convPreconditions_of_overlap hlegal hoverlap)
  · rintro hlegal hapart ⟨y, x, co, hy, hx, hco, houtside⟩
    have hbyte : ∀ b, pwElement s c v din dout y x co ≠ .ok b := fun b hb => houtside (convByte_ok_iff.1 hb).1
    exact (exec_pwconv_of_no_byte hpasses hlegal hapart hy hx hco hbyte).imp_left And.right
  · rintro hlegal hapart hfits ⟨y, x, co, hy, hx, hco, hnan⟩
    exact (exec_pwconv_of_no_byte hpasses hlegal hapart hy hx hco (convByte_of_nan hnan)).resolve_left
      fun ⟨houtside, _⟩ => houtside hfits

/-- Settles O29: every byte can be computed, and the store of them all is the only effect beside the pointer. -/
theorem pwconvResult : Obligations.PwconvResult := by
  intro s c v din dout hwf hpasses hlegal hapart hreal
  have ⟨_, hscale, _, _, hzp, _⟩ := hlegal
  have ⟨_, _, hout, _⟩ := hpasses
  obtain ⟨hheight, hwidth⟩ := pwPasses_shape hpasses
  rw [← hheight, ← hwidth] at hreal ⊢
  obtain ⟨bs, hbytes⟩ : ∃ bs, tensorBytes dout (pwElement s c v din dout) = .ok bs := by
    refine tensorBytes_complete fun y x co hy hx hco => ?_
    obtain ⟨hlower, hupper, hnan⟩ := hreal y x co hy hx hco
    exact convByte_complete hscale ⟨hlower, hupper⟩ hnan
  obtain ⟨hframe, helement⟩ := store_tensorBytes hwf hout hbytes
  refine ⟨(s.store dout.data bs).advance, ?_, rfl, ⟨rfl, rfl, rfl⟩, ⟨rfl, rfl, rfl, rfl⟩, ⟨rfl, rfl, rfl⟩,
    hframe, fun y x co hy hx hco => convByte_ok_spec hzp (helement y x co hy hx hco)⟩
  rw [exec_pwconv_of_bytes hpasses hlegal hapart, hbytes, ok_bind, pure_eq_ok, conclude_ok]

end Sys2Proof.Machine
end

section
/-! PROOFS. Means in binary32 that are no NaN (spec/44_gap.md R178, R180). -/

namespace Sys2Proof.Machine

/-- A rounded result is finite or infinite. -/
theorem not_nan_of_roundsTo {v : ℚ} {r : F32} (h : Ref.roundsTo v r) : ¬ Ref.nan r := by
  obtain ⟨hbelow, habove, -⟩ := h
  rw [nan_iff, not_lt]
  by_cases hv : |v| < 2 ^ 128 - 2 ^ 103
  · exact (finite_iff.1 (hbelow hv).1).le
  · exact (habove (not_lt.1 hv)).le

/-- A finite term makes no running sum a NaN, not even an overflowed one. -/
theorem not_nan_fadd {a b : F32} (ha : ¬ Ref.nan a) (hb : Ref.finite b) : ¬ Ref.nan (fadd a b) := by
  have hmag := ha
  rw [nan_iff, not_lt] at hmag
  obtain hlt | hinf := hmag.lt_or_eq
  · exact not_nan_of_roundsTo (roundsTo_fadd (finite_iff.2 hlt) hb)
  · rwa [← f32Pack_fields a, hinf, fadd_inf_finite hb, ← hinf, f32Pack_fields]

theorem legalScale_of_value_pos {x : F32} (hfin : Ref.finite x) (hpos : 0 < Ref.value x) : Ref.legalScale x := by
  have hmag : f32Mag x ≠ 0 := value_eq_zero.not.1 hpos.ne'
  have hneg : f32Neg x = false := by
    rw [value_eq] at hpos
    cases hx : f32Neg x
    · rfl
    · have hunits : (0 : ℚ) ≤ magUnits (f32Mag x) / unitsOfOne := by positivity
      rw [hx, signFactor_true] at hpos
      linarith
  rw [finite_iff] at hfin
  rw [← f32FinitePositive_iff]
  simp [f32FinitePositive, f32IsFinite, hneg, hfin, Nat.pos_of_ne_zero hmag]

/-- A number of positions is a divisor like a legal scale: finite, and at least 1 after its rounding. -/
theorem legalScale_i2f {n : ℕ} (h0 : 0 < n) (hn : n ≤ 2 ^ 31) : Ref.legalScale (i2f n) := by
  have hround := roundsTo_i2f n
  have hone : (1 : ℚ) ≤ n := by exact_mod_cast h0
  have hlt : |((n : ℤ) : ℚ)| < 2 ^ 128 - 2 ^ 103 := by
    have hq : (n : ℚ) ≤ 2 ^ 31 := by exact_mod_cast hn
    rw [Int.cast_natCast, Nat.abs_cast]
    linarith
  have hnear := abs_sub_le_of_roundsTo hround hlt (y := f32Pack false oneMag) (by unfold Ref.finite; decide)
  rw [value_one, Int.cast_natCast, abs_of_nonneg (sub_nonneg.2 hone)] at hnear
  obtain ⟨-, hle⟩ := abs_le.1 hnear
  exact legalScale_of_value_pos (hround.1 hlt).1 (by linarith)

end Sys2Proof.Machine
end

section
/-! PROOFS. `GAP`: its mean against the reference, its errors, its refusals, its result and the loop in place
(spec/44_gap.md R176 to R182). -/

namespace Sys2Proof.Machine

/-! ### The mean against the reference -/

/-- A fold over the positions of a plane is the fold over its rows of the folds inside each row. -/
theorem foldl_range_mul {α : Type} (f : α → ℕ → ℕ → α) (w : ℕ) (a : α) : ∀ h,
    (List.range (h * w)).foldl (fun acc k => f acc (k / w) (k % w)) a =
      (List.range h).foldl (fun acc y => (List.range w).foldl (fun acc x => f acc y x) acc) a
  | 0 => by rw [Nat.zero_mul]; rfl
  | h + 1 => by
    rw [Nat.succ_mul, List.range_add, List.foldl_append, foldl_range_mul f w a h, List.range_succ,
      List.foldl_append, List.foldl_map]
    refine List.foldl_ext _ _ _ fun acc x hx => ?_
    have hlt := List.mem_range.1 hx
    rw [Nat.add_comm, Nat.add_mul_div_right _ _ (x.zero_le.trans_lt hlt), Nat.div_eq_of_lt hlt, Nat.zero_add,
      Nat.add_mul_mod_self_right, Nat.mod_eq_of_lt hlt]

theorem gapSum_eq (s : State) (din : TensorDesc) (ch : Nat) : gapSum s.mem din ch = Ref.gapSum s din ch :=
  foldl_range_mul (fun acc y x => fadd acc (dequantize (sample s.mem din y x ch) din.scale din.zp)) _ _ _

theorem gapMean_eq (s : State) (din : TensorDesc) (ch : Nat) : gapMean s.mem din ch = Ref.gapMean s din ch := by
  rw [gapMean, gapSum_eq, Ref.gapMean]

/-- Settles O38: the running sum starts at +0 and every term is finite, so it is no NaN, and neither is its quotient
by a number of positions. -/
theorem gapMeanIsNoNan : Obligations.GapMeanIsNoNan := by
  intro s din ch hscale hzp h0 hn
  have hterm (q : Byte) : Ref.finite (dequantize q din.scale din.zp) :=
    finite_dequantize q hzp ⟨hscale.1, hscale.2.trans (by decide)⟩
  have hsum : ¬ Ref.nan (gapSum s.mem din ch) :=
    List.foldlRecOn (motive := fun acc => ¬ Ref.nan acc) _ _ (by unfold Ref.nan; decide)
      fun _ hacc _ _ => not_nan_fadd hacc (hterm _)
  rwa [← gapMean_eq, gapMean, nan_fdiv_iff (legalScale_i2f h0 hn)]

/-! ### The preconditions -/

variable {s : State} {o : TensorOperands} {din dout : TensorDesc}

theorem tensorsLegal_iff : Ref.tensorsLegal din dout ↔
    (f32FinitePositive din.scale = true ∧ legalZp din.zp = true) ∧
    (f32FinitePositive dout.scale = true ∧ legalZp dout.zp = true) := by
  simp only [f32FinitePositive_iff, legalZp_iff, Ref.tensorsLegal]
  tauto

/-- The output of a `GAP` is apart from the command and the descriptors, and from the input data or exactly on it
(R68, R182). -/
def gapApart (s : State) (o : TensorOperands) (din dout : TensorDesc) : Prop :=
  Ref.commonApart s o dout ∧ (dout.data = din.data ∨ Ref.apart dout.data dout.size din.data din.size)

theorem gapApart_iff : gapApart s o din dout ↔
    ∀ r ∈ s.commonReads o.input o.output ++ gapDataReads ⟨din, dout⟩, dout.region.disjoint r = true := by
  by_cases hdata : dout.data = din.data <;>
    simp [gapApart, Ref.commonApart, hdata, State.commonReads, gapDataReads, TensorDesc.region,
      region_disjoint_iff, and_assoc]

/-- What the preconditions of a `GAP` come to: illegal parameters stop it before the overlap rule does. -/
theorem gapPreconditions_cases (s : State) (o : TensorOperands) (din dout : TensorDesc) :
    (Ref.tensorsLegal din dout ∧ gapApart s o din dout ∧ gapPreconditions s o ⟨din, dout⟩ = .ok ()) ∨
    (Ref.tensorsLegal din dout ∧ ¬ gapApart s o din dout ∧
      gapPreconditions s o ⟨din, dout⟩ = .error (.refuse .regionOverlap)) ∨
    (¬ Ref.tensorsLegal din dout ∧ (gapPreconditions s o ⟨din, dout⟩ = .error (.refuse .illegalScale) ∨
      gapPreconditions s o ⟨din, dout⟩ = .error (.refuse .illegalZeroPoint))) := by
  rw [tensorsLegal_iff, gapApart_iff]
  cases hr : gapPreconditions s o ⟨din, dout⟩ with
  | ok _ =>
    obtain ⟨hin, hout, hapart⟩ := gapPreconditions_ok_iff.1 hr
    exact .inl ⟨⟨hin, hout⟩, hapart, rfl⟩
  | error x =>
    simp only [gapPreconditions, bind_error_iff, legalParams_ok_iff] at hr
    obtain h | ⟨-, hin, h | ⟨-, hout, h⟩⟩ := hr
    · obtain ⟨hbad, hx⟩ := legalParams_error_cases h
      exact .inr (.inr ⟨fun ⟨hgood, _⟩ => hbad hgood, hx.imp (congrArg _) (congrArg _)⟩)
    · obtain ⟨hbad, hx⟩ := legalParams_error_cases h
      exact .inr (.inr ⟨fun ⟨_, hgood⟩ => hbad hgood, hx.imp (congrArg _) (congrArg _)⟩)
    · have hover : ¬ ∀ r ∈ s.commonReads o.input o.output ++ gapDataReads ⟨din, dout⟩,
          dout.region.disjoint r = true := fun hapart => by
        cases h.symm.trans (noOverlap_ok_iff (u := ()).2 hapart)
      exact .inr (.inl ⟨⟨hin, hout⟩, hover, congrArg _ (noOverlap_error h)⟩)

/-! ### The checks -/

theorem exec_gap (s : State) (o : TensorOperands) : exec (.gap o) s = s.conclude (gapResult s o) := rfl

theorem exec_gap_of_error {e : EngineError} (h : gapChecks s o = .error (.error e)) :
    exec (.gap o) s = .next (raise e s) := by
  rw [exec_gap, gapResult, h, error_bind, conclude_error]

theorem gapPasses_iff : Ref.gapPasses s o din dout ↔ gapChecks s o = .ok ⟨din, dout⟩ :=
  (gapChecks_ok_iff (p := ⟨din, dout⟩)).symm

/-- Past the two reads a shape that fails R176 raises `InvalidDimensions`. -/
theorem gapChecks_of_reads (hin : readDesc s o.input = .ok din) (hout : readDesc s o.output = .ok dout)
    (hfails : ¬ Ref.gapPasses s o din dout) : gapChecks s o = .error (.error .invalidDimensions) := by
  have hshape : (dout.height == 1 && dout.width == 1 && dout.channels == din.channels) = false := by
    simpa [Ref.gapPasses, hin, hout] using hfails
  rw [gapChecks, hin, ok_bind, hout, ok_bind, hshape, require_false, error_bind]

/-! ### The bytes -/

/-- The byte stored without a clamp is the requantized code. -/
theorem requantize_of_outputCode {real scale : F32} {zp : ℤ} {b : Byte} (h : outputCode false real scale zp = .ok b) :
    requantize real scale zp = .ok (b.toNat : ℤ) := by
  obtain ⟨q, hq, rfl⟩ := outputCode_ok_iff.1 h
  rw [if_neg Bool.false_ne_true, byteOfCode_toNat (requantize_range hq), hq]

theorem gapBytes_channel {bs : List Byte} (h : gapBytes s.mem ⟨din, dout⟩ = .ok bs) (ch : ℕ) (hch : ch < bs.length) :
    requantize (Ref.gapMean s din ch) dout.scale dout.zp = .ok (bs[ch].toNat : ℤ) := by
  obtain ⟨hlen, hcodes⟩ := collect_ok h
  have hcode := hcodes ch (hlen ▸ hch) hch
  rw [List.getElem_range, gapMean_eq] at hcode
  exact requantize_of_outputCode hcode

/-- The bytes of a `GAP` stop only on a mean whose quotient is a NaN. -/
theorem gapBytes_error_cases {x : Stop} (h : gapBytes s.mem ⟨din, dout⟩ = .error x) :
    (∃ ch < din.channels, Ref.nan (fdiv (Ref.gapMean s din ch) dout.scale)) ∧ x = .refuse .nanToRequantize := by
  obtain ⟨ch, hch, hcode⟩ := collect_error h
  obtain ⟨hnan, hx⟩ := outputCode_error hcode
  rw [f32IsNaN_iff, gapMean_eq] at hnan
  exact ⟨⟨ch, List.mem_range.1 hch, hnan⟩, hx⟩

/-! ### Past the checks -/

section Passes

variable (hpasses : Ref.gapPasses s o din dout)
include hpasses

/-- A `GAP` that passes its checks is concluded from its preconditions and its bytes. -/
theorem exec_gap_of_passes : exec (.gap o) s = s.conclude (do
    gapPreconditions s o ⟨din, dout⟩
    let bytes ← gapBytes s.mem ⟨din, dout⟩
    pure (s.store dout.data bytes).advance) := by
  rw [exec_gap, gapResult, gapPasses_iff.1 hpasses, ok_bind]

theorem exec_gap_of_preconditions_error {q : Refusal} (h : gapPreconditions s o ⟨din, dout⟩ = .error (.refuse q)) :
    exec (.gap o) s = .refused q := by
  rw [exec_gap_of_passes hpasses, h, error_bind, conclude_refuse]

/-- A legal `GAP` is concluded from its bytes. -/
theorem exec_gap_of_bytes (hlegal : Ref.tensorsLegal din dout) (hapart : gapApart s o din dout) :
    exec (.gap o) s = s.conclude (do
      let bytes ← gapBytes s.mem ⟨din, dout⟩
      pure (s.store dout.data bytes).advance) := by
  obtain ⟨-, -, hpre⟩ | ⟨-, hover, -⟩ | ⟨hillegal, -⟩ := gapPreconditions_cases s o din dout
  · rw [exec_gap_of_passes hpasses, hpre, ok_bind]
  · exact absurd hapart hover
  · exact absurd hlegal hillegal

/-- The only next state of a `GAP` that passes its checks is the store of its bytes. -/
theorem exec_gap_next {t : State} (h : exec (.gap o) s = .next t) :
    ∃ bs, gapBytes s.mem ⟨din, dout⟩ = .ok bs ∧ t = (s.store dout.data bs).advance := by
  rw [exec_gap_of_passes hpasses] at h
  obtain hok | ⟨e, herror, -⟩ := conclude_next h
  · simp only [bind_ok_iff, pure_eq_ok, Except.ok.injEq] at hok
    obtain ⟨-, -, bs, hbytes, rfl⟩ := hok
    exact ⟨bs, hbytes, rfl⟩
  · simp only [bind_error_iff, pure_eq_ok] at herror
    obtain hpre | ⟨-, -, hbytes | ⟨_, _, hpure⟩⟩ := herror
    · obtain ⟨q, hq⟩ := gapPreconditions_error hpre
      cases hq
    · cases (gapBytes_error_cases hbytes).2
    · cases hpure

/-- The output data of a `GAP` that passes its checks lies in memory, a byte for each channel. -/
theorem gapPasses_output_in_memory : dout.data + din.channels ≤ s.memBytes := by
  obtain ⟨-, hout, hheight, hwidth, hchannels⟩ := hpasses
  obtain ⟨-, -, hin, rfl⟩ := readDesc_ok_iff.1 hout
  rwa [size_of_one_position hheight hwidth, hchannels] at hin

end Passes

/-- Settles O36: each read is the first thing that can stop, the shape is the third, and past the checks a next state
has another `CMD_PTR` than error entry. -/
theorem gapErrors : Obligations.GapErrors := by
  intro s o
  refine ⟨fun x h => ?_, fun din hin => ⟨fun x h => ?_, fun dout hout => ⟨fun hshape => ?_, ?_⟩⟩⟩
  · cases readDesc_error h
    exact exec_gap_of_error (by rw [gapChecks, h, error_bind])
  · cases readDesc_error h
    exact exec_gap_of_error (by rw [gapChecks, hin, ok_bind, h, error_bind])
  · refine exec_gap_of_error (gapChecks_of_reads hin hout ?_)
    rintro ⟨-, -, hheight, hwidth, hchannels⟩
    obtain hne | hne | hne := hshape
    · exact hne hheight
    · exact hne hwidth
    · exact hne hchannels
  · intro hheight hwidth hchannels e h
    obtain ⟨bs, -, ht⟩ := exec_gap_next ⟨hin, hout, hheight, hwidth, hchannels⟩ h
    exact advance_cmdPtr_ne _ (congrArg State.cmdPtr ht).symm

/-- Settles O37: the first two clauses are the preconditions; with a NaN among the means the bytes cannot all be
computed, and only a NaN stops them. -/
theorem gapRefusals : Obligations.GapRefusals := by
  intro s o din dout hpasses
  refine ⟨fun hillegal => ?_, fun hlegal hoverlap => ?_, ?_⟩
  · obtain ⟨hlegal, -⟩ | ⟨hlegal, -⟩ | ⟨-, hpre⟩ := gapPreconditions_cases s o din dout
    · exact absurd hlegal hillegal
    · exact absurd hlegal hillegal
    · exact hpre.imp (exec_gap_of_preconditions_error hpasses) (exec_gap_of_preconditions_error hpasses)
  · obtain ⟨-, hapart, -⟩ | ⟨-, -, hpre⟩ | ⟨hillegal, -⟩ := gapPreconditions_cases s o din dout
    · exact absurd hapart hoverlap
    · exact exec_gap_of_preconditions_error hpasses hpre
    · exact absurd hlegal hillegal
  · rintro hlegal hcommon hdata ⟨ch, hch, hnan⟩
    rw [exec_gap_of_bytes hpasses hlegal ⟨hcommon, hdata⟩]
    cases hbytes : gapBytes s.mem ⟨din, dout⟩ with
    | ok bs =>
      have hcode := gapBytes_channel hbytes ch (hch.trans_eq (gapBytes_length hbytes).symm)
      cases (requantize_of_nan (nan_fdiv_of_nan hnan)).symm.trans hcode
    | error x => rw [(gapBytes_error_cases hbytes).2, error_bind, conclude_refuse]

/-- Settles O35: every byte can be computed, and the store of them all is the only effect beside the pointer. (The
machine has a `gapResult` of its own.) -/
theorem Gap.gapResult : Obligations.GapResult := by
  intro s o din dout hwf hpasses hlegal hcommon hdata hmeans
  have ⟨_, hscale, _⟩ := hlegal
  obtain ⟨bs, hbytes⟩ : ∃ bs, gapBytes s.mem ⟨din, dout⟩ = .ok bs := by
    cases hbytes : gapBytes s.mem ⟨din, dout⟩ with
    | ok bs => exact ⟨bs, rfl⟩
    | error x =>
      obtain ⟨⟨ch, hch, hnan⟩, -⟩ := gapBytes_error_cases hbytes
      exact absurd ((nan_fdiv_iff hscale).1 hnan) (hmeans ch hch)
  have hlen : bs.length = din.channels := gapBytes_length hbytes
  have hin : dout.data + bs.length ≤ s.memBytes := hlen ▸ gapPasses_output_in_memory hpasses
  refine ⟨(s.store dout.data bs).advance, ?_, rfl, ⟨rfl, rfl, rfl⟩, ⟨rfl, rfl, rfl, rfl⟩, ⟨rfl, rfl, rfl⟩, ?_⟩
  · rw [exec_gap_of_bytes hpasses hlegal ⟨hcommon, hdata⟩, hbytes, ok_bind, pure_eq_ok, conclude_ok]
  rw [← hlen]
  refine ⟨fun a ha => readByte_writeBytes_outside hwf hin ha, fun ch hch => ?_⟩
  rw [advance_mem, store_mem, readByte_writeBytes_inside hwf hin hch]
  exact gapBytes_channel hbytes ch hch

/-! ### The loop in place -/

theorem writeBytes_append (bs cs : List Byte) : ∀ (mem : List Host.Cell) (a : ℕ),
    writeBytes mem a (bs ++ cs) = writeBytes (writeBytes mem a bs) (a + bs.length) cs := by
  induction bs with
  | nil => intro mem a; rfl
  | cons b bs ih =>
    intro mem a
    rw [List.cons_append, writeBytes, writeBytes, ih, List.length_cons, Nat.add_assoc, Nat.add_comm 1]

/-- The mean of a channel reads no byte below the channel's first sample. -/
theorem gapMean_congr {mem : List Host.Cell} {ch : ℕ}
    (h : ∀ a, din.data + ch ≤ a → readByte mem a = readByte s.mem a) :
    Ref.gapMean { s with mem := mem } din ch = Ref.gapMean s din ch := by
  have hread (k : ℕ) : readByte mem (din.data + k + ch) = readByte s.mem (din.data + k + ch) := h _ (by omega)
  simp only [Ref.gapMean, Ref.gapSum, hread]

/-- After `ch` channels the loop has stored the first `ch` bytes: the channels before stored below the first sample
of this one. -/
theorem gapLoop_eq_writeBytes {bs : List Byte} (hwf : Memory.wf s.memBytes s.mem = true)
    (hin : dout.data + bs.length ≤ s.memBytes) (hdata : dout.data = din.data)
    (hbytes : gapBytes s.mem ⟨din, dout⟩ = .ok bs) :
    ∀ ch ≤ bs.length, Ref.gapLoop s din dout ch = some (writeBytes s.mem dout.data (bs.take ch))
  | 0, _ => rfl
  | ch + 1, hch => by
    have hlen : (bs.take ch).length = ch := List.length_take_of_le (by omega)
    have hmean : Ref.gapMean { s with mem := writeBytes s.mem dout.data (bs.take ch) } din ch =
        Ref.gapMean s din ch :=
      gapMean_congr fun a ha => readByte_writeBytes_outside hwf (by omega) (by omega)
    simp only [Ref.gapLoop, gapLoop_eq_writeBytes hwf hin hdata hbytes ch (by omega), hmean,
      gapBytes_channel hbytes ch hch, BitVec.ofInt_natCast, BitVec.ofNat_toNat, BitVec.setWidth_eq]
    rw [List.take_succ_eq_append_getElem hch, writeBytes_append, hlen, writeBytes, writeBytes]

/-- Settles O39: `GAP` stores all its bytes at once, the loop one after the other. -/
theorem gapInPlaceLoop : Obligations.GapInPlaceLoop := by
  intro s t o din dout hwf hpasses _ _ hdata h
  obtain ⟨bs, hbytes, rfl⟩ := exec_gap_next hpasses h
  have hlen : bs.length = din.channels := gapBytes_length hbytes
  have hin : dout.data + bs.length ≤ s.memBytes := hlen ▸ gapPasses_output_in_memory hpasses
  rw [← hlen, gapLoop_eq_writeBytes hwf hin hdata hbytes _ le_rfl, List.take_length]
  rfl

end Sys2Proof.Machine
end

section
/-! PROOFS. The softmax probabilities are neither NaN nor negative: sums and quotients of values from +0 to +infinity,
and the exponentials of differences to the maximum (spec/45_softmax.md R195, R196). -/

namespace Sys2Proof.Machine

/-! ### Values from +0 to +infinity -/

/-- From +0 to +infinity: no sign bit and no NaN. -/
def NotNegative (x : F32) : Prop := f32Neg x = false ∧ f32Mag x ≤ infMag

theorem notNegative_pack {m : ℕ} (h : m ≤ infMag) : NotNegative (f32Pack false m) :=
  ⟨f32Neg_pack (h.trans_lt infMag_lt), (f32Mag_pack (h.trans_lt infMag_lt)).trans_le h⟩

theorem NotNegative.eq_pack {x : F32} (h : NotNegative x) : x = f32Pack false (f32Mag x) := by
  rw [← h.1, f32Pack_fields]

theorem NotNegative.not_nan {x : F32} (h : NotNegative x) : ¬ Ref.nan x := by
  rw [nan_iff]
  exact h.2.not_gt

/-- A value that is not negative is finite or +infinity. -/
theorem NotNegative.finite_or_inf {x : F32} (h : NotNegative x) : Ref.finite x ∨ x = f32Pack false infMag := by
  rw [finite_iff]
  exact h.2.lt_or_eq.imp_right fun hinf => h.eq_pack.trans (congrArg _ hinf)

/-- Rounding passes no magnitude downwards. -/
theorem le_roundUnits {m num : ℕ} (hm : m ≤ infMag) (h : magUnits m ≤ num) : m ≤ roundUnits num 1 := by
  rw [roundUnits_eq]
  refine le_min (not_lt.1 fun hlt => ?_) hm
  have hbelow : (magUnits (nearestMag num 1) : ℚ) < magUnits m := by exact_mod_cast magUnits_strictMono hlt
  have hle : (magUnits m : ℚ) ≤ num := by exact_mod_cast h
  obtain ⟨hnear, -⟩ := nearestMag_nearest num one_pos m
  rw [Nat.cast_one, div_one, abs_of_nonneg (by linarith), abs_of_nonneg (by linarith)] at hnear
  linarith

theorem fadd_pack {m n : ℕ} (hm : m < infMag) (hn : n < infMag) :
    fadd (f32Pack false m) (f32Pack false n) = f32Pack false (roundUnits (magUnits m + magUnits n) 1) := by
  have hunits {k : ℕ} (hk : k < infMag) : f32Units (f32Pack false k) = magUnits k := by
    rw [f32Units, f32Neg_pack (hk.trans infMag_lt), f32Mag_pack (hk.trans infMag_lt)]
    rfl
  have hfinite {k : ℕ} (hk : k < infMag) : Ref.finite (f32Pack false k) := by
    rwa [finite_iff, f32Mag_pack (hk.trans infMag_lt)]
  rw [fadd_of_finite (hfinite hm) (hfinite hn), hunits hm, hunits hn, ← Nat.cast_add,
    f32Neg_pack (hm.trans infMag_lt)]
  split
  · rename_i h0
    rw [Int.natCast_eq_zero.1 h0, roundUnits_zero]
    rfl
  · rw [f32OfUnits, Int.natAbs_natCast, decide_eq_false (Int.natCast_nonneg _).not_gt]

/-- A sum is not below either of its terms. -/
theorem NotNegative.fadd {a b : F32} (ha : NotNegative a) (hb : NotNegative b) (hfin : Ref.finite b) :
    NotNegative (fadd a b) ∧ f32Mag a ≤ f32Mag (fadd a b) ∧ f32Mag b ≤ f32Mag (fadd a b) := by
  obtain hafin | rfl := ha.finite_or_inf
  · have hle := roundUnits_le (magUnits (f32Mag a) + magUnits (f32Mag b)) 1
    have hsum := fadd_pack (finite_iff.1 hafin) (finite_iff.1 hfin)
    rw [← ha.eq_pack, ← hb.eq_pack] at hsum
    rw [hsum, f32Mag_pack (hle.trans_lt infMag_lt)]
    exact ⟨notNegative_pack hle, le_roundUnits ha.2 (Nat.le_add_right _ _), le_roundUnits hb.2 (Nat.le_add_left _ _)⟩
  · rw [fadd_inf_finite hfin, f32Mag_inf]
    exact ⟨ha, le_rfl, hb.2⟩

/-- A running sum is not below its start or any of its terms. -/
theorem NotNegative.foldl_fadd : ∀ {es : List F32} {acc : F32}, NotNegative acc →
    (∀ e ∈ es, NotNegative e ∧ Ref.finite e) →
    NotNegative (es.foldl Machine.fadd acc) ∧ f32Mag acc ≤ f32Mag (es.foldl Machine.fadd acc) ∧
      ∀ e ∈ es, f32Mag e ≤ f32Mag (es.foldl Machine.fadd acc)
  | [], _, hacc, _ => ⟨hacc, le_rfl, nofun⟩
  | e :: es, acc, hacc, hes => by
    obtain ⟨⟨he, hfin⟩, hrest⟩ := List.forall_mem_cons.1 hes
    obtain ⟨hsum, haccle, hele⟩ := hacc.fadd he hfin
    obtain ⟨hall, hsumle, hesle⟩ := NotNegative.foldl_fadd hsum hrest
    exact ⟨hall, haccle.trans hsumle, List.forall_mem_cons.2 ⟨hele.trans hsumle, hesle⟩⟩

/-- A quotient of values that are not negative is one, unless both are +infinity or the divisor is 0. -/
theorem NotNegative.fdiv {a b : F32} (ha : NotNegative a) (hb : NotNegative b) (h0 : f32Mag b ≠ 0)
    (hfin : Ref.finite a ∨ Ref.finite b) : NotNegative (fdiv a b) := by
  by_cases hbfin : Ref.finite b
  · obtain hafin | rfl := ha.finite_or_inf
    · rw [fdiv_of_finite hafin hbfin h0, ha.1, hb.1]
      exact notNegative_pack (roundUnits_le _ _)
    · rw [fdiv_inf_finite hbfin, hb.1]
      exact notNegative_pack le_rfl
  · rw [hb.finite_or_inf.resolve_left hbfin, fdiv_finite_inf (hfin.resolve_right hbfin), ha.1]
    exact notNegative_pack (Nat.zero_le _)

theorem notNegative_of_legalScale {x : F32} (h : Ref.legalScale x) : NotNegative x ∧ Ref.finite x ∧ f32Mag x ≠ 0 := by
  obtain ⟨hfin, hneg, hpos⟩ := legalScale_spec h
  exact ⟨⟨hneg, (finite_iff.1 hfin).le⟩, hfin, value_eq_zero.not.1 hpos.ne'⟩

/-- The code of a value that is not negative is not below the zero-point. -/
theorem zp_le_of_requantize {real scale : F32} {zp q : ℤ} (hreal : NotNegative real) (hs : Ref.legalScale scale)
    (hz : Ref.legalZp zp) (h : requantize real scale zp = .ok q) : zp ≤ q := by
  obtain ⟨hscale, hfin, h0⟩ := notNegative_of_legalScale hs
  obtain ⟨hz0, hz255⟩ := hz
  have hquot := hreal.fdiv hscale h0 (.inr hfin)
  obtain hqfin | hinf := hquot.finite_or_inf
  · have hrnd : 0 ≤ rnd (Machine.fdiv real scale) := by
      rw [rnd, hquot.1]
      exact Int.natCast_nonneg _
    rw [requantize_of_finite hqfin, Except.ok.injEq] at h
    subst h
    simp only [clamp]
    split_ifs <;> omega
  · rw [requantize_of_inf hinf] at h
    cases h
    exact hz255

/-! ### The exponentials -/

section Exponentials

variable {x m : F32} (hx : Ref.finite x) (hm : Ref.finite m)
include hx hm

/-- A difference to a value that is not lower lies where R16 determines the exponential, even when it overflows. -/
theorem exp32_fsub (hle : Ref.value x ≤ Ref.value m) :
    exp32 (fsub x m) = f32Pack false (expMag (f32Mag (fsub x m))) := by
  have hround := roundsTo_fsub hx hm
  have hmag : f32Mag (fsub x m) ≤ infMag := not_lt.1 (nan_iff.not.1 (not_nan_of_roundsTo hround))
  obtain ⟨-, -, hsign⟩ := hround
  refine exp32_eq ?_
  obtain heq | hlt := hle.eq_or_lt
  · left
    rw [fsub_exact_zero hx hm (sub_eq_zero.2 heq), f32Mag_zero]
  · right
    rw [← msb_eq_f32Neg, hsign (sub_neg.2 hlt).ne, decide_eq_true (sub_neg.2 hlt)]
    exact ⟨rfl, hmag⟩

theorem notNegative_exp32_fsub (hle : Ref.value x ≤ Ref.value m) :
    NotNegative (exp32 (fsub x m)) ∧ Ref.finite (exp32 (fsub x m)) := by
  have hlt : expMag (f32Mag (fsub x m)) < infMag := (expMag_le_oneMag _).trans_lt oneMag_lt_infMag
  rw [exp32_fsub hx hm hle, finite_iff, f32Mag_pack (hlt.trans infMag_lt)]
  exact ⟨notNegative_pack hlt.le, hlt⟩

end Exponentials

/-- The exponential at the maximum is 1.0. -/
theorem f32Mag_exp32_fsub_self {m : F32} (hm : Ref.finite m) : f32Mag (exp32 (fsub m m)) = oneMag := by
  have hzero : f32Mag (fsub m m) = 0 := by rw [fsub_exact_zero hm hm (sub_self _), f32Mag_zero]
  have hone : expMag 0 = oneMag := monotoneFill_of_le _ _ _ _ _ le_rfl
  rw [exp32_fsub hm hm le_rfl, hzero, hone, f32Mag_pack (oneMag_lt_infMag.trans infMag_lt)]

/-! ### The probabilities -/

/-- The sum of R196 over the inputs `x 0` to `x (n - 1)` with maximum `m`. -/
def expSum (x : ℕ → F32) (n : ℕ) (m : F32) : F32 :=
  ((List.range n).map fun j => exp32 (fsub (x j) m)).foldl fadd 0#32

/-- `m` is one of the finite inputs `x 0` to `x (n - 1)`, and none is greater (R194). -/
structure IsMaximum (x : ℕ → F32) (n : ℕ) (m : F32) : Prop where
  finite : ∀ i < n, Ref.finite (x i)
  mem : ∃ i < n, m = x i
  value_le : ∀ i < n, Ref.value (x i) ≤ Ref.value m

section Probabilities

variable {x : ℕ → F32} {n : ℕ} {m : F32} (h : IsMaximum x n m)
include h

theorem IsMaximum.finite_maximum : Ref.finite m := by
  obtain ⟨i, hi, rfl⟩ := h.mem
  exact h.finite i hi

/-- The sum holds the 1.0 of the maximum, so it is not 0. -/
theorem IsMaximum.expSum_spec : NotNegative (expSum x n m) ∧ f32Mag (expSum x n m) ≠ 0 := by
  have hterms : ∀ e ∈ (List.range n).map fun j => exp32 (fsub (x j) m), NotNegative e ∧ Ref.finite e := by
    rw [List.forall_mem_map]
    intro j hj
    have hjn := List.mem_range.1 hj
    exact notNegative_exp32_fsub (h.finite j hjn) h.finite_maximum (h.value_le j hjn)
  obtain ⟨hsum, -, hle⟩ := NotNegative.foldl_fadd (acc := 0#32) (notNegative_pack (Nat.zero_le _)) hterms
  obtain ⟨k, hk, hmax⟩ := h.mem
  have hone := f32Mag_exp32_fsub_self h.finite_maximum
  have hkle := hle _ (List.mem_map.2 ⟨k, List.mem_range.2 hk, rfl⟩)
  rw [← hmax, hone] at hkle
  exact ⟨hsum, (lt_of_lt_of_le (by decide) hkle).ne'⟩

/-- No probability is negative or a NaN. -/
theorem IsMaximum.notNegative_probability {i : ℕ} (hi : i < n) :
    NotNegative (fdiv (exp32 (fsub (x i) m)) (expSum x n m)) := by
  obtain ⟨hexp, hfin⟩ := notNegative_exp32_fsub (h.finite i hi) h.finite_maximum (h.value_le i hi)
  obtain ⟨hsum, h0⟩ := h.expSum_spec
  exact hexp.fdiv hsum h0 (.inl hfin)

end Probabilities

/-! ### The maximum -/

/-- On finite values the machine's comparison is that of the values. -/
theorem fgt_iff_value_lt {a b : F32} (ha : Ref.finite a) (hb : Ref.finite b) :
    fgt a b = true ↔ Ref.value b < Ref.value a := by
  have hkey : f32Key b < f32Key a ↔ f32Units b < f32Units a := by
    have hlt := magUnits_strictMono.lt_iff_lt (a := f32Mag a) (b := f32Mag b)
    have hgt := magUnits_strictMono.lt_iff_lt (a := f32Mag b) (b := f32Mag a)
    have ha0 := @magUnits_eq_zero (f32Mag a)
    have hb0 := @magUnits_eq_zero (f32Mag b)
    simp only [f32Key, f32Units]
    split_ifs <;> omega
  rw [value_eq_units, value_eq_units, div_lt_div_iff_of_pos_right unitsOfOne_cast_pos, Int.cast_lt, ← hkey]
  simp [fgt, f32IsNaN_of_finite, ha, hb]

theorem softmaxMax_cons_cons (a x : F32) (xs : List F32) :
    softmaxMax (a :: x :: xs) = softmaxMax ((if fgt x a then x else a) :: xs) := rfl

/-- The running maximum ends at one of the values, and none is greater. -/
theorem softmaxMax_spec : ∀ {xs : List F32} {a : F32}, Ref.finite a → (∀ x ∈ xs, Ref.finite x) →
    softmaxMax (a :: xs) ∈ a :: xs ∧ ∀ x ∈ a :: xs, Ref.value x ≤ Ref.value (softmaxMax (a :: xs))
  | [], _, _, _ => ⟨.head _, List.forall_mem_singleton.2 le_rfl⟩
  | x :: xs, a, ha, hxs => by
    obtain ⟨hx, hrest⟩ := List.forall_mem_cons.1 hxs
    rw [softmaxMax_cons_cons]
    by_cases hgt : fgt x a = true
    · obtain ⟨hmem, hle⟩ := softmaxMax_spec hx hrest
      have hax := ((fgt_iff_value_lt hx ha).1 hgt).le
      rw [if_pos hgt]
      exact ⟨.tail _ hmem, List.forall_mem_cons.2 ⟨hax.trans (hle x (.head _)), hle⟩⟩
    · obtain ⟨hmem, hle⟩ := softmaxMax_spec ha hrest
      obtain ⟨hale, hxsle⟩ := List.forall_mem_cons.1 hle
      have hxa := not_lt.1 ((fgt_iff_value_lt hx ha).not.1 hgt)
      rw [if_neg hgt]
      exact ⟨List.cons_subset_cons _ (List.subset_cons_self _ _) hmem,
        List.forall_mem_cons.2 ⟨hale, List.forall_mem_cons.2 ⟨hxa.trans hale, hxsle⟩⟩⟩

theorem isMaximum_softmaxMax {x : ℕ → F32} {n : ℕ} (h0 : 0 < n) (hfin : ∀ i < n, Ref.finite (x i)) :
    IsMaximum x n (softmaxMax ((List.range n).map x)) := by
  obtain ⟨k, rfl⟩ := Nat.exists_eq_add_one.2 h0
  have hmax : softmaxMax ((List.range (k + 1)).map x) ∈ (List.range (k + 1)).map x ∧
      ∀ y ∈ (List.range (k + 1)).map x, Ref.value y ≤ Ref.value (softmaxMax ((List.range (k + 1)).map x)) := by
    rw [List.range_succ_eq_map, List.map_cons]
    refine softmaxMax_spec (hfin 0 h0) ?_
    simp only [List.map_map, List.forall_mem_map, List.mem_range]
    exact fun i hi => hfin (i + 1) (by omega)
  obtain ⟨hmem, hle⟩ := hmax
  obtain ⟨i, hi, hxi⟩ := List.mem_map.1 hmem
  exact ⟨hfin, ⟨i, List.mem_range.1 hi, hxi.symm⟩, fun j hj => hle _ (List.mem_map_of_mem (List.mem_range.2 hj))⟩

end Sys2Proof.Machine
end

section
/-! PROOFS. `SOFTMAX`: its errors, its refusals, its result and the lower bound of its codes (spec/45_softmax.md R191
to R199). -/

namespace Sys2Proof.Machine

variable {s : State} {o : TensorOperands} {din dout : TensorDesc}

/-! ### The checks -/

theorem exec_softmax (s : State) (o : TensorOperands) : exec (.softmax o) s = s.conclude (softmaxResult s o) := rfl

theorem exec_softmax_of_error {e : EngineError} (h : softmaxChecks s o = .error (.error e)) :
    exec (.softmax o) s = .next (raise e s) := by
  rw [exec_softmax, softmaxResult, h, error_bind, conclude_error]

theorem softmaxPasses_iff : Ref.softmaxPasses s o din dout ↔ softmaxChecks s o = .ok ⟨din, dout⟩ := by
  rw [softmaxChecks_ok_iff, Ref.softmaxPasses, Config.softmaxCMax]
  tauto

/-- Past the two reads the shapes are tested before the channel limit. -/
theorem softmaxChecks_of_reads (hin : readDesc s o.input = .ok din) (hout : readDesc s o.output = .ok dout) :
    softmaxChecks s o =
      if din.height = 1 ∧ din.width = 1 ∧ dout.height = 1 ∧ dout.width = 1 ∧ dout.channels = din.channels then
        if din.channels ≤ 2048 then .ok ⟨din, dout⟩ else .error (.error .channelLimitExceeded)
      else .error (.error .invalidDimensions) := by
  rw [softmaxChecks, hin, ok_bind, hout, ok_bind]
  by_cases hinput : din.height = 1 ∧ din.width = 1
  · by_cases houtput : dout.height = 1 ∧ dout.width = 1 ∧ dout.channels = din.channels
    · by_cases hlimit : din.channels ≤ 2048 <;> simp [hinput, houtput, hlimit, Config.softmaxCMax]
    · have hfails : (dout.height == 1 && dout.width == 1 && dout.channels == din.channels) = false := by
        simpa using houtput
      simp [hinput, houtput, hfails]
  · have hfails : (din.height == 1 && din.width == 1) = false := by simpa using hinput
    rw [hfails, require_false, error_bind, if_neg fun h => hinput ⟨h.1, h.2.1⟩]

/-- Settles O41: each read is the first thing that can stop, the shapes come next and the channel limit last. -/
theorem softmaxErrors : Obligations.SoftmaxErrors := by
  intro s o
  refine ⟨fun x h => ?_, fun din hin => ⟨fun x h => ?_, fun dout hout => ⟨fun hshape => ?_, ?_⟩⟩⟩
  · cases readDesc_error h
    exact exec_softmax_of_error (by rw [softmaxChecks, h, error_bind])
  · cases readDesc_error h
    exact exec_softmax_of_error (by rw [softmaxChecks, hin, ok_bind, h, error_bind])
  · refine exec_softmax_of_error ?_
    rw [softmaxChecks_of_reads hin hout, if_neg (by tauto)]
  · intro hinh hinw houth houtw hchannels hlimit
    refine exec_softmax_of_error ?_
    rw [softmaxChecks_of_reads hin hout, if_pos ⟨hinh, hinw, houth, houtw, hchannels⟩, if_neg hlimit.not_ge]

/-! ### The preconditions -/

theorem noOverlap_append (w : Region) (rs rs' : List Region) :
    noOverlap w (rs ++ rs') = (do noOverlap w rs; noOverlap w rs') := by
  rw [noOverlap, noOverlap, noOverlap, List.all_append]
  cases rs.all (w.disjoint ·) <;> rfl

/-- The preconditions of a `SOFTMAX` are those of a `GAP`, and that it is not in place (R68, R192). -/
theorem softmaxPreconditions_eq (s : State) (o : TensorOperands) (p : TensorPlan) :
    softmaxPreconditions s o p = (do
      gapPreconditions s o p
      noOverlap p.dout.region [p.din.region]) := by
  have hreads : (do noOverlap p.dout.region (gapDataReads p); noOverlap p.dout.region [p.din.region]) =
      noOverlap p.dout.region [p.din.region] := by
    rw [gapDataReads]
    split
    · rfl
    · cases noOverlap p.dout.region [p.din.region] <;> rfl
  simp only [softmaxPreconditions, gapPreconditions, noOverlap_append, bind_assoc, hreads]

/-- The output of a `SOFTMAX` is apart from the command, the descriptors and the input data (R68, R192). -/
def softmaxApart (s : State) (o : TensorOperands) (din dout : TensorDesc) : Prop :=
  Ref.commonApart s o dout ∧ Ref.apart dout.data dout.size din.data din.size

/-- What the preconditions of a `SOFTMAX` come to: illegal parameters stop it before the overlap rule does. -/
theorem softmaxPreconditions_cases (s : State) (o : TensorOperands) (din dout : TensorDesc) :
    (Ref.tensorsLegal din dout ∧ softmaxApart s o din dout ∧ softmaxPreconditions s o ⟨din, dout⟩ = .ok ()) ∨
    (Ref.tensorsLegal din dout ∧ ¬ softmaxApart s o din dout ∧
      softmaxPreconditions s o ⟨din, dout⟩ = .error (.refuse .regionOverlap)) ∨
    (¬ Ref.tensorsLegal din dout ∧ (softmaxPreconditions s o ⟨din, dout⟩ = .error (.refuse .illegalScale) ∨
      softmaxPreconditions s o ⟨din, dout⟩ = .error (.refuse .illegalZeroPoint))) := by
  rw [softmaxPreconditions_eq]
  obtain ⟨hlegal, ⟨hcommon, -⟩, hpre⟩ | ⟨hlegal, hover, hpre⟩ | ⟨hillegal, hpre⟩ :=
    gapPreconditions_cases s o din dout
  · rw [hpre, ok_bind]
    cases hdata : noOverlap dout.region [din.region] with
    | ok _ =>
      have hapart := region_disjoint_iff.1 (noOverlap_ok_iff.1 hdata din.region (.head _))
      exact .inl ⟨hlegal, ⟨hcommon, hapart⟩, rfl⟩
    | error x =>
      refine .inr (.inl ⟨hlegal, fun ⟨_, hapart⟩ => ?_, congrArg _ (noOverlap_error hdata)⟩)
      have hdisjoint : dout.region.disjoint din.region = true := region_disjoint_iff.2 hapart
      cases hdata.symm.trans (noOverlap_ok_iff (u := ()).2 (List.forall_mem_singleton.2 hdisjoint))
  · rw [hpre]
    exact .inr (.inl ⟨hlegal, fun ⟨hcommon, hapart⟩ => hover ⟨hcommon, .inr hapart⟩, rfl⟩)
  · exact .inr (.inr ⟨hillegal, hpre.imp (fun h => by rw [h, error_bind]) fun h => by rw [h, error_bind]⟩)

/-! ### Past the checks -/

section Passes

variable (hpasses : Ref.softmaxPasses s o din dout)
include hpasses

/-- A `SOFTMAX` that passes its checks is concluded from its preconditions and its bytes. -/
theorem exec_softmax_of_passes : exec (.softmax o) s = s.conclude (do
    softmaxPreconditions s o ⟨din, dout⟩
    let bytes ← softmaxBytes s.mem ⟨din, dout⟩
    pure (s.store dout.data bytes).advance) := by
  rw [exec_softmax, softmaxResult, softmaxPasses_iff.1 hpasses, ok_bind]

theorem exec_softmax_of_preconditions_error {q : Refusal}
    (h : softmaxPreconditions s o ⟨din, dout⟩ = .error (.refuse q)) : exec (.softmax o) s = .refused q := by
  rw [exec_softmax_of_passes hpasses, h, error_bind, conclude_refuse]

/-- The output data of a `SOFTMAX` that passes its checks lies in memory, a byte for each channel. -/
theorem softmaxPasses_output_in_memory : dout.data + din.channels ≤ s.memBytes := by
  obtain ⟨-, hout, -, -, hheight, hwidth, hchannels, -⟩ := hpasses
  obtain ⟨-, -, hin, rfl⟩ := readDesc_ok_iff.1 hout
  rwa [size_of_one_position hheight hwidth, hchannels] at hin

theorem softmaxPasses_channels_pos : 0 < din.channels := by
  obtain ⟨hin, -⟩ := hpasses
  obtain ⟨-, hpos, -, rfl⟩ := readDesc_ok_iff.1 hin
  exact (descFields_pos hpos).2.2

end Passes

/-- Settles O42: the two clauses are the two ways the preconditions fail. -/
theorem softmaxRefusals : Obligations.SoftmaxRefusals := by
  intro s o din dout hpasses
  obtain ⟨hlegal, hapart, -⟩ | ⟨hlegal, -, hpre⟩ | ⟨hillegal, hpre⟩ := softmaxPreconditions_cases s o din dout
  · exact ⟨fun hillegal => absurd hlegal hillegal, fun _ hoverlap => absurd hapart hoverlap⟩
  · exact ⟨fun hillegal => absurd hlegal hillegal, fun _ _ => exec_softmax_of_preconditions_error hpasses hpre⟩
  · have hrefused {q : Refusal} := exec_softmax_of_preconditions_error hpasses (q := q)
    exact ⟨fun _ => hpre.imp hrefused hrefused, fun hlegal => absurd hlegal hillegal⟩

/-! ### The bytes -/

theorem collect_map {α β : Type} (g : α → β) (f : β → Except Stop Byte) : ∀ l : List α,
    collect f (l.map g) = collect (fun a => f (g a)) l
  | [] => rfl
  | a :: l => by rw [List.map_cons, collect, collect, collect_map g f l]

/-- The machine's inputs are those of R193. -/
theorem softmaxInputs_eq (s : State) (din : TensorDesc) :
    softmaxInputs s.mem din = (List.range din.channels).map (Ref.softmaxInput s din) := by
  simp [softmaxInputs, sample, TensorDesc.sampleAddr, Ref.softmaxInput]

/-- The probability of channel `i` (R196), `m` the maximum. -/
def softmaxProbability (s : State) (din : TensorDesc) (m : F32) (i : ℕ) : F32 :=
  fdiv (exp32 (fsub (Ref.softmaxInput s din i) m)) (expSum (Ref.softmaxInput s din) din.channels m)

/-- The bytes stored are the codes of the probabilities, with the machine's maximum. -/
theorem softmaxBytes_eq (s : State) (din dout : TensorDesc) : softmaxBytes s.mem ⟨din, dout⟩ =
    collect (fun i => outputCode false (softmaxProbability s din (softmaxMax (softmaxInputs s.mem din)) i)
      dout.scale dout.zp) (List.range din.channels) := by
  have hexps (m : F32) : softmaxExps exp32 m (softmaxInputs s.mem din) =
      (List.range din.channels).map fun j => exp32 (fsub (Ref.softmaxInput s din j) m) := by
    rw [softmaxExps, softmaxInputs_eq, List.map_map]
    rfl
  rw [softmaxBytes, softmaxCodes, softmaxNormalise, softmaxDivide, hexps, collect_map]
  rfl

/-- Past the checks the machine's maximum is the greatest of the inputs, when they are finite. -/
theorem isMaximum_of_passes (hpasses : Ref.softmaxPasses s o din dout)
    (hfin : ∀ i < din.channels, Ref.finite (Ref.softmaxInput s din i)) :
    IsMaximum (Ref.softmaxInput s din) din.channels (softmaxMax (softmaxInputs s.mem din)) := by
  rw [softmaxInputs_eq]
  exact isMaximum_softmaxMax (softmaxPasses_channels_pos hpasses) hfin

/-- Finite inputs give every probability its byte. -/
theorem softmaxBytes_complete (hpasses : Ref.softmaxPasses s o din dout) (hscale : Ref.legalScale dout.scale)
    (hfin : ∀ i < din.channels, Ref.finite (Ref.softmaxInput s din i)) :
    ∃ bs, softmaxBytes s.mem ⟨din, dout⟩ = .ok bs := by
  rw [softmaxBytes_eq]
  refine collect_complete fun i hi => ?_
  have hprob := (isMaximum_of_passes hpasses hfin).notNegative_probability (List.mem_range.1 hi)
  cases hcode : outputCode false (softmaxProbability s din (softmaxMax (softmaxInputs s.mem din)) i) dout.scale
      dout.zp with
  | ok b => exact ⟨b, rfl⟩
  | error x =>
    have hnan := f32IsNaN_iff.1 (outputCode_error hcode).1
    exact absurd ((nan_fdiv_iff hscale).1 hnan) hprob.not_nan

theorem softmaxBytes_channel {bs : List Byte} (h : softmaxBytes s.mem ⟨din, dout⟩ = .ok bs) (i : ℕ)
    (hi : i < bs.length) :
    requantize (softmaxProbability s din (softmaxMax (softmaxInputs s.mem din)) i) dout.scale dout.zp =
      .ok (bs[i].toNat : ℤ) := by
  rw [softmaxBytes_eq] at h
  obtain ⟨hlen, hcodes⟩ := collect_ok h
  have hcode := hcodes i (hlen ▸ hi) hi
  rw [List.getElem_range] at hcode
  exact requantize_of_outputCode hcode

/-- Settles O40: the maximum is the machine's, every byte can be computed, and the store of them all is the only
effect beside the pointer. (The machine has a `softmaxResult` of its own.) -/
theorem Softmax.softmaxResult : Obligations.SoftmaxResult := by
  intro s o din dout hwf hpasses hlegal hcommon hdata hfin
  have ⟨_, hscale, _⟩ := hlegal
  have hmax := isMaximum_of_passes hpasses hfin
  obtain ⟨bs, hbytes⟩ := softmaxBytes_complete hpasses hscale hfin
  have hlen : bs.length = din.channels := softmaxBytes_length hbytes
  have hin : dout.data + bs.length ≤ s.memBytes := hlen ▸ softmaxPasses_output_in_memory hpasses
  refine ⟨(s.store dout.data bs).advance, ?_, rfl, ⟨rfl, rfl, rfl⟩, ⟨rfl, rfl, rfl, rfl⟩, ⟨rfl, rfl, rfl⟩, ?_,
    _, hmax.mem, hmax.value_le, ?_⟩
  · obtain ⟨-, -, hpre⟩ | ⟨-, hover, -⟩ | ⟨hillegal, -⟩ := softmaxPreconditions_cases s o din dout
    · rw [exec_softmax_of_passes hpasses, hpre, ok_bind, hbytes, ok_bind, pure_eq_ok, conclude_ok]
    · exact absurd ⟨hcommon, hdata⟩ hover
    · exact absurd hlegal hillegal
  · rw [← hlen]
    exact fun a ha => readByte_writeBytes_outside hwf hin ha
  · intro i hi
    have hi' : i < bs.length := hi.trans_eq hlen.symm
    rw [advance_mem, store_mem, readByte_writeBytes_inside hwf hin hi']
    exact softmaxBytes_channel hbytes i hi'

/-- Settles O43: a `SOFTMAX` that completes is not refused (O42), so its operands are legal and its inputs, of so low
a scale, finite; its bytes are then the codes of probabilities (O40), and none of these is negative. -/
theorem softmaxCodesAtLeastZeroPoint : Obligations.SoftmaxCodesAtLeastZeroPoint := by
  intro s t o din dout hwf hpasses hscale hnext i hi
  obtain ⟨hparams, hoverlap⟩ := softmaxRefusals s o din dout hpasses
  rw [hnext] at hparams hoverlap
  have hlegal : Ref.tensorsLegal din dout := by_contra fun h => (hparams h).elim nofun nofun
  obtain ⟨hcommon, hdata⟩ : softmaxApart s o din dout := by_contra fun h => nomatch hoverlap hlegal h
  have ⟨_, hdscale, hzin, hzout⟩ := hlegal
  have hfin : ∀ k < din.channels, Ref.finite (Ref.softmaxInput s din k) :=
    fun _ _ => finite_dequantize _ hzin ⟨hscale.1, hscale.2.trans (by decide)⟩
  obtain ⟨t', hnext', -, -, -, -, -, m, hmem, hle, hcodes⟩ :=
    Softmax.softmaxResult s o din dout hwf hpasses hlegal hcommon hdata hfin
  cases hnext.symm.trans hnext'
  have hmax : IsMaximum (Ref.softmaxInput s din) din.channels m := ⟨hfin, hmem, hle⟩
  exact zp_le_of_requantize (hmax.notNegative_probability hi) hdscale hzout (hcodes i hi)

end Sys2Proof.Machine
end

section
/-! PROOFS. `Lookup` and the registry: the ranges it guards lie in memory, so its result is that of its three checks
(spec/46_registry_ldmeta.md R209). -/

namespace Sys2Proof.Machine

variable {s : State}

/-- The record at a position below `META_COUNT` lies in the table, which lies in memory. -/
theorem recordAddr_in_memory (hreg : s.registryInMemory) {pos : Word} (hpos : pos.toNat < s.metaCount.toNat) :
    s.recordAddr pos + 16 ≤ s.memBytes := by
  obtain ⟨htable, -⟩ := hreg
  rw [State.recordAddr]
  omega

/-- A weight region that fits the blob lies in memory with it. -/
theorem viewOf_in_memory (hreg : s.registryInMemory) {r : LayerRecord} (hfits : r.fits s.blobLen.toNat = true) :
    (s.viewOf r).wbase + (s.viewOf r).wlen ≤ s.memBytes := by
  obtain ⟨-, hblob⟩ := hreg
  obtain ⟨hoff, hlen, hsum⟩ := fits_iff.1 hfits
  simp only [State.viewOf]
  omega

theorem insideMemory_bind {α : Type} {a n : Nat} (h : a + n ≤ s.memBytes) (f : Unit → Except Stop α) :
    (s.insideMemory a n >>= f) = f () := by
  rw [insideMemory_ok_iff.2 h, ok_bind]

/-- In a state whose registry lies in memory `Lookup` is a chain of its three checks. -/
theorem lookup_eq_ite (hreg : s.registryInMemory) (pos : Word) : lookup s pos =
    if decide (pos.toNat < s.metaCount.toNat) = false then .error (.error .metadataMalformed)
    else if (readRecord s.mem (s.recordAddr pos)).fits s.blobLen.toNat = false then
      .error (.error .metadataMalformed)
    else if (decide (1 ≤ (readRecord s.mem (s.recordAddr pos)).bitWidth) &&
        decide ((readRecord s.mem (s.recordAddr pos)).bitWidth ≤ 8)) = false then .error (.error .unsupportedBitWidth)
    else .ok (s.viewOf (readRecord s.mem (s.recordAddr pos))) := by
  rw [lookup, require_bind]
  refine ite_congr rfl (fun _ => rfl) fun hpos => ?_
  rw [insideMemory_bind (recordAddr_in_memory hreg (by simpa using hpos)), require_bind]
  refine ite_congr rfl (fun _ => rfl) fun hfits => ?_
  rw [require_bind, insideMemory_bind (viewOf_in_memory hreg (by simpa using hfits)), pure_eq_ok]

theorem fits_eq_false_iff {r : LayerRecord} {n : Nat} : r.fits n = false ↔
    r.byteOffset < 0 ∨ r.byteLength < 0 ∨ (n : ℤ) < r.byteOffset + r.byteLength := by
  rw [Bool.eq_false_iff, ne_eq, fits_iff]
  omega

/-- Settles O22: each check fails exactly where the statement says. -/
theorem lookupResult : Obligations.LookupResult := by
  rintro s pos _ _ _ _ hreg rfl rfl rfl rfl
  rw [lookup_eq_ite hreg]
  refine if_congr (by simp) rfl (if_congr fits_eq_false_iff rfl (if_congr ?_ rfl rfl))
  simp only [Bool.and_eq_false_iff, decide_eq_false_iff_not, not_le]
  rfl

end Sys2Proof.Machine
end

section
/-! PROOFS. No step is the model's fault: `Lookup` alone has guards that fault, and the registry keeps them from it
(R209). -/

namespace Sys2Proof.Machine

/-! ### Commands -/

section Commands

variable {s : State} (f : Fault)

theorem require_ne_fault (b : Bool) (e : EngineError) : require b e ≠ .error (.fault f) :=
  fun h => nomatch (require_error_iff.1 h).2

theorem readDesc_ne_fault (s : State) (d : Word) : readDesc s d ≠ .error (.fault f) := fun h => nomatch readDesc_error h

/-- What stops with refusals alone does not fault. -/
theorem ne_fault_of_refuse {α : Type} {r : Except Stop α} (h : ∀ {x}, r = .error x → ∃ q, x = .refuse q) :
    r ≠ .error (.fault f) := fun hr => nomatch h hr

theorem gapResult_ne_fault (s : State) (o : TensorOperands) : gapResult s o ≠ .error (.fault f) :=
  bind_ne_error (bind_ne_error (readDesc_ne_fault _ _ _) fun _ _ => bind_ne_error (readDesc_ne_fault _ _ _) fun _ _ =>
      bind_ne_error (require_ne_fault _ _ _) fun _ _ => nofun) fun _ _ =>
    bind_ne_error (ne_fault_of_refuse f gapPreconditions_error) fun _ _ =>
      bind_ne_error (ne_fault_of_refuse f gapBytes_error) fun _ _ => nofun

theorem softmaxResult_ne_fault (s : State) (o : TensorOperands) : softmaxResult s o ≠ .error (.fault f) :=
  bind_ne_error (bind_ne_error (readDesc_ne_fault _ _ _) fun _ _ => bind_ne_error (readDesc_ne_fault _ _ _) fun _ _ =>
      bind_ne_error (require_ne_fault _ _ _) fun _ _ => bind_ne_error (require_ne_fault _ _ _) fun _ _ =>
        bind_ne_error (require_ne_fault _ _ _) fun _ _ => nofun) fun _ _ =>
    bind_ne_error (ne_fault_of_refuse f softmaxPreconditions_error) fun _ _ =>
      bind_ne_error (ne_fault_of_refuse f softmaxBytes_error) fun _ _ => nofun

theorem ldmetaResult_ne_fault (s : State) (m : MetaOperands) : ldmetaResult s m ≠ .error (.fault f) :=
  bind_ne_error (bind_ne_error (require_ne_fault _ _ _) fun _ _ => bind_ne_error (require_ne_fault _ _ _) fun _ _ =>
    bind_ne_error (require_ne_fault _ _ _) fun _ _ h => nomatch checkRecords_error h) fun _ _ => nofun

variable (hreg : s.registryInMemory)
include hreg

/-- `Lookup` raises an error or returns a view: no guard of its own stops it. -/
theorem lookup_ne_fault (pos : Word) : lookup s pos ≠ .error (.fault f) := by
  rw [lookup_eq_ite hreg]
  split_ifs <;> nofun

theorem dwResult_ne_fault (c : ConvOperands) : dwResult s c ≠ .error (.fault f) :=
  bind_ne_error (bind_ne_error (lookup_ne_fault _ hreg _) fun _ _ => bind_ne_error (readDesc_ne_fault _ _ _) fun _ _ =>
      bind_ne_error (readDesc_ne_fault _ _ _) fun _ _ => bind_ne_error (require_ne_fault _ _ _) fun _ _ =>
        bind_ne_error (require_ne_fault _ _ _) fun _ _ => bind_ne_error (require_ne_fault _ _ _) fun _ _ => nofun)
    fun _ _ => bind_ne_error (ne_fault_of_refuse f convPreconditions_error) fun _ _ =>
      bind_ne_error (ne_fault_of_refuse f dwBytes_error) fun _ _ => nofun

theorem pwResult_ne_fault (c : ConvOperands) : pwResult s c ≠ .error (.fault f) :=
  bind_ne_error (bind_ne_error (lookup_ne_fault _ hreg _) fun _ _ => bind_ne_error (readDesc_ne_fault _ _ _) fun _ _ =>
      bind_ne_error (readDesc_ne_fault _ _ _) fun _ _ => bind_ne_error (require_ne_fault _ _ _) fun _ _ =>
        bind_ne_error (require_ne_fault _ _ _) fun _ _ => bind_ne_error (require_ne_fault _ _ _) fun _ _ => nofun)
    fun _ _ => bind_ne_error (ne_fault_of_refuse f convPreconditions_error) fun _ _ =>
      bind_ne_error (ne_fault_of_refuse f pwBytes_error) fun _ _ => nofun

/-- No command faults while the registry lies in memory. -/
theorem exec_noFault (i : Instr) : noFault (exec i s) := by
  intro f h
  cases i with
  | endPass => cases h
  | ldmeta m => exact ldmetaResult_ne_fault f s m (conclude_eq_fault h)
  | dwconv c => exact dwResult_ne_fault f hreg c (conclude_eq_fault h)
  | pwconv c => exact pwResult_ne_fault f hreg c (conclude_eq_fault h)
  | gap o => exact gapResult_ne_fault f s o (conclude_eq_fault h)
  | softmax o => exact softmaxResult_ne_fault f s o (conclude_eq_fault h)

/-- The engine's turn adds only error entry at a failing fetch, and standing still, to what commands do. -/
theorem engineTurn_noFault : noFault (engineTurn exec s) := by
  unfold engineTurn engineStep
  split_ifs
  · split
    · nofun
    · exact exec_noFault hreg _
  · nofun

end Commands

/-! ### Host moves -/

/-- Of the host's moves only a `wait` can fault, and only as the engine's turn does. -/
theorem hostMove_noFault {turn : State → Host.Outcome State Fault Refusal} {s : State} (hturn : noFault (turn s))
    (m : HostMove) : noFault (hostMove turn m s) := by
  cases m with
  | wait => exact hturn
  | writeReg | readReg | writeByte | readByte => simp only [hostMove]; split <;> nofun
  | hardwareReset => nofun

/-- Settles O7: the invariant holds the registry in memory, with or without the host's next move. -/
theorem stepNeverFaults : Obligations.StepNeverFaults := by
  rintro s ⟨-, -, -, -, hreg⟩
  unfold step
  split
  next m rest _ => exact hostMove_noFault (s := { s with hostMoves := rest }) (engineTurn_noFault hreg) m
  next => exact engineTurn_noFault hreg

end Sys2Proof.Machine
end

section
/-! PROOFS. `LDMETA`: its checks in order, its errors and its effect (spec/46_registry_ldmeta.md R207, R208, R210). -/

namespace Sys2Proof.Machine

variable {s : State} {m : MetaOperands}

theorem exec_ldmeta (s : State) (m : MetaOperands) : exec (.ldmeta m) s = s.conclude (ldmetaResult s m) := rfl

theorem exec_ldmeta_of_ok (h : ldmetaChecks s m = .ok ()) :
    exec (.ldmeta m) s = .next (s.latchRegistry m).advance := by
  rw [exec_ldmeta, ldmetaResult, h, ok_bind, pure_eq_ok, conclude_ok]

theorem exec_ldmeta_of_error {e : EngineError} (h : ldmetaChecks s m = .error (.error e)) :
    exec (.ldmeta m) s = .next (raise e s) := by
  rw [exec_ldmeta, ldmetaResult, h, error_bind, conclude_error]

/-- The record loop, on the words of the table. -/
theorem checkRecords_none_ok_iff {mem : List Host.Cell} {blobLen n r : Nat} :
    checkRecords mem blobLen n r none = .ok () ↔
      (∀ k < n, 0 ≤ (readWord mem (r + 16 * k + 8)).toInt ∧ 0 ≤ (readWord mem (r + 16 * k + 12)).toInt ∧
        (readWord mem (r + 16 * k + 8)).toInt + (readWord mem (r + 16 * k + 12)).toInt ≤ blobLen) ∧
      (∀ k, k + 1 < n → (readWord mem (r + 16 * k)).toInt < (readWord mem (r + 16 * (k + 1))).toInt) := by
  rw [checkRecords_ok_iff]
  simp only [fits_iff, Option.mem_def, reduceCtorEq, false_imp_iff, implies_true, true_and]
  rfl

/-- The checks of R207 as a chain. -/
theorem ldmetaChecks_eq_ite (s : State) (m : MetaOperands) : ldmetaChecks s m =
    if m.metaLen.toNat % 16 ≠ 0 then .error (.error .metadataMalformed)
    else if s.memBytes < m.metaAddr.toNat + m.metaLen.toNat then .error (.error .metadataMalformed)
    else if s.memBytes < m.blobAddr.toNat + m.blobLen.toNat then .error (.error .invalidDimensions)
    else checkRecords s.mem m.blobLen.toNat (m.metaLen.toNat / 16) m.metaAddr.toNat none := by
  simp only [ldmetaChecks, require_bind, inRange_eq_false, beq_eq_false_iff_ne]

/-- Settles O24: the five hypotheses are the checks, and the latch and the pointer the only effect. -/
theorem ldmetaLatchesRegistry : Obligations.LdmetaLatchesRegistry := by
  intro s m hlen htable hblob hfits hids
  have hchecks := ldmetaChecks_ok_iff.2 ⟨hlen, htable, hblob, checkRecords_none_ok_iff.2 ⟨hfits, hids⟩⟩
  exact ⟨_, exec_ldmeta_of_ok hchecks, rfl, latchRegistry_metaCount_toNat s m, rfl, rfl, rfl, rfl, ⟨rfl, rfl, rfl⟩,
    rfl, rfl, rfl⟩

/-- Settles O25: past its three range checks `LDMETA` stops in the record loop, whose only error is
`MetadataMalformed`. -/
theorem ldmetaErrors : Obligations.LdmetaErrors := by
  intro s m
  have hchecks := ldmetaChecks_eq_ite s m
  refine ⟨fun hlen => ?_, fun hlen => ⟨fun htable => ?_, fun htable => ⟨fun hblob => ?_, fun hblob hbad => ?_⟩⟩,
    fun _ => ⟨rfl, rfl, rfl, rfl⟩⟩
  · rw [if_pos hlen] at hchecks
    exact exec_ldmeta_of_error hchecks
  · rw [if_neg (not_not_intro hlen), if_pos htable] at hchecks
    exact exec_ldmeta_of_error hchecks
  · rw [if_neg (not_not_intro hlen), if_neg htable.not_gt, if_pos hblob] at hchecks
    exact exec_ldmeta_of_error hchecks
  · rw [if_neg (not_not_intro hlen), if_neg htable.not_gt, if_neg hblob.not_gt] at hchecks
    cases hrecords : checkRecords s.mem m.blobLen.toNat (m.metaLen.toNat / 16) m.metaAddr.toNat none with
    | error x => exact exec_ldmeta_of_error (hchecks.trans (checkRecords_error hrecords ▸ hrecords))
    | ok u =>
      obtain ⟨hfits, hids⟩ := checkRecords_none_ok_iff.1 hrecords
      obtain ⟨k, hk, hmisfit⟩ | ⟨k, hk, hle⟩ := hbad
      · have := hfits k hk
        omega
      · exact absurd (hids k hk) hle.not_gt

end Sys2Proof.Machine
end

section
/-! PROOFS. The engine's turn: a host move `wait` or none gives it, while BUSY it runs the command at `CMD_PTR` or
raises `IllegalCommand`, while idle it does nothing (R225, R256, R270), and a placed command is the one it runs. -/

namespace Sys2Proof.Machine

/-! ### Whose turn a step is -/

/-- A step without a host move is the engine's turn. -/
theorem step_of_no_move {s : State} (h : s.hostMoves = []) : step s = engineTurn exec s := by
  simp only [step, h]

/-- A step at a `wait` is the engine's turn, with the `wait` taken away. -/
theorem step_of_wait {s : State} {rest : List HostMove} (h : s.hostMoves = .wait :: rest) :
    step s = engineTurn exec { s with hostMoves := rest } :=
  step_of_hostMoves h

/-! ### The fetch -/

theorem fetched_eq_some {s : State} {i : Instr} (hin : s.cmdPtr.toNat + 32 ≤ s.memBytes)
    (hdecode : decodeBytes (readBytes s.mem s.cmdPtr.toNat 32) = .ok i) : s.fetched = some i := by
  rw [State.fetched, if_pos ((inRange_eq_true ..).2 hin), hdecode]

theorem fetched_eq_none {s : State} (h : s.memBytes < s.cmdPtr.toNat + 32 ∨
    ∃ e, decodeBytes (readBytes s.mem s.cmdPtr.toNat 32) = .error e) : s.fetched = none := by
  unfold State.fetched
  split_ifs with hin
  · obtain h | ⟨e, h⟩ := h
    · exact absurd ((inRange_eq_true ..).1 hin) h.not_ge
    · rw [h]
  · rfl

/-- A fetched command lies in memory. -/
theorem cmdPtr_in_memory_of_fetched {s : State} {i : Instr} (h : s.fetched = some i) :
    s.cmdPtr.toNat + 32 ≤ s.memBytes := by
  by_contra hout
  rw [fetched_eq_none (.inl (not_le.1 hout))] at h
  cases h

theorem engineTurn_of_fetched {s : State} {i : Instr} (hb : s.busy = true) (h : s.fetched = some i) :
    engineTurn exec s = exec i s := by
  rw [engineTurn_busy hb, engineStep, h]

theorem engineTurn_of_no_fetch {s : State} (hb : s.busy = true) (h : s.fetched = none) :
    engineTurn exec s = .next (raise .illegalCommand s) := by
  rw [engineTurn_busy hb, engineStep, h]

/-- Settles O1: without the `wait` the same command is fetched. -/
theorem stepRunsFetchedCommand : Obligations.StepRunsFetchedCommand := by
  intro s i hb hin hdecode
  refine ⟨fun hmoves => ?_, fun rest hmoves => ?_⟩
  · rw [step_of_no_move hmoves]
    exact engineTurn_of_fetched hb (fetched_eq_some hin hdecode)
  · rw [step_of_wait hmoves]
    exact engineTurn_of_fetched (s := { s with hostMoves := rest }) hb (fetched_eq_some hin hdecode)

/-- Settles O2: without the `wait` the fetch fails as well. -/
theorem fetchRaisesIllegalCommand : Obligations.FetchRaisesIllegalCommand := by
  intro s hb hbad
  refine ⟨fun hmoves => ?_, fun rest hmoves => ?_⟩
  · rw [step_of_no_move hmoves]
    exact engineTurn_of_no_fetch hb (fetched_eq_none hbad)
  · rw [step_of_wait hmoves]
    exact engineTurn_of_no_fetch (s := { s with hostMoves := rest }) hb (fetched_eq_none hbad)

/-- Settles O3: the idle engine's turn is to stand still. -/
theorem idleKeepsEverything : Obligations.IdleKeepsEverything := by
  intro s hidle
  refine ⟨fun hmoves => ?_, fun rest hmoves => ?_⟩
  · rw [step_of_no_move hmoves, engineTurn_idle hidle]
  · rw [step_of_wait hmoves]
    exact engineTurn_idle hidle

/-! ### A placed command -/

@[simp] theorem tableBytes_length (nbits w : Nat) : (tableBytes nbits w).length = 32 := by simp [tableBytes]

theorem decodeTableWord_eq_some {nbits w : Nat} {i : Instr} (h : decodeTableWord nbits w = some i) :
    decodeBytes (tableBytes nbits w) = .ok i := by
  unfold decodeTableWord at h
  split at h
  next hdecode => cases h; exact hdecode
  next => cases h

/-- A command fits where the step fetches: at `CMD_PTR`, or else at address 0. -/
theorem fetchAddress_in_memory {s : State} (hsize : s.sizeLegal) : s.fetchAddress.toNat + 32 ≤ s.memBytes := by
  obtain ⟨hmin, -⟩ := hsize
  unfold State.fetchAddress
  split_ifs with hin
  · exact (inRange_eq_true ..).1 hin
  · exact le_trans (by decide) hmin

theorem placeCommand_busy (s : State) (bytes : List Byte) : (s.placeCommand bytes).busy = true := by
  cases hb : s.busy with
  | true =>
    have h : (s.placeCommand bytes).status = s.status := by simp [State.placeCommand, hb]
    rw [busy_congr h, hb]
  | false =>
    have h : (s.placeCommand bytes).status = s.start.status := by simp [State.placeCommand, hb]
    rw [busy_congr h, start_busy]

theorem placeCommand_memBytes (s : State) (bytes : List Byte) : (s.placeCommand bytes).memBytes = s.memBytes := by
  cases hb : s.busy <;> simp [State.placeCommand, hb]

theorem placeCommand_cmdPtr (s : State) (bytes : List Byte) : (s.placeCommand bytes).cmdPtr = s.fetchAddress := rfl

theorem placeCommand_mem (s : State) (bytes : List Byte) :
    (s.placeCommand bytes).mem = writeBytes s.mem s.fetchAddress.toNat bytes := rfl

/-- Settles O18: the placed bytes lie in memory, are read back unchanged (O1 needs no more), and the engine is BUSY. -/
theorem placedCommandRunsNext : Obligations.PlacedCommandRunsNext := by
  rintro s nbits w i ⟨hsize, hmem, -⟩ hdecode
  have hin := fetchAddress_in_memory hsize
  have hread := readBytes_writeBytes (bs := tableBytes nbits w) hmem (by rwa [tableBytes_length])
  rw [tableBytes_length] at hread
  unfold State.withFetchWord
  refine (stepRunsFetchedCommand _ i (placeCommand_busy s _) ?_ ?_).1 rfl
  · rwa [placeCommand_memBytes, placeCommand_cmdPtr]
  · rw [placeCommand_mem, placeCommand_cmdPtr, hread, decodeTableWord_eq_some hdecode]

end Sys2Proof.Machine
end

section
/-! PROOFS. What a step takes from the list of host moves, and that every pass ends (R25, R29, R64, R229, R234). -/

namespace Sys2Proof.Machine

/-! ### The list of host moves -/

/-- No command writes a field of the model's own. -/
theorem exec_sameOwn {i : Instr} {s t : State} (h : exec i s = .next t) : s.sameOwn t := by
  cases exec_next h with
  | ended | raised | latched | stored => exact ⟨rfl, rfl, rfl⟩

theorem engineTurn_keeps_hostMoves {s t : State} (h : engineTurn exec s = .next t) : t.hostMoves = s.hostMoves := by
  obtain ⟨-, rfl⟩ | ⟨-, -, rfl⟩ | ⟨i, -, -, h⟩ := engineTurn_next h
  · rfl
  · rfl
  · obtain ⟨-, hmoves, -⟩ := exec_sameOwn h
    exact hmoves

theorem writeRegister_keeps_hostMoves (s : State) (offset value : Word) :
    (s.writeRegister offset value).hostMoves = s.hostMoves := by
  unfold State.writeRegister State.writeCtrl
  split
  · split_ifs <;> rfl
  · split_ifs <;> rfl
  · rfl

theorem hostMove_keeps_hostMoves {m : HostMove} {s t : State} (h : hostMove (engineTurn exec) m s = .next t) :
    t.hostMoves = s.hostMoves := by
  obtain ⟨-, h⟩ | ⟨offset, value, -, rfl⟩ | ⟨offset, -, rfl⟩ | ⟨addr, value, -, -, rfl⟩ | ⟨addr, -, -, rfl⟩ |
    ⟨cells, -, rfl⟩ := hostMove_next h
  · exact engineTurn_keeps_hostMoves h
  · exact writeRegister_keeps_hostMoves s offset value
  · rfl
  · rfl
  · rfl
  · rfl

theorem step_takes_one_move {s t : State} (h : step s = .next t) : t.hostMoves = s.hostMoves.tail := by
  obtain ⟨hmoves, h⟩ | ⟨m, rest, hmoves, h⟩ := step_next h
  · rw [engineTurn_keeps_hostMoves h, hmoves, List.tail_nil]
  · rw [hostMove_keeps_hostMoves h, hmoves, List.tail_cons]

/-- In a pass a host move other than `wait` and a hardware reset writes at most the word the host has read. -/
theorem hostMove_in_pass {turn : State → Host.Outcome State Fault Refusal} {m : HostMove} {s t : State}
    (hb : s.busy = true) (hwait : m ≠ .wait) (hreset : ∀ cells, m ≠ .hardwareReset cells)
    (h : hostMove turn m s = .next t) : ∃ w, t = { s with hostRead := w } := by
  obtain ⟨hm, -⟩ | ⟨offset, value, -, rfl⟩ | ⟨offset, -, rfl⟩ | ⟨addr, value, -, hstop, -⟩ | ⟨addr, -, hstop, -⟩ |
    ⟨cells, hm, -⟩ := hostMove_next h
  · exact absurd hm hwait
  · exact ⟨s.hostRead, writeRegister_busy hb offset value⟩
  · exact ⟨_, rfl⟩
  · rw [hostMemoryStop_of_busy hb] at hstop
    cases hstop
  · rw [hostMemoryStop_of_busy hb] at hstop
    cases hstop
  · exact absurd hm (hreset cells)

/-- Settles O59: a step takes one move, and in a pass the moves the statement leaves in touch only `hostRead`. -/
theorem stepTakesOneHostMove : Obligations.StepTakesOneHostMove := by
  intro s t h
  refine ⟨step_takes_one_move h, fun m rest hmoves hb hwait hreset => ?_⟩
  rw [step_of_hostMoves hmoves] at h
  obtain ⟨w, rfl⟩ := hostMove_in_pass (s := { s with hostMoves := rest }) hb hwait hreset h
  exact ⟨rfl, rfl, rfl, ⟨rfl, rfl, rfl⟩, rfl, rfl, rfl, rfl⟩

/-! ### A pass -/

/-- With no host move but `wait`s every step is the engine's turn. -/
theorem step_of_waits {s : State} (h : ∀ m ∈ s.hostMoves, m = .wait) :
    step s = engineTurn exec { s with hostMoves := s.hostMoves.tail } := by
  cases hmoves : s.hostMoves with
  | nil => rw [step_of_no_move hmoves, List.tail_nil, ← hmoves]
  | cons m rest =>
    obtain rfl := h m (by simp [hmoves])
    exact step_of_wait hmoves

/-- A command after which the engine is still BUSY has moved `CMD_PTR` to the next one. -/
theorem exec_still_busy {i : Instr} {s t : State} (h : exec i s = .next t) (hb : t.busy = true) :
    t.cmdPtr = s.cmdPtr + 32#32 := by
  obtain ⟨-, rfl⟩ | ⟨-, e, -, rfl⟩ | ⟨-, hptr, -⟩ := execEndsRaisesOrAdvances i s t h
  · simp [State.busy] at hb
  · simp at hb
  · exact hptr

/-- A turn after which the engine is still BUSY has run a command that lies in memory and moved past it. -/
theorem engineTurn_still_busy {s t : State} (hs : s.busy = true) (h : engineTurn exec s = .next t)
    (hb : t.busy = true) :
    s.cmdPtr.toNat + 32 ≤ s.memBytes ∧ t.cmdPtr = s.cmdPtr + 32#32 ∧ t.memBytes = s.memBytes := by
  obtain ⟨hidle, -⟩ | ⟨-, -, rfl⟩ | ⟨i, -, hfetch, h⟩ := engineTurn_next h
  · simp [hidle] at hs
  · simp at hb
  · obtain ⟨hsize, -⟩ := exec_sameOwn h
    exact ⟨cmdPtr_in_memory_of_fetched hfetch, exec_still_busy h hb, hsize⟩

/-- The pass is over, or refused, after at most `n` steps. -/
def EndsWithin (n : Nat) (s : State) : Prop :=
  ∃ k ≤ n, (∃ t : State, core.run k s = .next t ∧ t.busy = false) ∨ ∃ r, core.run k s = .refused r

theorem EndsWithin.of_idle {n : Nat} {s : State} (h : s.busy = false) : EndsWithin n s :=
  ⟨0, Nat.zero_le n, .inl ⟨s, rfl, h⟩⟩

theorem EndsWithin.of_refused {n : Nat} {s : State} {r : Refusal} (h : step s = .refused r) :
    EndsWithin (n + 1) s :=
  ⟨1, Nat.le_add_left 1 n, .inr ⟨r, by simp only [Host.Core.run, core, h]⟩⟩

theorem EndsWithin.of_next {n : Nat} {s t : State} (h : step s = .next t) (ht : EndsWithin n t) :
    EndsWithin (n + 1) s := by
  obtain ⟨k, hk, hend⟩ := ht
  have hrun : core.run (k + 1) s = core.run k t := by
    have hstep : core.step s = .next t := h
    simp only [Host.Core.run, hstep]
  exact ⟨k + 1, Nat.succ_le_succ hk, hrun ▸ hend⟩

/-- One step of a pass: it is refused, ends the pass, or runs a command that lies in memory and moves past it. -/
theorem EndsWithin.of_turn {n : Nat} {s : State} (hs : s.Inv) (hb : s.busy = true)
    (hwaits : ∀ m ∈ s.hostMoves, m = .wait)
    (hnext : ∀ t : State, t.Inv → t.busy = true → (∀ m ∈ t.hostMoves, m = .wait) →
      s.cmdPtr.toNat + 32 ≤ s.memBytes → t.cmdPtr = s.cmdPtr + 32#32 → t.memBytes = s.memBytes → EndsWithin n t) :
    EndsWithin (n + 1) s := by
  cases hstep : step s with
  | fault f => exact absurd hstep (stepNeverFaults s hs f)
  | refused r => exact .of_refused hstep
  | next t =>
    refine .of_next hstep ?_
    cases hbt : t.busy with
    | false => exact .of_idle hbt
    | true =>
      have hturn := step_of_waits hwaits ▸ hstep
      obtain ⟨hin, hptr, hsize⟩ := engineTurn_still_busy (s := { s with hostMoves := s.hostMoves.tail }) hb hturn hbt
      refine hnext t (stepKeepsInvariant s t hs hstep) hbt (fun m hm => hwaits m ?_) hin hptr hsize
      exact List.mem_of_mem_tail (step_takes_one_move hstep ▸ hm)

/-- When at most `n` commands fit between `CMD_PTR` and the end of memory, a pass ends with the step after them, where
the fetch fails. -/
theorem endsWithin_of_distance (n : Nat) {s : State} (hs : s.Inv) (hb : s.busy = true)
    (hwaits : ∀ m ∈ s.hostMoves, m = .wait) (hdist : s.memBytes < s.cmdPtr.toNat + 32 * (n + 1)) :
    EndsWithin (n + 1) s := by
  induction n generalizing s with
  | zero => exact .of_turn hs hb hwaits fun t _ _ _ hin => absurd hin (by omega)
  | succ n ih =>
    have ⟨⟨_, hmax⟩, _⟩ := hs
    refine .of_turn hs hb hwaits fun t ht hbt hwt hin hptr hsize => ih ht hbt hwt ?_
    have hadd : (s.cmdPtr + 32#32).toNat = s.cmdPtr.toNat + 32 :=
      BitVec.toNat_add_of_lt (by simp only [Config.memBytesMax, BitVec.toNat_ofNat] at hmax ⊢; omega)
    rw [hsize, hptr, hadd]
    omega

/-- Settles O8: at most `MEM_BYTES / 32` commands fit behind any `CMD_PTR`. -/
theorem everyPassEnds : Obligations.EveryPassEnds := fun s hs hb hwaits =>
  endsWithin_of_distance (s.memBytes / 32) hs hb hwaits (by omega)

end Sys2Proof.Machine
end

section
/-! PROOFS. The bits of `STATUS` as `END`, `START` and error entry leave them (R226, R227, R258), and the resets
(R25, R280). -/

namespace Sys2Proof.Machine

/-! ### The bits of `STATUS` -/

theorem getLsbD_busyBit (k : Nat) : busyBit.getLsbD k = decide (k = 0) :=
  (BitVec.getLsbD_twoPow (w := 32) 0 k).trans (decide_eq_decide.2 eq_comm)

theorem getLsbD_doneBit (k : Nat) : doneBit.getLsbD k = decide (k = 1) :=
  (BitVec.getLsbD_twoPow (w := 32) 1 k).trans (decide_eq_decide.2 eq_comm)

theorem getLsbD_errBit (k : Nat) : errBit.getLsbD k = decide (k = 2) :=
  (BitVec.getLsbD_twoPow (w := 32) 2 k).trans (decide_eq_decide.2 eq_comm)

theorem getLsbD_setBits (w b : Word) (k : Nat) : (setBits w b).getLsbD k = (w.getLsbD k || b.getLsbD k) :=
  BitVec.getLsbD_or

theorem getLsbD_clearBits (w b : Word) (k : Nat) : (clearBits w b).getLsbD k = (w.getLsbD k && !b.getLsbD k) := by
  rw [clearBits, BitVec.getLsbD_and, BitVec.getLsbD_not]
  by_cases hk : k < 32
  · simp [hk]
  · simp [BitVec.getLsbD_of_ge w k (by omega)]

theorem getLsbD_endStatus (w : Word) (k : Nat) :
    (endStatus w).getLsbD k = if k = 0 then false else if k = 1 then true else w.getLsbD k := by
  simp only [endStatus, getLsbD_setBits, getLsbD_clearBits, getLsbD_busyBit, getLsbD_doneBit]
  split_ifs <;> simp [*]

theorem getLsbD_startStatus (w : Word) (k : Nat) :
    (startStatus w).getLsbD k = if k = 0 then true else if k = 1 ∨ k = 2 then false else w.getLsbD k := by
  simp only [startStatus, getLsbD_setBits, getLsbD_clearBits, getLsbD_busyBit, getLsbD_doneBit, getLsbD_errBit]
  split_ifs with h0 h12
  · simp [h0]
  · obtain rfl | rfl := h12 <;> simp
  · simp_all

theorem getLsbD_errorStatus (w : Word) (k : Nat) :
    (errorStatus w).getLsbD k = if k = 0 then false else if k = 2 then true else w.getLsbD k := by
  simp only [errorStatus, getLsbD_setBits, getLsbD_clearBits, getLsbD_busyBit, getLsbD_errBit]
  split_ifs <;> simp [*]

/-- Settles O23: `END` has no check, and its effect is `endStatus`. -/
theorem endCompletes : Obligations.EndCompletes := by
  intro s
  refine ⟨{ s with status := endStatus s.status }, rfl, getLsbD_endStatus _ 0, getLsbD_endStatus _ 1,
    fun k h0 h1 => ?_, rfl, rfl, rfl, rfl, ⟨rfl, rfl, rfl, rfl⟩, rfl, rfl, rfl⟩
  exact (getLsbD_endStatus _ k).trans ((if_neg h0).trans (if_neg h1))

/-- Settles O19: the codes error by error, the rest from the laws of `raise`. -/
theorem errorEntry : Obligations.ErrorEntry := by
  intro e s
  refine ⟨by cases e <;> rfl, rfl, raise_err e s, raise_busy e s, fun k h0 h2 => ?_, rfl, rfl, ⟨rfl, rfl, rfl, rfl⟩,
    rfl, rfl, rfl⟩
  rw [raise_status, getLsbD_errorStatus, if_neg h0, if_neg h2]

/-! ### The control register -/

theorem writeRegister_ctrl (s : State) (value : Word) : s.writeRegister 0 value = s.writeCtrl value := rfl

section Ctrl

variable {s : State} {value : Word}

theorem writeCtrl_busy (hb : s.busy = true) : s.writeCtrl value = s := if_pos hb

theorem writeCtrl_softReset (hb : s.busy = false) (h1 : value.getLsbD 1 = true) : s.writeCtrl value = s.softReset := by
  simp only [State.writeCtrl, hb, h1, Bool.false_eq_true, if_true, if_false]

theorem writeCtrl_start (hb : s.busy = false) (h1 : value.getLsbD 1 = false) (h0 : value.getLsbD 0 = true) :
    s.writeCtrl value = s.start := by
  simp only [State.writeCtrl, hb, h1, h0, Bool.false_eq_true, if_true, if_false]

theorem writeCtrl_neither (hb : s.busy = false) (h1 : value.getLsbD 1 = false) (h0 : value.getLsbD 0 = false) :
    s.writeCtrl value = s := by
  simp only [State.writeCtrl, hb, h1, h0, Bool.false_eq_true, if_false]

end Ctrl

/-- Settles O53: the four cases of the write, with the effect of `START` bit by bit. -/
theorem controlWrites : Obligations.ControlWrites := by
  intro s v rest hmoves
  rw [step_of_hostMoves hmoves, hostMove_writeReg_word, writeRegister_ctrl]
  refine ⟨fun hb => ?_, fun hb h1 => ?_, fun hb h1 h0 => ?_, fun hb h1 h0 => ?_⟩
  · exact congrArg _ (writeCtrl_busy (s := { s with hostMoves := rest }) hb)
  · exact congrArg _ (writeCtrl_softReset (s := { s with hostMoves := rest }) hb h1)
  · refine ⟨_, congrArg _ (writeCtrl_start (s := { s with hostMoves := rest }) hb h1 h0), start_busy _,
      getLsbD_startStatus _ 1, getLsbD_startStatus _ 2, fun k hk => ?_, rfl, rfl, rfl, rfl, ⟨rfl, rfl, rfl, rfl⟩,
      rfl, rfl, rfl⟩
    exact (getLsbD_startStatus _ k).trans ((if_neg (by omega)).trans (if_neg (by omega)))
  · exact congrArg _ (writeCtrl_neither (s := { s with hostMoves := rest }) hb h1 h0)

/-! ### Hardware reset -/

/-- A byte written behind every listed one is listed last. -/
theorem writeByte_append {a : Nat} {v : Byte} (hv : v ≠ unlistedByte) : ∀ {mem : List Host.Cell},
    (∀ c ∈ mem, c.1 < a) → writeByte mem a v = mem ++ [(a, v)]
  | [], _ => by simp [writeByte, consByte, hv]
  | c :: rest, h => by
    have hc : c.1 < a := h c (by simp)
    have hne : a ≠ c.1 := by omega
    have ih := writeByte_append hv (mem := rest) fun d hd => h d (by simp [hd])
    simp [writeByte, hc.not_gt, hne, ih]

/-- The cells of a canonical memory, written in order behind those listed, are listed as they are. -/
theorem foldl_writeByte_canonical {size : Nat} : ∀ {lo : Nat} {cells mem : List Host.Cell},
    wfFrom size lo cells = true → (∀ c ∈ mem, c.1 < lo) →
      cells.foldl (fun mem c => if c.1 < size then writeByte mem c.1 c.2 else mem) mem = mem ++ cells
  | _, [], mem, _, _ => (List.append_nil mem).symm
  | lo, c :: rest, mem, hw, hlo => by
    simp only [wfFrom, Bool.and_eq_true, decide_eq_true_eq, bne_iff_ne] at hw
    obtain ⟨⟨⟨hc, hsize⟩, hv⟩, hrest⟩ := hw
    have hmem : ∀ d ∈ mem, d.1 < c.1 := fun d hd => (hlo d hd).trans_le hc
    have hnext : ∀ d ∈ mem ++ [c], d.1 < c.1 + 1 := by
      intro d hd
      obtain hd | rfl : d ∈ mem ∨ d = c := by simpa using hd
      · exact (hmem d hd).trans (Nat.lt_succ_self _)
      · exact Nat.lt_succ_self _
    rw [List.foldl_cons, if_pos hsize, writeByte_append hv hmem, foldl_writeByte_canonical hrest hnext,
      List.append_assoc, List.singleton_append]

/-- A canonical memory is built from its own cells. -/
theorem memoryOf_of_wf {size : Nat} {mem : List Host.Cell} (h : Memory.wf size mem = true) : memoryOf size mem = mem :=
  foldl_writeByte_canonical h nofun

/-- Settles O57: the reset takes effect whatever the state, and leaves the memory its move carries. -/
theorem hardwareReset : Obligations.HardwareReset := by
  intro s mem rest hmoves hwf
  rw [step_of_hostMoves hmoves]
  exact ⟨{ s with hostMoves := rest }.hardwareReset mem, rfl, softReset_registersZero s, memoryOf_of_wf hwf, rfl, rfl,
    rfl⟩

end Sys2Proof.Machine
end

section
/-! PROOFS. The ranking of the classes is a permutation of them, stable by descending probability (R233). -/

namespace Sys2Proof.Machine

/-- Without NaNs, what is above a value is above every value that one does not fall below. -/
theorem fgt_of_fgt_of_not_fgt {a b c : F32} (hc : f32IsNaN c = false) (hab : fgt a b = true) (hcb : fgt c b = false) :
    fgt a c = true := by
  simp only [fgt, Bool.and_eq_true, Bool.not_eq_true', decide_eq_true_eq] at hab ⊢
  obtain ⟨⟨ha, hb⟩, hkey⟩ := hab
  have hle : f32Key c ≤ f32Key b := by simpa [fgt, hb, hc] using hcb
  exact ⟨⟨ha, hc⟩, hle.trans_lt hkey⟩

theorem fgt_asymm {a b : F32} (h : fgt a b = true) : fgt b a = false := by
  simp only [fgt, Bool.and_eq_true, decide_eq_true_eq] at h
  obtain ⟨-, hkey⟩ := h
  simp [fgt, hkey.le]

/-- The order of the ranking: descending probability, equal ones by ascending index. -/
def RankedBefore (p q : F32 × Nat) : Prop := fgt p.1 q.1 = true ∨ (fgt q.1 p.1 = false ∧ p.2 < q.2)

theorem RankedBefore.not_fgt {p q : F32 × Nat} (h : RankedBefore p q) : fgt q.1 p.1 = false :=
  h.elim fgt_asymm And.left

theorem rankInsert_perm (p : F32 × Nat) : ∀ l, (rankInsert p l).Perm (p :: l)
  | [] => .refl _
  | q :: rest => by
    unfold rankInsert
    split_ifs
    · exact .refl _
    · exact ((rankInsert_perm p rest).cons q).trans (.swap p q rest)

/-- A pair of higher index than all that are ranked is inserted in order. -/
theorem rankInsert_pairwise {p : F32 × Nat} : ∀ {l : List (F32 × Nat)}, l.Pairwise RankedBefore →
    (∀ q ∈ l, q.2 < p.2 ∧ f32IsNaN q.1 = false) → (rankInsert p l).Pairwise RankedBefore
  | [], _, _ => List.pairwise_singleton ..
  | q :: rest, hl, hq => by
    obtain ⟨hqrest, hrest⟩ := List.pairwise_cons.1 hl
    unfold rankInsert
    split_ifs with habove
    · refine List.pairwise_cons.2 ⟨fun r hr => .inl ?_, hl⟩
      obtain rfl | hr := List.mem_cons.1 hr
      · exact habove
      · exact fgt_of_fgt_of_not_fgt (hq r (List.mem_cons_of_mem _ hr)).2 habove (hqrest r hr).not_fgt
    · refine List.pairwise_cons.2 ⟨fun r hr => ?_,
        rankInsert_pairwise hrest fun r hr => hq r (List.mem_cons_of_mem _ hr)⟩
      obtain rfl | hr := List.mem_cons.1 ((rankInsert_perm p rest).subset hr)
      · exact .inr ⟨by simpa using habove, (hq q List.mem_cons_self).1⟩
      · exact hqrest r hr

/-- The pairs of a list inserted one after the other. -/
def rankPairs (l : List (F32 × Nat)) : List (F32 × Nat) := l.foldl (fun acc p => rankInsert p acc) []

theorem ranking_eq (probs : List F32) : ranking probs = rankPairs probs.zipIdx := rfl

theorem rankPairs_concat (l : List (F32 × Nat)) (p : F32 × Nat) :
    rankPairs (l ++ [p]) = rankInsert p (rankPairs l) := by
  rw [rankPairs, List.foldl_append, rankPairs, List.foldl_cons, List.foldl_nil]

theorem rankPairs_perm (l : List (F32 × Nat)) : (rankPairs l).Perm l := by
  induction l using List.reverseRecOn with
  | nil => exact .nil
  | append_singleton l p ih =>
    rw [rankPairs_concat]
    exact (rankInsert_perm p _).trans ((ih.cons p).trans (List.perm_append_singleton p l).symm)

/-- Pairs inserted by rising index are ranked in order. -/
theorem rankPairs_pairwise {l : List (F32 × Nat)} (hidx : l.Pairwise (·.2 < ·.2))
    (hnan : ∀ p ∈ l, f32IsNaN p.1 = false) : (rankPairs l).Pairwise RankedBefore := by
  induction l using List.reverseRecOn with
  | nil => exact .nil
  | append_singleton l p ih =>
    obtain ⟨hl, -, hlast⟩ := List.pairwise_append.1 hidx
    have hnanl : ∀ q ∈ l, f32IsNaN q.1 = false := fun q hq => hnan q (List.mem_append_left _ hq)
    rw [rankPairs_concat]
    refine rankInsert_pairwise (ih hl hnanl) fun q hq => ?_
    have hq := (rankPairs_perm l).subset hq
    exact ⟨hlast q hq p (List.mem_singleton_self p), hnanl q hq⟩

theorem zipIdx_pairwise_index (probs : List F32) : probs.zipIdx.Pairwise (·.2 < ·.2) := by
  rw [← List.pairwise_map (f := Prod.snd) (R := (· < ·)), List.zipIdx_map_snd]
  exact List.pairwise_lt_range'

/-- Settles O58: the ranking is a permutation of the pairs, and each insertion keeps it in order. -/
theorem rankingIsStableDescending : Obligations.RankingIsStableDescending := by
  intro probs hnan
  have hperm := rankPairs_perm probs.zipIdx
  rw [ranking_eq]
  refine ⟨?_, fun p hp => ?_, rankPairs_pairwise (zipIdx_pairwise_index probs) fun p hp => ?_⟩
  · rw [List.range_eq_range', ← List.zipIdx_map_snd]
    exact hperm.map _
  · exact List.mem_zipIdx_iff_getElem?.1 (hperm.subset hp)
  · have hmem : p.1 ∈ probs := List.mem_of_getElem? (List.mem_zipIdx_iff_getElem?.1 hp)
    exact Bool.eq_false_iff.2 (mt f32IsNaN_iff.1 (hnan p.1 hmem))

end Sys2Proof.Machine
end

section
/-! PROOFS. Errors do not depend on the data of tensors, weights or biases: the checks of a command read the
descriptors, the record and the table alone, and past its checks a command raises no error (R251). -/

namespace Sys2Proof.Machine

/-! ### Memories that agree on a range -/

/-- The two memories hold the same bytes in `[a, a + n)`. -/
def AgreeOn (mem mem' : List Host.Cell) (a n : Nat) : Prop :=
  ∀ b, a ≤ b → b < a + n → readByte mem' b = readByte mem b

section Agree

variable {mem mem' : List Host.Cell} {a n : Nat}

theorem AgreeOn.mono (h : AgreeOn mem mem' a n) {b m : Nat} (hlo : a ≤ b) (hhi : b + m ≤ a + n) :
    AgreeOn mem mem' b m := fun x hx hx' => h x (hlo.trans hx) (hx'.trans_le hhi)

theorem AgreeOn.readWord_eq (h : AgreeOn mem mem' a 4) : readWord mem' a = readWord mem a :=
  readWord_congr fun k hk => h (a + k) (Nat.le_add_right a k) (Nat.add_lt_add_left hk a)

/-- The words at two offsets of a range agree, the first of them at its start. -/
theorem AgreeOn.readWord_add (h : AgreeOn mem mem' a n) (k : Nat) (hk : k + 4 ≤ n) :
    readWord mem' (a + k) = readWord mem (a + k) :=
  (h.mono (Nat.le_add_right a k) (by omega)).readWord_eq

theorem AgreeOn.readRecord_eq (h : AgreeOn mem mem' a 16) : readRecord mem' a = readRecord mem a := by
  simp only [readRecord, (h.mono le_rfl (by omega)).readWord_eq, h.readWord_add 4, h.readWord_add 8, h.readWord_add 12,
    Nat.reduceAdd, Nat.reduceLeDiff]

theorem AgreeOn.descFields_eq (h : AgreeOn mem mem' a 24) : descFields mem' a = descFields mem a := by
  simp only [descFields, (h.mono le_rfl (by omega)).readWord_eq, h.readWord_add 4, h.readWord_add 8, h.readWord_add 12,
    h.readWord_add 16, h.readWord_add 20, Nat.reduceAdd, Nat.reduceLeDiff]

theorem AgreeOn.descPositive_eq (h : AgreeOn mem mem' a 24) : descPositive mem' a = descPositive mem a := by
  simp only [descPositive, (h.mono le_rfl (by omega)).readWord_eq, h.readWord_add 4, h.readWord_add 8, Nat.reduceAdd,
    Nat.reduceLeDiff]

theorem AgreeOn.checkRecords_eq (blobLen : Nat) : ∀ {n r : Nat} {prev : Option Int}, AgreeOn mem mem' r (16 * n) →
    checkRecords mem' blobLen n r prev = checkRecords mem blobLen n r prev
  | 0, _, _, _ => rfl
  | n + 1, r, prev, h => by
    have hrecord := (h.mono (m := 16) le_rfl (by omega)).readRecord_eq
    have hrest := fun prev => AgreeOn.checkRecords_eq blobLen (prev := prev) (h.mono (b := r + 16) (m := 16 * n)
      (by omega) (by omega))
    simp only [checkRecords, hrecord, hrest]

end Agree

/-! ### Checks on another memory -/

section Checks

variable {s : State} {mem : List Host.Cell}

theorem readDesc_setMem {d : Word} (h : AgreeOn s.mem mem d.toNat 24) :
    readDesc { s with mem := mem } d = readDesc s d := by
  simp only [readDesc, h.descFields_eq, h.descPositive_eq]
  rfl

theorem lookup_setMem {pos : Word} (h : AgreeOn s.mem mem (s.recordAddr pos) 16) :
    lookup { s with mem := mem } pos = lookup s pos := by
  have haddr : { s with mem := mem }.recordAddr pos = s.recordAddr pos := rfl
  simp only [lookup, haddr, h.readRecord_eq]
  rfl

theorem ldmetaChecks_setMem {m : MetaOperands} (h : AgreeOn s.mem mem m.metaAddr.toNat m.metaLen.toNat) :
    ldmetaChecks { s with mem := mem } m = ldmetaChecks s m := by
  have htable := h.mono (m := 16 * (m.metaLen.toNat / 16)) le_rfl (by omega)
  simp only [ldmetaChecks, htable.checkRecords_eq m.blobLen.toNat]
  rfl

theorem dwChecks_setMem {c : ConvOperands} (hrecord : AgreeOn s.mem mem (s.recordAddr c.layer) 16)
    (hin : AgreeOn s.mem mem c.input.toNat 24) (hout : AgreeOn s.mem mem c.output.toNat 24) :
    dwChecks { s with mem := mem } c = dwChecks s c := by
  simp only [dwChecks, lookup_setMem hrecord, readDesc_setMem hin, readDesc_setMem hout]
  rfl

theorem pwChecks_setMem {c : ConvOperands} (hrecord : AgreeOn s.mem mem (s.recordAddr c.layer) 16)
    (hin : AgreeOn s.mem mem c.input.toNat 24) (hout : AgreeOn s.mem mem c.output.toNat 24) :
    pwChecks { s with mem := mem } c = pwChecks s c := by
  simp only [pwChecks, lookup_setMem hrecord, readDesc_setMem hin, readDesc_setMem hout]
  rfl

theorem gapChecks_setMem {o : TensorOperands} (hin : AgreeOn s.mem mem o.input.toNat 24)
    (hout : AgreeOn s.mem mem o.output.toNat 24) : gapChecks { s with mem := mem } o = gapChecks s o := by
  simp only [gapChecks, readDesc_setMem hin, readDesc_setMem hout]

theorem softmaxChecks_setMem {o : TensorOperands} (hin : AgreeOn s.mem mem o.input.toNat 24)
    (hout : AgreeOn s.mem mem o.output.toNat 24) : softmaxChecks { s with mem := mem } o = softmaxChecks s o := by
  simp only [softmaxChecks, readDesc_setMem hin, readDesc_setMem hout]

end Checks

/-! ### A raised error is one of the checks' -/

section Raised

variable {s : State} {e : EngineError}

/-- What stops with refusals alone does not raise an error. -/
theorem ne_error_of_refuse {α : Type} {r : Except Stop α} (h : ∀ {x}, r = .error x → ∃ q, x = .refuse q) :
    r ≠ .error (.error e) := fun hr => nomatch h hr

theorem errorCode_injective {e e' : EngineError} (h : errorCode e = errorCode e') : e = e' := by
  revert h
  cases e <;> cases e' <;> decide

/-- When a command's completions move `CMD_PTR` and only its checks raise errors, error entry comes from the checks. -/
theorem checks_of_raised {α : Type} {checks : Except Stop α} {rest : α → Except Stop State}
    (h : s.conclude (checks >>= rest) = .next (raise e s))
    (hok : ∀ {t}, (checks >>= rest) = .ok t → t.cmdPtr ≠ s.cmdPtr) (hrest : ∀ a, rest a ≠ .error (.error e)) :
    checks = .error (.error e) := by
  obtain hdone | ⟨e', herror, heq⟩ := conclude_next h
  · exact absurd (raise_cmdPtr e s) (hok hdone)
  · obtain rfl : e = e' := errorCode_injective (congrArg State.errCode heq)
    exact (bind_error_iff.1 herror).resolve_right fun ⟨a, _, ha⟩ => hrest a ha

theorem ldmetaChecks_of_raised {m : MetaOperands} (h : exec (.ldmeta m) s = .next (raise e s)) :
    ldmetaChecks s m = .error (.error e) := by
  refine checks_of_raised h (fun hdone => ?_) fun _ => nofun
  obtain ⟨-, rfl⟩ := ldmetaResult_ok hdone
  exact advance_cmdPtr_ne _

theorem dwChecks_of_raised {c : ConvOperands} (h : exec (.dwconv c) s = .next (raise e s)) :
    dwChecks s c = .error (.error e) := by
  refine checks_of_raised h (fun hdone => ?_) fun _ => bind_ne_error (ne_error_of_refuse convPreconditions_error)
    fun _ _ => bind_ne_error (ne_error_of_refuse dwBytes_error) fun _ _ => nofun
  obtain ⟨p, bs, -, -, -, rfl⟩ := dwResult_ok hdone
  exact advance_cmdPtr_ne (s.store _ _)

theorem pwChecks_of_raised {c : ConvOperands} (h : exec (.pwconv c) s = .next (raise e s)) :
    pwChecks s c = .error (.error e) := by
  refine checks_of_raised h (fun hdone => ?_) fun _ => bind_ne_error (ne_error_of_refuse convPreconditions_error)
    fun _ _ => bind_ne_error (ne_error_of_refuse pwBytes_error) fun _ _ => nofun
  obtain ⟨p, bs, -, -, -, rfl⟩ := pwResult_ok hdone
  exact advance_cmdPtr_ne (s.store _ _)

theorem gapChecks_of_raised {o : TensorOperands} (h : exec (.gap o) s = .next (raise e s)) :
    gapChecks s o = .error (.error e) := by
  refine checks_of_raised h (fun hdone => ?_) fun _ => bind_ne_error (ne_error_of_refuse gapPreconditions_error)
    fun _ _ => bind_ne_error (ne_error_of_refuse gapBytes_error) fun _ _ => nofun
  obtain ⟨p, bs, -, -, -, rfl⟩ := gapResult_ok hdone
  exact advance_cmdPtr_ne (s.store _ _)

theorem softmaxChecks_of_raised {o : TensorOperands} (h : exec (.softmax o) s = .next (raise e s)) :
    softmaxChecks s o = .error (.error e) := by
  refine checks_of_raised h (fun hdone => ?_) fun _ => bind_ne_error (ne_error_of_refuse softmaxPreconditions_error)
    fun _ _ => bind_ne_error (ne_error_of_refuse softmaxBytes_error) fun _ _ => nofun
  obtain ⟨p, bs, -, -, -, rfl⟩ := softmaxResult_ok hdone
  exact advance_cmdPtr_ne (s.store _ _)

end Raised

/-- A state with the same registers, the model's own fields included, differs in memory alone. -/
theorem eq_setMem_of_sameRegisters {s u : State} (hown : s.sameOwn u) (hreg : s.sameRegistry u) (hflags : s.sameFlags u)
    (hptr : u.cmdPtr = s.cmdPtr) : u = { s with mem := u.mem } := by
  obtain ⟨hsize, hmoves, hread⟩ := hown
  obtain ⟨hbase, hcount, hblob, hlen⟩ := hreg
  obtain ⟨hstatus, hcode, hpc⟩ := hflags
  cases u
  simp_all

/-- Settles O12: a tensor command or `LDMETA` raises what its checks raise, and they read the bytes that agree. `END`
raises nothing, and where its effect is that of error entry it is so for every memory. -/
theorem errorsIgnoreTensorData : Obligations.ErrorsIgnoreTensorData := by
  intro i s u e hown hreg hflags hptr hagree h
  rw [eq_setMem_of_sameRegisters hown hreg hflags hptr]
  cases i with
  | endPass =>
    have hraise : { s with status := endStatus s.status } = raise e s := Host.Outcome.next.inj h
    exact congrArg (fun t : State => Host.Outcome.next { t with mem := u.mem }) hraise
  | ldmeta m =>
    refine exec_ldmeta_of_error ((ldmetaChecks_setMem ?_).trans (ldmetaChecks_of_raised h))
    exact fun a hlo hhi => hagree a ⟨hlo, hhi⟩
  | dwconv c =>
    refine exec_dwconv_of_error ((dwChecks_setMem ?_ ?_ ?_).trans (dwChecks_of_raised h))
    · exact fun a hlo hhi => hagree a (.inl ⟨hlo, hhi⟩)
    · exact fun a hlo hhi => hagree a (.inr (.inl ⟨hlo, hhi⟩))
    · exact fun a hlo hhi => hagree a (.inr (.inr ⟨hlo, hhi⟩))
  | pwconv c =>
    refine exec_pwconv_of_error ((pwChecks_setMem ?_ ?_ ?_).trans (pwChecks_of_raised h))
    · exact fun a hlo hhi => hagree a (.inl ⟨hlo, hhi⟩)
    · exact fun a hlo hhi => hagree a (.inr (.inl ⟨hlo, hhi⟩))
    · exact fun a hlo hhi => hagree a (.inr (.inr ⟨hlo, hhi⟩))
  | gap o =>
    refine exec_gap_of_error ((gapChecks_setMem ?_ ?_).trans (gapChecks_of_raised h))
    · exact fun a hlo hhi => hagree a (.inl ⟨hlo, hhi⟩)
    · exact fun a hlo hhi => hagree a (.inr ⟨hlo, hhi⟩)
  | softmax o =>
    refine exec_softmax_of_error ((softmaxChecks_setMem ?_ ?_).trans (softmaxChecks_of_raised h))
    · exact fun a hlo hhi => hagree a (.inl ⟨hlo, hhi⟩)
    · exact fun a hlo hhi => hagree a (.inr ⟨hlo, hhi⟩)

end Sys2Proof.Machine
end
